-- ==== Sys2Proof/Word.lean ====
section
/-! DEFINITION. The words of HDE: command and response words, operands, bytes, symbols and handles
(spec/30_encoding.md R102, R106; spec/00_scope.md R8, R10). -/

namespace Sys2Proof

/-- A byte of the source (spec/20_memory.md R60). -/
abbrev Byte := BitVec 8

/-- A command word or a response word, 64 bits (spec/30_encoding.md R100). -/
abbrev Word := BitVec 64

/-- The 56-bit operand of a command word, the 56-bit result of a response word, and the width
BUDW of the counters (spec/30_encoding.md R102, R106; spec/00_scope.md R8). -/
abbrev Word56 := BitVec 56

/-- A symbol number, 20 bits (spec/10_state.md R40). -/
abbrev Sym := BitVec 20

/-- A table handle, HW = 17 bits (spec/00_scope.md R8). -/
abbrev Handle := BitVec 17

end Sys2Proof
end

