-- ==== Sys2Proof/Syntax.lean ====
section
/-! DEFINITION. The eleven commands of HDE as syntax, one constructor per row of the opcode table
(spec/30_encoding.md R104), each operand field a bit vector of the width its format gives it (R103). -/

namespace Sys2Proof

/-- A command with its operand fields (spec/30_encoding.md R103, R104). -/
inductive Instr where
  /-- 0x01 RESET (spec/43_system.md R230). -/
  | reset
  /-- 0x02 RDREG reg (spec/43_system.md R232). -/
  | rdreg (reg : BitVec 4)
  /-- 0x10 CODE_CLR nsym (spec/41_table_build.md R170). -/
  | codeClr (nsym : BitVec 21)
  /-- 0x11 CODE_WR sym, len, value (spec/41_table_build.md R171). -/
  | codeWr (sym : Sym) (len : BitVec 5) (value : BitVec 20)
  /-- 0x12 TBL_BUILD (spec/41_table_build.md R173). -/
  | tblBuild
  /-- 0x13 TBL_RD handle, idx (spec/41_table_build.md R180). -/
  | tblRd (handle : Handle) (idx : BitVec 8)
  /-- 0x20 BR_INIT budget (spec/40_bitreader.md R141). -/
  | brInit (budget : Word56)
  /-- 0x21 READBITS n (spec/40_bitreader.md R143). -/
  | readbits (n : BitVec 4)
  /-- 0x22 PEEK (spec/40_bitreader.md R150). -/
  | peek
  /-- 0x30 DEC_SYM (spec/42_decode.md R208). -/
  | decSym
  /-- 0x31 DEC_RUN quota (spec/42_decode.md R209). -/
  | decRun (quota : Word56)
  deriving DecidableEq, Repr

end Sys2Proof
end

