-- ==== Sys2Proof/WellFormed.lean ====
section
/-! DEFINITION. Which commands are legal as encoded: the field values whose illegality shows in the word
alone (spec/30_encoding.md R105, R108). -/

namespace Sys2Proof

/-- RDREG.reg is legal for 0..8 and 15 (spec/30_encoding.md R105). -/
def regLegal (reg : BitVec 4) : Bool := decide (reg.toNat ≤ 8) || decide (reg.toNat = 15)

/-- READBITS.n is legal for 1..8 (spec/30_encoding.md R105). -/
def widthLegal (n : BitVec 4) : Bool := decide (1 ≤ n.toNat) && decide (n.toNat ≤ 8)

/-- The command is a legal word: no field value makes its word illegal (spec/30_encoding.md R108). -/
def Instr.wf : Instr → Bool
  | .reset => true
  | .rdreg reg => regLegal reg
  | .codeClr _ => true
  | .codeWr _ _ _ => true
  | .tblBuild => true
  | .tblRd _ _ => true
  | .brInit _ => true
  | .readbits n => widthLegal n
  | .peek => true
  | .decSym => true
  | .decRun _ => true

end Sys2Proof
end

