-- ==== Sys2Proof/Decode.lean ====
section
/-! DEFINITION. Decoding a 64-bit command word (spec/30_encoding.md R102 to R105, R108), total, with
every illegal word rejected by name; and the encoder written from the same tables. -/

namespace Sys2Proof

/-- Why a command word is illegal (spec/30_encoding.md R108). All are answered IllegalCommand. -/
inductive Illegal where
  /-- The opcode is not one of the eleven. -/
  | opcode
  /-- A bit that the format requires to be 0 is 1. -/
  | reservedBit
  /-- RDREG with reg in 9..14. -/
  | register
  /-- READBITS with n = 0 or n in 9..15. -/
  | width
  deriving DecidableEq, Repr

/-- `v[hi:lo]` with `hi = lo + n - 1` (spec/00_scope.md R10). -/
def field (w : BitVec m) (lo n : Nat) : BitVec n := w.extractLsb' lo n

/-- A command whose format leaves the operand bits from `used` up unnamed: they must all be 0
(spec/30_encoding.md R103, R108). -/
def ifZeroFrom (used : Nat) (operand : Word56) (i : Instr) : Except Illegal Instr :=
  if operand >>> used = 0 then .ok i else .error .reservedBit

/-- Reject a command whose field value makes the word illegal (spec/30_encoding.md R108). -/
def ifLegal (r : Illegal) : Except Illegal Instr → Except Illegal Instr
  | .ok i => if i.wf then .ok i else .error r
  | .error e => .error e

/-- Decode the operand under each opcode (spec/30_encoding.md R103, R104). -/
def decodeOperand (opcode : BitVec 8) (u : Word56) : Except Illegal Instr :=
  match opcode.toNat with
  | 0x01 => ifZeroFrom 0 u .reset
  | 0x02 => ifLegal .register (ifZeroFrom 4 u (.rdreg (field u 0 4)))
  | 0x10 => ifZeroFrom 21 u (.codeClr (field u 0 21))
  | 0x11 => ifZeroFrom 45 u (.codeWr (field u 25 20) (field u 20 5) (field u 0 20))
  | 0x12 => ifZeroFrom 0 u .tblBuild
  | 0x13 => ifZeroFrom 25 u (.tblRd (field u 8 17) (field u 0 8))
  | 0x20 => .ok (.brInit u)
  | 0x21 => ifLegal .width (ifZeroFrom 4 u (.readbits (field u 0 4)))
  | 0x22 => ifZeroFrom 0 u .peek
  | 0x30 => ifZeroFrom 0 u .decSym
  | 0x31 => .ok (.decRun u)
  | _ => .error .opcode

/-- Decode a command word: opcode in 63:56, operand in 55:0 (spec/30_encoding.md R102). -/
def decode (w : Word) : Except Illegal Instr := decodeOperand (field w 56 8) (field w 0 56)

/-- The opcode of each command (spec/30_encoding.md R104). -/
def opcodeOf : Instr → BitVec 8
  | .reset => 0x01
  | .rdreg _ => 0x02
  | .codeClr _ => 0x10
  | .codeWr _ _ _ => 0x11
  | .tblBuild => 0x12
  | .tblRd _ _ => 0x13
  | .brInit _ => 0x20
  | .readbits _ => 0x21
  | .peek => 0x22
  | .decSym => 0x30
  | .decRun _ => 0x31

/-- The operand of each command, its fields laid out from the most significant end, unnamed bits 0
(spec/30_encoding.md R103). -/
def operandOf : Instr → Word56
  | .reset => 0
  | .rdreg reg => (0 : BitVec 52) ++ reg
  | .codeClr nsym => (0 : BitVec 35) ++ nsym
  | .codeWr sym len value => (0 : BitVec 11) ++ sym ++ len ++ value
  | .tblBuild => 0
  | .tblRd handle idx => (0 : BitVec 31) ++ handle ++ idx
  | .brInit budget => budget
  | .readbits n => (0 : BitVec 52) ++ n
  | .peek => 0
  | .decSym => 0
  | .decRun quota => quota

/-- The command word of a command (spec/30_encoding.md R102). -/
def encode (i : Instr) : Word := opcodeOf i ++ operandOf i

/-- The instruction the decoder reads from a word given as a number, bit 0 the least significant bit of
the 64-bit command word; none where the word is illegal or wider than a command word. -/
def decodeTableWord (nbits w : Nat) : Option Instr :=
  let bits := w % 2 ^ nbits
  if bits < 2 ^ 64 then
    match decode (BitVec.ofNat 64 bits) with
    | .ok i => some i
    | .error _ => none
  else none

end Sys2Proof
end

