-- ==== Sys2Proof/Config.lean ====
section
/-! DEFINITION. The constants HUF fixes (spec/00_scope.md R7, R8), what the environment supplies (the
byte source, R14, R40), and the free values the spec leaves open (opaque: no value of theirs can be
proved). -/

namespace Sys2Proof.Config

/-- MAXLEN: the longest code length (spec/00_scope.md R7). -/
abbrev maxLen : Nat := 20

/-- MAXSYM: the largest alphabet size, 2^20 (spec/00_scope.md R7). -/
abbrev maxSym : Nat := 1048576

/-- TSIZE: entries per table (spec/00_scope.md R7). -/
abbrev tableSize : Nat := 256

/-- CHUNK: most bytes taken from the source per refill (spec/00_scope.md R7). -/
abbrev chunkMax : Nat := 4

/-- NTABMAX that always suffices, 1 + 256 + 65536 (spec/00_scope.md R8). -/
abbrev ntabmaxEnough : Nat := 65793

/-- How a source ends after its last byte: with end-of-data, or by failing
(the answers EOS and Err of spec/00_scope.md R14). -/
inductive SourceEnd where
  | eos
  | err
  deriving DecidableEq, Repr, Inhabited

/-- A byte source as the environment supplies it to one BR_INIT (spec/10_state.md R40,
spec/00_scope.md R14): all its bytes S[0..SLEN-1], how it ends after them, and the number of bytes it
chooses to answer each coming SrcRead with (clamped to what the request allows; past the end of this
list the choice is the free value `freeChunk`). -/
structure Source where
  bytes  : List Byte
  ending : SourceEnd
  chunks : List Nat
  deriving DecidableEq, Repr, Inhabited

/-- The source of a machine that has none bound: it holds no byte (spec/10_state.md R42). -/
def noSource : Source := ⟨[], .eos, []⟩

/-- FREE VALUE: the number of bytes a SrcRead answers with, "any value drawn afresh at each call"
(spec/93_implementation_defined.md V3), where the state's list of choices has run out. -/
opaque freeChunk : Nat → Nat

/-- FREE VALUE: the source bound by a BR_INIT (spec/93_implementation_defined.md V4), where the
state's list of sources has run out. -/
opaque freeSource : Nat → Source

/-- FREE VALUE: NTAB after a failed build, "unspecified within 1..NTABMAX" (spec/10_state.md R35,
spec/41_table_build.md R178). The build reduces it into that range. -/
opaque freeNtab : Nat → Nat

end Sys2Proof.Config
end

