-- ==== Sys2Proof/Machine/State.lean ====
section
/-! DEFINITION. The state of HDE as plain data (spec/10_state.md R20, R22, R27 to R42), with the command
port and what the environment supplies; and the state after reset (R42). -/

namespace Sys2Proof.Machine

open Sys2Proof.Config

/-- RSTATE: whether a reader instance exists (spec/10_state.md R27). -/
inductive RState where
  | unbound
  | active
  deriving DecidableEq, Repr

/-- TSTATE: the life of the DecodeTable (spec/10_state.md R27). -/
inductive TState where
  | notBuilt
  | valid
  | failed
  deriving DecidableEq, Repr

/-- One element of CODE memory (spec/10_state.md R38, spec/30_encoding.md R116). -/
structure CodeEntry where
  value : BitVec 20
  len   : BitVec 5
  deriving DecidableEq, Repr

/-- The kind of a table entry (spec/30_encoding.md R114). Kind 3 is reserved and never written. -/
inductive Kind where
  | empty
  | symbol
  | cont
  deriving DecidableEq, Repr

/-- One entry of TABLE memory (spec/10_state.md R39, spec/30_encoding.md R114). -/
structure Entry where
  kind    : Kind
  len     : BitVec 4
  payload : BitVec 20
  deriving DecidableEq, Repr

/-- An element-addressed memory space (spec/20_memory.md R60, R61): the elements that differ from what
an unlisted element reads as, by strictly rising element address. -/
abbrev Memory (α : Type) := List (Nat × α)

/-- What an unlisted CODE element reads as: the unused symbol (0, 0) that CODE_CLR writes
(spec/41_table_build.md R170). -/
def CodeEntry.unused : CodeEntry := ⟨0, 0⟩

/-- What an unlisted TABLE element reads as: the EMPTY entry that Alloc writes
(spec/41_table_build.md R173). -/
def Entry.empty : Entry := ⟨.empty, 0, 0⟩

/-- The faults of the reader and decoder, latched in RERR (spec/60_exceptions.md R251). -/
inductive ReaderFault where
  | unexpectedEOF
  | sourceError
  | invalidCode
  deriving DecidableEq, Repr

/-- The faults of the table builder, latched in TERR (spec/60_exceptions.md R251). -/
inductive BuildFault where
  | badCode
  | tableOverflow
  deriving DecidableEq, Repr

/-- The refusals a command is answered with (spec/60_exceptions.md R251). -/
inductive RefusalCode where
  | tooManySymbols
  | badOperand
  | badState
  | illegalCommand
  deriving DecidableEq, Repr

/-- What a SrcRead answers (spec/00_scope.md R14). -/
inductive SrcAnswer where
  | bytes (bs : List Byte)
  | eos
  | err
  deriving DecidableEq, Repr

/-- The machine (spec/10_state.md R20). The fields from `commands` on are the model's own: the inputs and
the parameter of the step (R21). -/
structure State where
  /-- ACC: the pending bits (R22, R23). -/
  acc : BitVec 64
  /-- NACC: how many low bits of ACC are pending (R22). -/
  nacc : BitVec 7
  /-- REMAINING: bits of the budget not yet consumed (R22). -/
  remaining : Word56
  /-- BUDGET0: the budget given to the last BR_INIT (R22). -/
  budget0 : Word56
  /-- SRCPOS: bytes taken from the source since the last BR_INIT (R22). -/
  srcpos : Word56
  /-- OUTCNT: symbols emitted since the last BR_INIT (R22). -/
  outcnt : Word56
  /-- CUR: handle of the table being probed (R22, R25). -/
  cur : Handle
  /-- LEVEL: continuations followed in the current symbol (R22, R25). -/
  level : BitVec 2
  /-- RERR: the latched fault of the reader and decoder, 0 when none (R32). -/
  rerr : BitVec 8
  /-- TERR: the fault of the last TBL_BUILD, 0 when none (R33). -/
  terr : BitVec 8
  /-- NSYM: the alphabet size (R34). -/
  nsym : BitVec 21
  /-- NTAB: the number of tables allocated (R35). -/
  ntab : BitVec 18
  /-- RSTATE (R27). -/
  rstate : RState
  /-- TSTATE (R27). -/
  tstate : TState
  /-- CODE memory (R38). -/
  code : Memory CodeEntry
  /-- TABLE memory; entry i of table h at element 256*h + i (R39, spec/20_memory.md R61). -/
  table : Memory Entry
  /-- OUT: the emitted symbols, oldest first (R40). -/
  out : List Sym
  /-- SRC: the source bound by the last BR_INIT (R40). -/
  src : Source
  /-- The response word to the last command; none before the first (spec/30_encoding.md R106). -/
  response : Option Word
  /-- The command words the host has still to issue, next first (spec/30_encoding.md R100, R101). -/
  commands : List Word
  /-- The sources the coming BR_INITs bind, next first (R40). -/
  sources : List Source
  /-- How many free values have been drawn (DESIGN CHOICE, log 4). -/
  draws : Nat
  /-- NTABMAX - 1: how many tables the table memory holds beside the root (spec/00_scope.md R8). -/
  tablesBeyondRoot : Fin 131072
  deriving DecidableEq, Repr

/-- Reasons for which the machine stops. There is none: every error of HDE is a response to the host,
after which HDE goes on (spec/60_exceptions.md R250, R254), so no meaning raises a fault, and the type
has no constructor (log 21). Safe: nothing is claimed of a stop. -/
inductive Fault where
  deriving DecidableEq, Repr

/-- Reasons for which the model gives an instruction no meaning. -/
inductive Refusal where
  /-- Raised by `exec` for an instruction that has no meaning yet; no arm raises it any more. Safe: a
  run stops there and nothing is claimed. -/
  | notModelled (mnemonic : String)
  deriving DecidableEq, Repr

/-- The machine right after reset (spec/10_state.md R42, spec/70_reset_and_hazards.md R290): every register
0, UNBOUND, NOT_BUILT, OUT empty, no source bound. The model's own fields: no command waiting, none
answered, no source supplied, NTABMAX = 65793 (DESIGN CHOICE, log 1, 2, 3, 4, 5, 7, 20). -/
def State.reset : State where
  acc := 0
  nacc := 0
  remaining := 0
  budget0 := 0
  srcpos := 0
  outcnt := 0
  cur := 0
  level := 0
  rerr := 0
  terr := 0
  nsym := 0
  ntab := 0
  rstate := .unbound
  tstate := .notBuilt
  code := []
  table := []
  out := []
  src := noSource
  response := none
  commands := []
  sources := []
  draws := 0
  tablesBeyondRoot := 65792

end Sys2Proof.Machine
end

