-- ==== Sys2Proof/Machine/Operands.lean ====
section
/-! DEFINITION. The data encodings: bit slices, the bit reversal of the lookahead, the chunks of a long
code, entry words, response words and response codes (spec/00_scope.md R10, R11, spec/30_encoding.md R106,
R114 to R119, spec/60_exceptions.md R251). -/

namespace Sys2Proof.Machine

open Sys2Proof.Config

/-- The low `n` bits of a value, `v[n-1 : 0]` (spec/00_scope.md R10). -/
def lowBits (n : Nat) (v : Nat) : Nat := v % 2 ^ n

/-- rev8: bit 7 - i of the result is bit i of the argument (spec/00_scope.md R11). -/
def rev8 (p : BitVec 8) : BitVec 8 :=
  p.extractLsb' 0 1 ++ p.extractLsb' 1 1 ++ p.extractLsb' 2 1 ++ p.extractLsb' 3 1
    ++ p.extractLsb' 4 1 ++ p.extractLsb' 5 1 ++ p.extractLsb' 6 1 ++ p.extractLsb' 7 1

/-- The element address of entry `i` of table `h` (spec/20_memory.md R61). -/
def tableAddr (h i : Nat) : Nat := tableSize * h + i

/-- How many whole 8-bit chunks a code of length `len` has before its last 1 to 8 bits: the number of
continuations its descent follows (spec/30_encoding.md R119, spec/41_table_build.md R174). -/
def chunksBefore (len : Nat) : Nat := (len - 1) / 8

/-- The next 8 bits of a code of which `rem` bits are left, from the most significant end:
`(value >> (rem - 8))[7:0]` (spec/30_encoding.md R119). -/
def chunk (value rem : Nat) : Nat := lowBits 8 (value >>> (rem - 8))

/-- The first slot filled by the last `rem` bits of a code, `value[rem-1:0] << (8 - rem)`
(spec/41_table_build.md R175). -/
def fillBase (value rem : Nat) : Nat := lowBits rem value <<< (8 - rem)

/-- How many slots the last `rem` bits of a code fill, `2^(8 - rem)` (spec/00_scope.md R17). -/
def fillCount (rem : Nat) : Nat := 2 ^ (8 - rem)

/-- The two kind bits of an entry word (spec/30_encoding.md R114). -/
def kindBits : Kind → BitVec 2
  | .empty => 0
  | .symbol => 1
  | .cont => 2

/-- The 32-bit entry word: zero 31:26, payload 25:6, len 5:2, kind 1:0 (spec/30_encoding.md R114). -/
def entryWord (e : Entry) : BitVec 32 := (0 : BitVec 6) ++ e.payload ++ e.len ++ kindBits e.kind

/-- The entry of a resolved code: the symbol and how many bits to consume (spec/30_encoding.md R114). -/
def symbolEntry (rem : Nat) (sym : Nat) : Entry := ⟨.symbol, BitVec.ofNat 4 rem, BitVec.ofNat 20 sym⟩

/-- The entry of a continuation to a sub-table (spec/30_encoding.md R114). -/
def contEntry (handle : Nat) : Entry := ⟨.cont, 8, BitVec.ofNat 20 handle⟩

/-- The code of OK (spec/60_exceptions.md R251). -/
def okCode : BitVec 8 := 0x00

/-- The code of the condition EOF (spec/60_exceptions.md R251). -/
def eofCode : BitVec 8 := 0x01

/-- The codes of the reader and decoder faults (spec/60_exceptions.md R251). -/
def readerFaultCode : ReaderFault → BitVec 8
  | .unexpectedEOF => 0x40
  | .sourceError => 0x41
  | .invalidCode => 0x42

/-- The codes of the builder's faults (spec/60_exceptions.md R251). -/
def buildFaultCode : BuildFault → BitVec 8
  | .badCode => 0x50
  | .tableOverflow => 0x51

/-- The codes of the refusals (spec/60_exceptions.md R251). -/
def refusalCode : RefusalCode → BitVec 8
  | .tooManySymbols => 0x7C
  | .badOperand => 0x7D
  | .badState => 0x7E
  | .illegalCommand => 0x7F

/-- The response word: code in 63:56, result in 55:0 (spec/30_encoding.md R106). -/
def responseWord (code : BitVec 8) (result : Word56) : Word := code ++ result

/-- PEEK's result: avail in 11:8, the lookahead byte in 7:0 (spec/30_encoding.md R107). -/
def peekResult (avail : Nat) (p : BitVec 8) : Word56 := (BitVec.ofNat 48 avail) ++ p

end Sys2Proof.Machine
end

