-- ==== Sys2Proof/Machine/Ops.lean ====
section
/-! DEFINITION. The named operations the meanings are written over: memory access (spec/20_memory.md R60,
R68), responses and refusals (spec/00_scope.md R13), the latching of a fault, which is what HDE has in place
of taking an exception, and the leaving of it (spec/60_exceptions.md R254, R262), the entry checks of the
reader (spec/40_bitreader.md R142), and SrcRead, Refill and Consume (spec/00_scope.md R14,
spec/40_bitreader.md R145, R148). -/

namespace Sys2Proof.Machine

open Sys2Proof.Config

/-! ### Memory -/

/-- The canonical form: addresses strictly rising, and no element equal to what an unlisted one reads as. -/
abbrev Memory.wf {α : Type} (dflt : α) (m : Memory α) : Prop :=
  List.Pairwise (fun c c' => c.1 < c'.1) m ∧ ∀ c ∈ m, c.2 ≠ dflt

/-- MemRead of one element (spec/00_scope.md R12). -/
def Memory.read {α : Type} (dflt : α) : Memory α → Nat → α
  | [], _ => dflt
  | (k, v) :: m, a => if a = k then v else Memory.read dflt m a

/-- MemWrite of one element, keeping the canonical form (spec/00_scope.md R12). -/
def Memory.write {α : Type} [DecidableEq α] (dflt : α) : Memory α → Nat → α → Memory α
  | [], a, v => if v = dflt then [] else [(a, v)]
  | (k, w) :: m, a, v =>
    if a < k then (if v = dflt then (k, w) :: m else (a, v) :: (k, w) :: m)
    else if a = k then (if v = dflt then m else (k, v) :: m)
    else (k, w) :: Memory.write dflt m a v

/-- Set the `n` elements from `a` on to what an unlisted element reads as. -/
def Memory.clear {α : Type} (m : Memory α) (a n : Nat) : Memory α :=
  m.filter fun c => decide (c.1 < a) || decide (a + n ≤ c.1)

/-- `C[s]` (spec/00_scope.md R12). -/
def codeRead (c : Memory CodeEntry) (sym : Nat) : CodeEntry := Memory.read CodeEntry.unused c sym

/-- `C[s] <- e` (spec/00_scope.md R12). -/
def codeWrite (c : Memory CodeEntry) (sym : Nat) (e : CodeEntry) : Memory CodeEntry :=
  Memory.write CodeEntry.unused c sym e

/-- `T[h][i]` (spec/00_scope.md R12). -/
def tableRead (t : Memory Entry) (h i : Nat) : Entry := Memory.read Entry.empty t (tableAddr h i)

/-- `T[h][i] <- e` (spec/00_scope.md R12). -/
def tableWrite (t : Memory Entry) (h i : Nat) (e : Entry) : Memory Entry :=
  Memory.write Entry.empty t (tableAddr h i) e

/-! ### Responses, refusals and faults -/

/-- `return (code, result)`: end the command with that response (spec/00_scope.md R13). -/
def respond (code : BitVec 8) (result : Word56) (s : State) : Host.Outcome State Fault Refusal :=
  .next { s with response := some (responseWord code result) }

/-- `refuse X`: the command changes no state at all, and the result is 0 (spec/00_scope.md R13,
spec/60_exceptions.md R250). -/
def refuse (x : RefusalCode) (s : State) : Host.Outcome State Fault Refusal :=
  respond (refusalCode x) 0 s

/-- Latching a reader or decoder fault: `if RERR = 0: RERR <- code(F)`, and nothing else is saved
(spec/60_exceptions.md R254). -/
def latch (f : ReaderFault) (s : State) : State :=
  if s.rerr = 0 then { s with rerr := readerFaultCode f } else s

/-- `raise F` in a reader or decoder command: latch F and end the command with its code; the result is 0,
or the number of symbols emitted for DEC_RUN (spec/00_scope.md R13, spec/60_exceptions.md R254). -/
def raiseReader (f : ReaderFault) (result : Word56) (s : State) : Host.Outcome State Fault Refusal :=
  respond (readerFaultCode f) result (latch f s)

/-- NTAB after a failed build: any value within 1..NTABMAX (spec/41_table_build.md R178, log 6). -/
def failedNtab (s : State) : BitVec 18 :=
  BitVec.ofNat 18 (freeNtab s.draws % (s.tablesBeyondRoot.val + 1) + 1)

/-- BuildFail: `TSTATE <- FAILED; TERR <- code(F)`, the response carries the symbol being inserted; NTAB is
unspecified within 1..NTABMAX and no table can be read any more (spec/41_table_build.md R173, R178,
spec/60_exceptions.md R254; log 6, 7). -/
def raiseBuild (f : BuildFault) (sym : Sym) (s : State) : Host.Outcome State Fault Refusal :=
  respond (buildFaultCode f) (sym.setWidth 56)
    { s with tstate := .failed, terr := buildFaultCode f, ntab := failedNtab s, table := [],
             draws := s.draws + 1 }

/-- Leaving a latched reader fault: BR_INIT's `RERR <- 0`; there is no return instruction
(spec/60_exceptions.md R262). -/
def leaveReaderFault (s : State) : State := { s with rerr := 0 }

/-- Leaving a failed build, and dropping the table of the Code before: CODE_CLR's
`TSTATE <- NOT_BUILT; NTAB <- 0; TERR <- 0`. Tables at or above NTAB do not exist, so none is left
(spec/60_exceptions.md R262, spec/41_table_build.md R170, spec/10_state.md R39). -/
def leaveBuild (s : State) : State :=
  { s with tstate := .notBuilt, ntab := 0, terr := 0, table := [] }

/-- ReaderReady: the entry checks of READBITS, PEEK, DEC_SYM and DEC_RUN. `some code` ends the command with
that code, result 0 and no state change: BadState when no reader is bound, then a latched fault
(spec/40_bitreader.md R142). -/
def readerReady (s : State) : Option (BitVec 8) :=
  if s.rstate = .unbound then some (refusalCode .badState)
  else if s.rerr ≠ 0 then some s.rerr
  else none

/-- DecoderReady: the table first, then ReaderReady (spec/42_decode.md R201). -/
def decoderReady (s : State) : Option (BitVec 8) :=
  if s.tstate ≠ .valid then some (refusalCode .badState) else readerReady s

/-! ### The source and the accumulator -/

/-- What a procedure of the reader or decoder ends in: a value, or a fault it raises, and the state then. -/
inductive Run (α : Type) where
  | done (a : α) (s : State)
  | raised (f : ReaderFault) (s : State)
  deriving DecidableEq, Repr

/-- A choice of how many bytes to answer with, brought into the range 1..k (spec/00_scope.md R14). -/
def clampChunk (k c : Nat) : Nat := max 1 (min c k)

/-- How many bytes at most the source puts in its next answer: its next choice, or the free value where its
list of choices has run out (spec/93_implementation_defined.md V3, log 4). -/
def nextChunk (k : Nat) (s : State) : Nat × State :=
  match s.src.chunks with
  | c :: cs => (clampChunk k c, { s with src := { s.src with chunks := cs } })
  | [] => (clampChunk k (freeChunk s.draws), { s with draws := s.draws + 1 })

/-- SrcRead(k): the next bytes of the source in order, at least one and at most k; or, when none is left,
how the source ends (spec/00_scope.md R14). -/
def srcRead (k : Nat) (s : State) : SrcAnswer × State :=
  match s.src.bytes.drop s.srcpos.toNat with
  | [] =>
    match s.src.ending with
    | .eos => (.eos, s)
    | .err => (.err, s)
  | b :: bs => (.bytes ((b :: bs).take (nextChunk k s).1), (nextChunk k s).2)

/-- Take one byte into ACC above the pending bits: `ACC <- ACC | (zext_64(b) << NACC); NACC <- NACC + 8;
SRCPOS <- SRCPOS + 1` (spec/40_bitreader.md R145). -/
def appendByte (b : Byte) (s : State) : State :=
  { s with acc := s.acc ||| (b.setWidth 64 <<< s.nacc.toNat), nacc := s.nacc + 8, srcpos := s.srcpos + 1 }

/-- Take the bytes of one answer in order (spec/40_bitreader.md R145). -/
def appendBytes : List Byte → State → State
  | [], s => s
  | b :: bs, s => appendBytes bs (appendByte b s)

/-- How many bytes a refill asks for: `min(4, ceil((REMAINING - NACC) / 8))` (spec/40_bitreader.md R145). -/
def refillAsk (s : State) : Nat := min chunkMax ((s.remaining.toNat - s.nacc.toNat + 7) / 8)

/-- Refill(want) (spec/40_bitreader.md R145). Its loop `while NACC < want` runs at most once: an answer has
at least one byte, and `want ≤ 8` (DEDUCED, log 11; `refill_enough`). -/
def refill (want : Nat) (s : State) : Run Unit :=
  if s.nacc.toNat < want then
    match srcRead (refillAsk s) s with
    | (.bytes bs, s') => .done () (appendBytes bs s')
    | (.eos, s') => .raised .unexpectedEOF s'
    | (.err, s') => .raised .sourceError s'
  else .done () s

/-- Consume(n) (spec/40_bitreader.md R148). -/
def consume (n : Nat) (s : State) : State :=
  { s with acc := s.acc >>> n, nacc := s.nacc - BitVec.ofNat 7 n,
           remaining := s.remaining - BitVec.ofNat 56 n }

/-- avail: how many bits of lookahead there are, min(8, REMAINING) (spec/40_bitreader.md R150). -/
def availBits (s : State) : Nat := min 8 s.remaining.toNat

/-- The lookahead byte: `ACC[avail-1 : 0]` zero-extended to 8 bits (spec/40_bitreader.md R150). -/
def lookahead (avail : Nat) (s : State) : BitVec 8 := BitVec.ofNat 8 (lowBits avail s.acc.toNat)

end Sys2Proof.Machine
end

