-- ==== Sys2Proof/Machine/BitReader.lean ====
section
/-! DEFINITION. The reader commands BR_INIT, READBITS, PEEK (spec/40_bitreader.md). -/

namespace Sys2Proof.Machine

open Sys2Proof.Config

/-- Bind the next source the environment supplies, or a free one where its list has run out
(spec/10_state.md R40, log 3). -/
def bindSource (s : State) : State :=
  match s.sources with
  | src :: rest => { s with src := src, sources := rest }
  | [] => { s with src := freeSource s.draws, draws := s.draws + 1 }

/-- The registers BR_INIT writes, but for RERR (spec/40_bitreader.md R141). -/
def startReader (budget : Word56) (s : State) : State :=
  { s with acc := 0, nacc := 0, remaining := budget, budget0 := budget, srcpos := 0, outcnt := 0,
           rstate := .active, cur := 0, level := 0 }

/-- BR_INIT budget (spec/40_bitreader.md R141). -/
def execBrInit (budget : Word56) (s : State) : Host.Outcome State Fault Refusal :=
  respond okCode 0 (leaveReaderFault (startReader budget (bindSource s)))

/-- READBITS n: entry checks, then the budget, then the source (spec/40_bitreader.md R143, R144). n = 0 and
n in 9..15 make the word illegal (spec/30_encoding.md R108). -/
def execReadbits (n : BitVec 4) (s : State) : Host.Outcome State Fault Refusal :=
  if widthLegal n = false then refuse .illegalCommand s
  else
    match readerReady s with
    | some code => respond code 0 s
    | none =>
      if s.remaining.toNat < n.toNat then raiseReader .unexpectedEOF 0 s
      else
        match refill n.toNat s with
        | .raised f s' => raiseReader f 0 s'
        | .done _ s' =>
          respond okCode (BitVec.ofNat 56 (lowBits n.toNat s'.acc.toNat)) (consume n.toNat s')

/-- PEEK (spec/40_bitreader.md R150). -/
def execPeek (s : State) : Host.Outcome State Fault Refusal :=
  match readerReady s with
  | some code => respond code 0 s
  | none =>
    if s.remaining = 0 then respond eofCode 0 s
    else
      match refill (availBits s) s with
      | .raised f s' => raiseReader f 0 s'
      | .done _ s' => respond okCode (peekResult (availBits s) (lookahead (availBits s) s')) s'

end Sys2Proof.Machine
end

