-- ==== Sys2Proof/Machine/CodeTable.lean ====
section
/-! DEFINITION. Loading the Code and building the DecodeTable: CODE_CLR, CODE_WR, TBL_BUILD, TBL_RD
(spec/41_table_build.md). -/

namespace Sys2Proof.Machine

open Sys2Proof.Config

/-- CODE_CLR nsym (spec/41_table_build.md R170). Every element below nsym becomes (0, 0) and none exists
above, so none is listed. -/
def execCodeClr (nsym : BitVec 21) (s : State) : Host.Outcome State Fault Refusal :=
  if nsym.toNat > maxSym then refuse .tooManySymbols s
  else respond okCode 0 (leaveBuild { s with nsym := nsym, code := [] })

/-- The operands CODE_WR refuses with BadOperand: `sym ≥ NSYM or len > 20 or value ≥ 2^len`
(spec/41_table_build.md R171). -/
def codeWrBad (sym : Sym) (len : BitVec 5) (value : BitVec 20) (s : State) : Bool :=
  decide (sym.toNat ≥ s.nsym.toNat) || decide (len.toNat > maxLen) || decide (value.toNat ≥ 2 ^ len.toNat)

/-- CODE_WR sym, len, value: the state check, then the operands (spec/41_table_build.md R171). -/
def execCodeWr (sym : Sym) (len : BitVec 5) (value : BitVec 20) (s : State) :
    Host.Outcome State Fault Refusal :=
  if s.tstate ≠ .notBuilt then refuse .badState s
  else if codeWrBad sym len value s then refuse .badOperand s
  else respond okCode 0 { s with code := codeWrite s.code sym.toNat ⟨value, len⟩ }

/-- The tables while they are built: TABLE and NTAB (spec/41_table_build.md R173). -/
structure Arena where
  table : Memory Entry
  ntab  : Nat
  deriving DecidableEq, Repr

/-- Alloc: take the next table, cleared to EMPTY; TableOverflow when all NTABMAX are taken
(spec/41_table_build.md R173, R176). -/
def alloc (ntabmax : Nat) (a : Arena) : Except BuildFault (Nat × Arena) :=
  if a.ntab = ntabmax then .error .tableOverflow
  else .ok (a.ntab, ⟨Memory.clear a.table (tableAddr a.ntab 0) tableSize, a.ntab + 1⟩)

/-- One turn of the descent loop at slot `b` of table `h`: the sub-table to go on in
(spec/41_table_build.md R173, R174). -/
def descendOnce (ntabmax : Nat) (h b : Nat) (a : Arena) : Except BuildFault (Nat × Arena) :=
  let e := tableRead a.table h b
  match e.kind with
  | .empty =>
    match alloc ntabmax a with
    | .error f => .error f
    | .ok (h2, a2) => .ok (h2, { a2 with table := tableWrite a2.table h b (contEntry h2) })
  | .cont => .ok (e.payload.toNat, a)
  | .symbol => .error .badCode

/-- The descent of a code of which `rem` bits are left, through the given number of continuations; the loop
`while rem > 8` runs exactly `chunksBefore rem` times (spec/41_table_build.md R174). -/
def descend (ntabmax value : Nat) : Nat → Nat → Nat → Arena → Except BuildFault (Nat × Arena)
  | 0, _, h, a => .ok (h, a)
  | k + 1, rem, h, a =>
    match descendOnce ntabmax h (chunk value rem) a with
    | .error f => .error f
    | .ok (h2, a2) => descend ntabmax value k (rem - 8) h2 a2

/-- Fill `n` slots of table `h` from slot `i` on; a slot already used is a BadCode
(spec/41_table_build.md R173, R175, R177). -/
def fillSlots (h : Nat) (e : Entry) : Nat → Nat → Arena → Except BuildFault Arena
  | 0, _, a => .ok a
  | n + 1, i, a =>
    if (tableRead a.table h i).kind ≠ .empty then .error .badCode
    else fillSlots h e n (i + 1) { a with table := tableWrite a.table h i e }

/-- Insert the code of one symbol: nothing for length 0, else the descent from the root and the fill of the
last 1 to 8 bits (spec/41_table_build.md R173). -/
def insertCode (ntabmax sym : Nat) (c : CodeEntry) (a : Arena) : Except BuildFault Arena :=
  if c.len = 0 then .ok a
  else
    let k := chunksBefore c.len.toNat
    match descend ntabmax c.value.toNat k c.len.toNat 0 a with
    | .error f => .error f
    | .ok (h, a2) =>
      let rem := c.len.toNat - 8 * k
      fillSlots h (symbolEntry rem sym) (fillCount rem) (fillBase c.value.toNat rem) a2

/-- Insert the codes of the given symbols in order; the first failing insertion reports its symbol
(spec/41_table_build.md R173, spec/60_exceptions.md R259). -/
def insertAll (ntabmax : Nat) : List (Nat × CodeEntry) → Arena → Except (BuildFault × Nat) Arena
  | [], a => .ok a
  | (sym, c) :: rest, a =>
    match insertCode ntabmax sym c a with
    | .error f => .error (f, sym)
    | .ok a2 => insertAll ntabmax rest a2

/-- The listed symbols below NSYM, ascending. A symbol not listed reads as (0, 0), and its turn of the loop
`for s in 0..NSYM-1` does nothing (DEDUCED, log 10; `build_eq_all_symbols`). -/
def listedCodes (nsym : Nat) (c : Memory CodeEntry) : List (Nat × CodeEntry) :=
  c.filter fun p => decide (p.1 < nsym)

/-- The arena with the root only, handle 0, every entry EMPTY (spec/41_table_build.md R173). -/
def rootArena : Arena := ⟨[], 1⟩

/-- Build the tables of a Code (spec/41_table_build.md R173). -/
def buildTables (ntabmax nsym : Nat) (c : Memory CodeEntry) : Except (BuildFault × Nat) Arena :=
  insertAll ntabmax (listedCodes nsym c) rootArena

/-- NTABMAX (spec/00_scope.md R8). -/
def ntabMax (s : State) : Nat := s.tablesBeyondRoot.val + 1

/-- TBL_BUILD (spec/41_table_build.md R173). -/
def execTblBuild (s : State) : Host.Outcome State Fault Refusal :=
  if s.tstate ≠ .notBuilt then refuse .badState s
  else
    match buildTables (ntabMax s) s.nsym.toNat s.code with
    | .error (f, sym) => raiseBuild f (BitVec.ofNat 20 sym) s
    | .ok a =>
      respond okCode (BitVec.ofNat 56 a.ntab)
        { s with table := a.table, ntab := BitVec.ofNat 18 a.ntab, tstate := .valid }

/-- TBL_RD handle, idx (spec/41_table_build.md R180). -/
def execTblRd (handle : Handle) (idx : BitVec 8) (s : State) : Host.Outcome State Fault Refusal :=
  if s.tstate ≠ .valid then refuse .badState s
  else if handle.toNat ≥ s.ntab.toNat then refuse .badOperand s
  else respond okCode ((entryWord (tableRead s.table handle.toNat idx.toNat)).setWidth 56) s

end Sys2Proof.Machine
end

