-- ==== Sys2Proof/Machine/Decoder.lean ====
section
/-! DEFINITION. The decode commands DEC_SYM and DEC_RUN (spec/42_decode.md). -/

namespace Sys2Proof.Machine

/-- What DecodeOne answers when it raises no fault (spec/42_decode.md R203). -/
inductive Decoded where
  | sym (s : Sym)
  | ended
  deriving DecidableEq, Repr

/-- The entry the decoder probes: `T[CUR][rev8(p)]` (spec/42_decode.md R202). -/
def probe (avail : Nat) (s : State) : Entry :=
  tableRead s.table s.cur.toNat (rev8 (lookahead avail s)).toNat

/-- With fewer than 8 bits of lookahead, only a codeword that ends within them resolves
(spec/42_decode.md R207). -/
def shortProbeFails (avail : Nat) (e : Entry) : Bool :=
  decide (avail < 8) && !(decide (e.kind = .symbol) && decide (e.len.toNat ≤ avail))

/-- Start a symbol at the root (spec/42_decode.md R203). -/
def startSymbol (s : State) : State := { s with cur := 0, level := 0 }

/-- The continuation action: consume 8 bits and go on in the sub-table (spec/42_decode.md R204). -/
def followCont (e : Entry) (s : State) : State :=
  { consume 8 s with cur := e.payload.setWidth 17, level := s.level + 1 }

/-- The loop of DecodeOne (spec/42_decode.md R203). The first argument bounds the turns; each turn that does
not end the symbol consumes 8 bits, so REMAINING / 8 + 1 turns are always enough and the last line is never
reached (DEDUCED, log 12; `decodeLoop_enough`). -/
def decodeLoop : Nat → State → Run Decoded
  | turns + 1, s =>
    if s.remaining = 0 then
      if s.level = 0 then .done .ended s else .raised .unexpectedEOF s
    else
      match refill (availBits s) s with
      | .raised f s' => .raised f s'
      | .done _ s' =>
        let e := probe (availBits s) s'
        if shortProbeFails (availBits s) e then .raised .unexpectedEOF s'
        else
          match e.kind with
          | .symbol => .done (.sym e.payload) (consume e.len.toNat s')
          | .cont => decodeLoop turns (followCont e s')
          | .empty => .raised .invalidCode s'
  | 0, s => .raised .unexpectedEOF s

/-- DecodeOne (spec/42_decode.md R203). -/
def decodeOne (s : State) : Run Decoded := decodeLoop (s.remaining.toNat / 8 + 1) (startSymbol s)

/-- Emit(sym) and `OUTCNT <- OUTCNT + 1` (spec/00_scope.md R14, spec/42_decode.md R208). -/
def emit (sym : Sym) (s : State) : State := { s with out := s.out ++ [sym], outcnt := s.outcnt + 1 }

/-- DEC_SYM (spec/42_decode.md R208). -/
def execDecSym (s : State) : Host.Outcome State Fault Refusal :=
  match decoderReady s with
  | some code => respond code 0 s
  | none =>
    match decodeOne s with
    | .raised f s' => raiseReader f 0 s'
    | .done .ended s' => respond eofCode 0 s'
    | .done (.sym sym) s' => respond okCode (sym.setWidth 56) (emit sym s')

/-- The loop of DEC_RUN, with how many symbols the quota still allows and how many have been emitted
(spec/42_decode.md R209). -/
def decodeRun : Nat → Nat → State → Host.Outcome State Fault Refusal
  | 0, cnt, s => respond okCode (BitVec.ofNat 56 cnt) s
  | left + 1, cnt, s =>
    match decodeOne s with
    | .raised f s' => raiseReader f (BitVec.ofNat 56 cnt) s'
    | .done .ended s' => respond eofCode (BitVec.ofNat 56 cnt) s'
    | .done (.sym sym) s' => decodeRun left (cnt + 1) (emit sym s')

/-- DEC_RUN quota (spec/42_decode.md R209). -/
def execDecRun (quota : Word56) (s : State) : Host.Outcome State Fault Refusal :=
  match decoderReady s with
  | some code => respond code 0 s
  | none => decodeRun quota.toNat 0 s

end Sys2Proof.Machine
end

