-- ==== Sys2Proof/Machine/Flags.lean ====
section
/-! DEFINITION. The status flags and the registers the host reads (spec/10_state.md R29 to R36). HDE has no
condition codes (R29): each flag is a function of other state. -/

namespace Sys2Proof.Machine

/-- RACTIVE: RSTATE = ACTIVE (spec/10_state.md R31). -/
def flagRactive (s : State) : Bool := decide (s.rstate = .active)

/-- REOF: RSTATE = ACTIVE and REMAINING = 0 (spec/10_state.md R31). -/
def flagReof (s : State) : Bool := decide (s.rstate = .active) && decide (s.remaining = 0)

/-- RFAULT: RERR ≠ 0 (spec/10_state.md R31). -/
def flagRfault (s : State) : Bool := decide (s.rerr ≠ 0)

/-- TVALID: TSTATE = VALID (spec/10_state.md R31). -/
def flagTvalid (s : State) : Bool := decide (s.tstate = .valid)

/-- TFAULT: TSTATE = FAILED (spec/10_state.md R31). -/
def flagTfault (s : State) : Bool := decide (s.tstate = .failed)

/-- STATUS: bit 0 RACTIVE, 1 REOF, 2 RFAULT, 3 TVALID, 4 TFAULT, 15:5 zero (spec/10_state.md R31). -/
def status (s : State) : BitVec 16 :=
  (0 : BitVec 11) ++ BitVec.ofBool (flagTfault s) ++ BitVec.ofBool (flagTvalid s)
    ++ BitVec.ofBool (flagRfault s) ++ BitVec.ofBool (flagReof s) ++ BitVec.ofBool (flagRactive s)

/-- ID: the constant 0x48444501 (spec/10_state.md R36). -/
def idRegister : BitVec 32 := 0x48444501

/-- The register a number names, zero-extended to 56 bits; none for the reserved numbers 9 to 14
(spec/10_state.md R30). -/
def readRegister (reg : BitVec 4) (s : State) : Option Word56 :=
  match reg.toNat with
  | 0 => some ((status s).setWidth 56)
  | 1 => some (s.rerr.setWidth 56)
  | 2 => some (s.terr.setWidth 56)
  | 3 => some (s.nsym.setWidth 56)
  | 4 => some (s.ntab.setWidth 56)
  | 5 => some s.remaining
  | 6 => some s.srcpos
  | 7 => some s.outcnt
  | 8 => some s.budget0
  | 15 => some (idRegister.setWidth 56)
  | _ => none

/-- BITPOS: the index of the next stream bit to be consumed, BUDGET0 - REMAINING (spec/10_state.md R28). -/
def bitpos (s : State) : Nat := s.budget0.toNat - s.remaining.toNat

end Sys2Proof.Machine
end

