-- ==== Sys2Proof/Machine/System.lean ====
section
/-! DEFINITION. The system commands RESET and RDREG (spec/43_system.md). -/

namespace Sys2Proof.Machine

/-- The reset state, in front of the same environment: what the host has still to issue and the sources still
to come are not HDE's to reset, and NTABMAX is fixed (spec/70_reset_and_hazards.md R290; log 14). -/
def resetKeepingEnvironment (s : State) : State :=
  { State.reset with
    response := s.response, commands := s.commands, sources := s.sources, draws := s.draws,
    tablesBeyondRoot := s.tablesBeyondRoot }

/-- RESET (spec/43_system.md R230). -/
def execReset (s : State) : Host.Outcome State Fault Refusal :=
  respond okCode 0 (resetKeepingEnvironment s)

/-- RDREG reg (spec/43_system.md R232); reg in 9..14 is an illegal word (spec/30_encoding.md R108). -/
def execRdreg (reg : BitVec 4) (s : State) : Host.Outcome State Fault Refusal :=
  match readRegister reg s with
  | some v => respond okCode v s
  | none => refuse .illegalCommand s

end Sys2Proof.Machine
end

