-- ==== Sys2Proof/Machine/Dispatch.lean ====
section
/-! DEFINITION. One arm per command (spec/30_encoding.md R104). -/

namespace Sys2Proof.Machine

def exec (i : Instr) (s : State) : Host.Outcome State Fault Refusal :=
  match i with
  | .reset => Sys2Proof.Machine.execReset s
  | .rdreg reg => Sys2Proof.Machine.execRdreg reg s
  | .codeClr nsym => Sys2Proof.Machine.execCodeClr nsym s
  | .codeWr sym len value => Sys2Proof.Machine.execCodeWr sym len value s
  | .tblBuild => Sys2Proof.Machine.execTblBuild s
  | .tblRd handle idx => Sys2Proof.Machine.execTblRd handle idx s
  | .brInit budget => Sys2Proof.Machine.execBrInit budget s
  | .readbits n => Sys2Proof.Machine.execReadbits n s
  | .peek => Sys2Proof.Machine.execPeek s
  | .decSym => Sys2Proof.Machine.execDecSym s
  | .decRun quota => Sys2Proof.Machine.execDecRun quota s

end Sys2Proof.Machine
end

