-- ==== Sys2Proof/Machine/Step.lean ====
section
/-! DEFINITION. One step: the host issues its next command word and HDE answers it (spec/30_encoding.md R100,
R101, R108, spec/20_memory.md R70). With no command waiting HDE is idle and keeps all state
(spec/60_exceptions.md R271). -/

namespace Sys2Proof.Machine

/-- Answer one command word: the command it encodes, or IllegalCommand (spec/30_encoding.md R108). -/
def answer (w : Word) (s : State) : Host.Outcome State Fault Refusal :=
  match decode w with
  | .ok i => exec i s
  | .error _ => refuse .illegalCommand s

/-- One step of the machine. -/
def step (s : State) : Host.Outcome State Fault Refusal :=
  match s.commands with
  | [] => .next s
  | w :: rest => answer w { s with commands := rest }

/-- The state with the given command word placed where the host issues its next command: in front of the
commands it has still to issue (log 1). -/
def State.withFetchWord (s : State) (nbits w : Nat) : State :=
  { s with commands := BitVec.ofNat 64 (w % 2 ^ nbits) :: s.commands }

end Sys2Proof.Machine
end

