-- ==== Sys2Proof/Machine/HostSide.lean ====
section
/-! DEFINITION. What the host composes out of commands: the pseudo-commands CODE_LOAD, CONSUME and RDBITS_W
(spec/30_encoding.md R126, spec/40_bitreader.md R152), and the canonical value assignment that defines the
Code it hands over (spec/00_scope.md R9). HDE executes none of these itself. -/

namespace Sys2Proof.Machine

open Sys2Proof.Config

/-- count[L]: how many symbols have length L, with count[0] treated as 0 (spec/00_scope.md R9). -/
def lengthCount (lens : List Nat) (l : Nat) : Nat := if l = 0 then 0 else lens.count l

/-- next[L] before any symbol is assigned: `next[L] = (next[L-1] + count[L-1]) << 1`, next[0] = 0
(spec/00_scope.md R9). -/
def firstValue (lens : List Nat) : Nat → Nat
  | 0 => 0
  | l + 1 => (firstValue lens l + lengthCount lens l) <<< 1

/-- The canonical value of symbol `sym`: `next[len]++` over the symbols in increasing order
(spec/00_scope.md R9). A symbol of length 0 has value 0. -/
def canonicalValue (lens : List Nat) (sym : Nat) : Nat :=
  match lens.getD sym 0 with
  | 0 => 0
  | l + 1 => firstValue lens (l + 1) + (lens.take sym).count (l + 1)

/-- The CODE_WR of one symbol of CODE_LOAD (spec/30_encoding.md R126). DESIGN CHOICE (log 23): a symbol, length or value
that its operand field cannot hold is cut to the field's low bits. -/
def codeLoadOne (lens : List Nat) (sym : Nat) : Instr :=
  .codeWr (BitVec.ofNat 20 sym) (BitVec.ofNat 5 (lens.getD sym 0)) (BitVec.ofNat 20 (canonicalValue lens sym))

/-- CODE_LOAD [l0, l1, ...] (spec/30_encoding.md R126). DESIGN CHOICE (log 23): an alphabet size of 2^21 or more, which
the operand cannot hold, is cut to its low 21 bits. -/
def codeLoad (lens : List Nat) : List Instr :=
  .codeClr (BitVec.ofNat 21 lens.length)
    :: ((List.range lens.length).filter fun s => decide (lens.getD s 0 ≠ 0)).map (codeLoadOne lens)

/-- CONSUME n: READBITS n with the result ignored (spec/30_encoding.md R126). -/
def consumeCommand (n : BitVec 4) : Instr := .readbits n

/-- Issue commands in order, each after the response to the one before (spec/30_encoding.md R101). -/
def issueAll : List Instr → State → Host.Outcome State Fault Refusal
  | [], s => .next s
  | i :: rest, s =>
    match exec i s with
    | .next s' => issueAll rest s'
    | .fault f => .fault f
    | .refused r => .refused r

/-- The code of the last response, 63:56 (spec/30_encoding.md R106). -/
def responseCode (s : State) : BitVec 8 := (s.response.getD 0).extractLsb' 56 8

/-- The result of the last response, 55:0 (spec/30_encoding.md R106). -/
def responseResult (s : State) : Word56 := (s.response.getD 0).extractLsb' 0 56

/-- What a host-side composition ends in: a response code and a value, and the machine then. -/
structure HostResult where
  code  : BitVec 8
  value : Nat
  state : State
  deriving DecidableEq, Repr

/-- The loop of RDBITS_W with `left` bits still to be read, `got` read so far into `v`; the first argument
bounds the turns, each of which reads at least one bit (spec/40_bitreader.md R152). -/
def rdbitsLoop : Nat → (left got v : Nat) → State → Host.Outcome HostResult Fault Refusal
  | turns + 1, left, got, v, s =>
    if left = 0 then .next ⟨okCode, v, s⟩
    else
      match exec (.readbits (BitVec.ofNat 4 (min 8 left))) s with
      | .next s' =>
        if responseCode s' ≠ okCode then .next ⟨responseCode s', 0, s'⟩
        else
          rdbitsLoop turns (left - min 8 left) (got + min 8 left)
            (v ||| ((responseResult s').toNat <<< got)) s'
      | .fault f => .fault f
      | .refused r => .refused r
  | 0, _, _, v, s => .next ⟨okCode, v, s⟩

/-- RDBITS_W n, 1 ≤ n ≤ 32: the composition of up to four READBITS (spec/40_bitreader.md R152). -/
def rdbitsW (n : Nat) (s : State) : Host.Outcome HostResult Fault Refusal := rdbitsLoop (n + 1) n 0 0 s

/-- RDBITS_W of each width in order, with the code and value of each (spec/40_bitreader.md R153). -/
def rdbitsAll : List Nat → State → Host.Outcome (List (BitVec 8 × Nat) × State) Fault Refusal
  | [], s => .next ([], s)
  | n :: rest, s =>
    match rdbitsW n s with
    | .next r =>
      match rdbitsAll rest r.state with
      | .next (rs, t) => .next ((r.code, r.value) :: rs, t)
      | .fault f => .fault f
      | .refused x => .refused x
    | .fault f => .fault f
    | .refused x => .refused x

end Sys2Proof.Machine
end

