-- ==== Sys2Proof/Machine/Stream.lean ====
section
/-! DEFINITION. The encoded stream: its bits (spec/20_memory.md R62), the orientation of a codeword in it
(R64), and the bit-by-bit prefix walk the table-driven decoder is compared with (spec/42_decode.md R211). -/

namespace Sys2Proof.Machine

open Sys2Proof.Config

/-- Stream bit k: bit (k mod 8) of source byte S[k div 8] (spec/20_memory.md R62). DESIGN CHOICE (log 24): past the end
of the source, where R62 and spec/42_decode.md R211 define no bit, it reads as 0; no statement rests on such a bit. -/
def streamBit (bytes : List Byte) (k : Nat) : Bool := (bytes.getD (k / 8) 0).getLsbD (k % 8)

/-- The `n` stream bits from position `k` on, first bit first. -/
def streamBits (bytes : List Byte) (k n : Nat) : List Bool := (List.range n).map fun i => streamBit bytes (k + i)

/-- The codeword of a BitCode as it stands in the stream, most significant bit of `value` first
(spec/20_memory.md R64). -/
def codewordBits (c : CodeEntry) : List Bool :=
  (List.range c.len.toNat).map fun i => c.value.getLsbD (c.len.toNat - 1 - i)

/-- The `n` low bits of a value as they stand in the stream, least significant first
(spec/20_memory.md R63). -/
def valueBits (value n : Nat) : List Bool := (List.range n).map fun i => value.testBit i

/-- The table index formed from the `avail` stream bits at position `k`: the next stream bit is its most
significant bit, and the low 8 - avail bits are 0 (spec/30_encoding.md R118, spec/42_decode.md R202). -/
def streamIndex (bytes : List Byte) (k avail : Nat) : Nat :=
  ((List.range avail).map fun i => (streamBit bytes (k + i)).toNat * 2 ^ (7 - i)).sum

/-- What the bit-by-bit walk answers, and how many bits it took (spec/42_decode.md R211). -/
inductive Walked where
  | sym (s : Nat) (used : Nat)
  | ended
  | unexpectedEOF (used : Nat)
  | invalidCode (used : Nat)
  deriving DecidableEq, Repr

/-- The first symbol below `nsym` whose code is (w, l) (spec/42_decode.md R211). -/
def symbolWith (code : Nat → CodeEntry) (nsym w l : Nat) : Option Nat :=
  (List.range nsym).find? fun s =>
    decide ((code s).len.toNat = l) && decide ((code s).value.toNat = w)

/-- Some symbol's code has w as its first l bits (spec/42_decode.md R211). -/
def someCodeStarts (code : Nat → CodeEntry) (nsym w l : Nat) : Bool :=
  (List.range nsym).any fun s =>
    decide (l ≤ (code s).len.toNat) && decide ((code s).value.toNat >>> ((code s).len.toNat - l) = w)

/-- WalkOne from the `l` bits with value `w` already taken, over the budgeted bits that remain
(spec/42_decode.md R211). -/
def walkFrom (code : Nat → CodeEntry) (nsym : Nat) : List Bool → Nat → Nat → Walked
  | [], _, l => if l = 0 then .ended else .unexpectedEOF l
  | b :: bs, w, l =>
    let w' := 2 * w + b.toNat
    match symbolWith code nsym w' (l + 1) with
    | some s => .sym s (l + 1)
    | none =>
      if someCodeStarts code nsym w' (l + 1) then walkFrom code nsym bs w' (l + 1)
      else .invalidCode (l + 1)

/-- WalkOne on a list of budgeted bits (spec/42_decode.md R211). -/
def walkOne (code : Nat → CodeEntry) (nsym : Nat) (bits : List Bool) : Walked := walkFrom code nsym bits 0 0

/-- The budgeted bits still to be consumed (spec/10_state.md R28). -/
def budgetedBits (s : State) : List Bool := streamBits s.src.bytes (bitpos s) s.remaining.toNat

end Sys2Proof.Machine
end

