-- ==== Sys2Proof/Safety.lean ====
section
/-! DEFINITION. What counts as a sound state of HDE, in the terms the statements use: the invariants the spec
states of the reader (spec/10_state.md R23, R24, R26), of the Code (R38), of the tables (R33, R35, R39,
spec/30_encoding.md R115) and of the latch (R32); the prefix property (spec/41_table_build.md R172), what it
is for a table to be the table of a Code (R179), and the relation of chunking independence
(spec/40_bitreader.md R149). -/

namespace Sys2Proof

open Sys2Proof.Config Sys2Proof.Machine

/-! ### The reader -/

/-- Rule R24 (a) to (e) of spec/10_state.md, whenever a reader is bound; NACC ≤ 39 is spec/40_bitreader.md
R146. -/
structure ReaderBounds (s : State) : Prop where
  nacc_le : s.nacc.toNat ≤ 39
  acc_above : ∀ j, s.nacc.toNat ≤ j → s.acc.getLsbD j = false
  fetched : 8 * s.srcpos.toNat + s.remaining.toNat = s.budget0.toNat + s.nacc.toNat
  pending_le : s.nacc.toNat ≤ s.remaining.toNat + 7
  srcpos_le : 8 * s.srcpos.toNat ≤ s.budget0.toNat + 7
  remaining_le : s.remaining.toNat ≤ s.budget0.toNat
  outcnt_le : s.outcnt.toNat + s.remaining.toNat ≤ s.budget0.toNat

/-- Rule R23 of spec/10_state.md: the pending bits of ACC are the stream bits from BITPOS on, and no more
bytes were taken than the source has. -/
structure PendingAreStreamBits (s : State) : Prop where
  taken_le : s.srcpos.toNat ≤ s.src.bytes.length
  layout : ∀ j, j < s.nacc.toNat → s.acc.getLsbD j = streamBit s.src.bytes (bitpos s + j)

/-- Rule R26 of spec/10_state.md: with no reader bound, every register of the reader and decoder still holds
its reset value. -/
structure ReaderAtReset (s : State) : Prop where
  acc : s.acc = 0
  nacc : s.nacc = 0
  remaining : s.remaining = 0
  budget0 : s.budget0 = 0
  srcpos : s.srcpos = 0
  outcnt : s.outcnt = 0
  cur : s.cur = 0
  level : s.level = 0
  rerr : s.rerr = 0

/-- The legal values of RERR (spec/10_state.md R32). -/
def rerrLegal (r : BitVec 8) : Prop := r = 0x00 ∨ r = 0x40 ∨ r = 0x41 ∨ r = 0x42

/-- The invariant of the reader and decoder. -/
structure ReaderInv (s : State) : Prop where
  bounds : s.rstate = .active → ReaderBounds s
  stream : s.rstate = .active → PendingAreStreamBits s
  atReset : s.rstate = .unbound → ReaderAtReset s
  latch : rerrLegal s.rerr

/-- The values rule R42 of spec/10_state.md lists for the state after reset. -/
structure ResetValues (s : State) : Prop where
  reader : ReaderAtReset s
  terr : s.terr = 0
  nsym : s.nsym = 0
  ntab : s.ntab = 0
  rstate : s.rstate = .unbound
  tstate : s.tstate = .notBuilt
  status : status s = 0
  id : readRegister 15 s = some 0x48444501
  out : s.out = []

/-! ### The Code and the tables -/

/-- A CODE element is legal: `len ≤ 20` and `value < 2^len` (spec/10_state.md R38). -/
def codeEntryLegal (c : CodeEntry) : Prop := c.len.toNat ≤ maxLen ∧ c.value.toNat < 2 ^ c.len.toNat

/-- The invariant of CODE memory (spec/10_state.md R34, R38): canonical form, nothing listed at or above NSYM,
every element legal. -/
structure CodeInv (s : State) : Prop where
  nsym_le : s.nsym.toNat ≤ maxSym
  wf : Memory.wf CodeEntry.unused s.code
  below : ∀ c ∈ s.code, c.1 < s.nsym.toNat
  legal : ∀ c ∈ s.code, codeEntryLegal c.2

/-- A listed TABLE element at address `a` is one of the entries that are ever written: SYMBOL with len in 1..8
and payload < NSYM, or CONT with len = 8 and 1 ≤ payload < NTAB, not to its own table
(spec/30_encoding.md R115). -/
def tableEntryLegal (nsym ntab a : Nat) (e : Entry) : Prop :=
  match e.kind with
  | .empty => False
  | .symbol => 1 ≤ e.len.toNat ∧ e.len.toNat ≤ 8 ∧ e.payload.toNat < nsym
  | .cont => e.len.toNat = 8 ∧ 1 ≤ e.payload.toNat ∧ e.payload.toNat < ntab ∧ e.payload.toNat ≠ a / tableSize

/-- A TABLE memory holds only legal entries, in canonical form, below its NTAB tables
(spec/10_state.md R39, spec/30_encoding.md R115). -/
structure TablesLegal (nsym ntab : Nat) (t : Memory Entry) : Prop where
  wf : Memory.wf Entry.empty t
  below : ∀ c ∈ t, c.1 < tableSize * ntab
  legal : ∀ c ∈ t, tableEntryLegal nsym ntab c.1 c.2

/-- The invariant of TSTATE, TERR, NTAB and TABLE (spec/10_state.md R33, R35, R39). In every TSTATE but VALID
no table can be read and none is listed (log 7). -/
def TableInv (s : State) : Prop :=
  match s.tstate with
  | .notBuilt => s.terr = 0 ∧ s.ntab = 0 ∧ s.table = []
  | .failed => (s.terr = 0x50 ∨ s.terr = 0x51) ∧ 1 ≤ s.ntab.toNat ∧ s.ntab.toNat ≤ ntabMax s ∧ s.table = []
  | .valid =>
    s.terr = 0 ∧ 1 ≤ s.ntab.toNat ∧ s.ntab.toNat ≤ ntabMax s ∧ TablesLegal s.nsym.toNat s.ntab.toNat s.table

/-- The invariant every step keeps. -/
structure Inv (s : State) : Prop where
  reader : ReaderInv s
  code : CodeInv s
  tables : TableInv s

/-! ### The table of a Code -/

/-- `C[s]` of a state (spec/00_scope.md R12). -/
def codeOf (s : State) (sym : Nat) : CodeEntry := codeRead s.code sym

/-- One code equals or is a bit-prefix of the other (spec/41_table_build.md R172, R177): the first `len_a` bits
of the longer are the shorter. -/
def collide (a b : CodeEntry) : Prop :=
  (a.len.toNat ≤ b.len.toNat ∧ b.value.toNat >>> (b.len.toNat - a.len.toNat) = a.value.toNat) ∨
  (b.len.toNat ≤ a.len.toNat ∧ a.value.toNat >>> (a.len.toNat - b.len.toNat) = b.value.toNat)

/-- The entries with length > 0 below `n` form a prefix code (spec/41_table_build.md R172). -/
def PrefixFreeBelow (code : Nat → CodeEntry) (n : Nat) : Prop :=
  ∀ a b, a < b → b < n → (code a).len ≠ 0 → (code b).len ≠ 0 → ¬ collide (code a) (code b)

/-- The 8-bit chunks of a code before its last 1 to 8 bits, first chunk first
(spec/30_encoding.md R119). -/
def codeChunks (c : CodeEntry) : List Nat :=
  (List.range (chunksBefore c.len.toNat)).map fun k => chunk c.value.toNat (c.len.toNat - 8 * k)

/-- How many bits a code has in its last level, 1 to 8 (spec/30_encoding.md R119). -/
def lastBits (c : CodeEntry) : Nat := c.len.toNat - 8 * chunksBefore c.len.toNat

/-- The slots of its last level a code fills: those whose high `rem` bits equal its last `rem` bits
(spec/00_scope.md R17, spec/41_table_build.md R175). -/
def fillsSlot (c : CodeEntry) (i : Nat) : Prop := i >>> (8 - lastBits c) = lowBits (lastBits c) c.value.toNat

/-- The entry reached from table `h` by following the given indices through CONT entries; none where an entry
before the last is no CONT (spec/41_table_build.md R179). -/
def entryAt (t : Memory Entry) : Nat → List Nat → Option Entry
  | _, [] => none
  | h, [i] => some (tableRead t h i)
  | h, i :: j :: rest =>
    match (tableRead t h i).kind with
    | .cont => entryAt t (tableRead t h i).payload.toNat (j :: rest)
    | .symbol => none
    | .empty => none

/-- The table is the table of the Code: rule R179 (a) and (b) of spec/41_table_build.md. -/
structure TableOfCode (code : Nat → CodeEntry) (nsym : Nat) (t : Memory Entry) : Prop where
  resolves : ∀ sym i, sym < nsym → (code sym).len ≠ 0 → i < tableSize → fillsSlot (code sym) i →
    entryAt t 0 (codeChunks (code sym) ++ [i]) = some (symbolEntry (lastBits (code sym)) sym)
  symbolOnly : ∀ path i e, (∀ j ∈ path, j < tableSize) → i < tableSize →
    entryAt t 0 (path ++ [i]) = some e → e.kind = .symbol →
    ∃ sym, sym < nsym ∧ (code sym).len ≠ 0 ∧ codeChunks (code sym) = path ∧ fillsSlot (code sym) i ∧
      e = symbolEntry (lastBits (code sym)) sym
  contOnly : ∀ path i e, (∀ j ∈ path, j < tableSize) → i < tableSize →
    entryAt t 0 (path ++ [i]) = some e → e.kind = .cont →
    ∃ sym, sym < nsym ∧ (code sym).len ≠ 0 ∧ (path ++ [i]) <+: codeChunks (code sym)
  contMade : ∀ sym path, sym < nsym → (code sym).len ≠ 0 → path ≠ [] → path <+: codeChunks (code sym) →
    ∃ e, entryAt t 0 path = some e ∧ e.kind = .cont

/-- The table always corresponds to the Code in CODE memory whenever it is VALID (spec/20_memory.md R73). -/
def TableMatchesCode (s : State) : Prop :=
  s.tstate = .valid → TableOfCode (codeOf s) s.nsym.toNat s.table

/-- A Code has at most one symbol for each codeword when its table is built: TBL_BUILD succeeds only on a
prefix code (spec/41_table_build.md R177). -/
def ValidMeansPrefixFree (s : State) : Prop :=
  s.tstate = .valid → PrefixFreeBelow (codeOf s) s.nsym.toNat

/-! ### Decode faults -/

/-- DEC_SYM, and DEC_RUN with a quota, raise the fault with the given code at the symbol they start: the answer is that
fault with result 0, RERR latches it, the given number of bits stays consumed, and nothing is emitted
(spec/60_exceptions.md R254, R255). -/
def DecodesFault (s : State) (code : BitVec 8) (consumed : Nat) : Prop :=
  ∃ t, exec .decSym s = .next t ∧ (∀ quota : Word56, quota ≠ 0 → exec (.decRun quota) s = .next t) ∧
    t.rerr = code ∧ t.response = some (responseWord code 0) ∧
    t.remaining.toNat + consumed = s.remaining.toNat ∧ t.out = s.out ∧ t.outcnt = s.outcnt

/-! ### Illegal words -/

/-- An illegal command word, said by its bits (spec/30_encoding.md R103, R108). -/
def IllegalWord (w : Word) : Prop :=
  let opcode := w.toNat / 2 ^ 56
  let operand := w.toNat % 2 ^ 56
  opcode ∉ [0x01, 0x02, 0x10, 0x11, 0x12, 0x13, 0x20, 0x21, 0x22, 0x30, 0x31] ∨
  (opcode ∈ [0x01, 0x12, 0x22, 0x30] ∧ operand ≠ 0) ∨
  (opcode ∈ [0x02, 0x21] ∧ operand ≥ 2 ^ 4) ∨
  (opcode = 0x10 ∧ operand ≥ 2 ^ 21) ∨
  (opcode = 0x11 ∧ operand ≥ 2 ^ 45) ∨
  (opcode = 0x13 ∧ operand ≥ 2 ^ 25) ∨
  (opcode = 0x02 ∧ 9 ≤ operand % 2 ^ 4 ∧ operand % 2 ^ 4 ≤ 14) ∨
  (opcode = 0x21 ∧ (operand % 2 ^ 4 = 0 ∨ 9 ≤ operand % 2 ^ 4))

/-! ### Independence of the chunking -/

/-- Two states that differ at most in how the source split its answers: in ACC, NACC, SRCPOS and the choices
themselves (spec/40_bitreader.md R149). CUR and LEVEL are never read between commands (spec/10_state.md R25)
and are the same all the same. -/
def SameButChunking (s t : State) : Prop :=
  ∃ acc nacc srcpos chunks draws,
    t = { s with acc := acc, nacc := nacc, srcpos := srcpos,
                 src := { s.src with chunks := chunks }, draws := draws }

end Sys2Proof
end

