-- ==== Sys2Proof/Certificates/Slice0/Obligations.lean ====
section
/-! DEFINITION. The statements for the provers, each formalising rules of the spec.

How a frame is written: `t = { s with f := t.f, g := t.g }` says that the state after agrees with the state
before in EVERY field but those named.

Where a statement says that a command which may read the source completes, it rests on the assumption that the source
answers every SrcRead, which spec/70_reset_and_hazards.md R304 makes of its model (log 8). -/

open Sys2Proof Sys2Proof.Config Sys2Proof.Machine

/-! ### Encoding and the step -/

/-- Decoding the word of a well-formed command gives the command back, every operand at every value its
encoding admits (spec/30_encoding.md R102 to R105). -/
def Obligations.DecodeOfEncodeIsTheCommand : Prop :=
  ∀ i : Instr, i.wf = true → decode (encode i) = .ok i

/-- A word that decodes is the word of the command it decodes to, which is well-formed: no bit of a legal word
is dropped, and no two words mean the same command (spec/30_encoding.md R102 to R105, R109). -/
def Obligations.EncodeOfDecodeIsTheWord : Prop :=
  ∀ (w : Word) (i : Instr), decode w = .ok i → encode i = w ∧ i.wf = true

/-- Rule R108: an illegal word is answered IllegalCommand with no state change, and every other word decodes to a
well-formed command. -/
def Obligations.IllegalWordsAreRefused : Prop :=
  (∀ (s : State) (w : Word) (rest : List Word), s.commands = w :: rest → IllegalWord w →
    step s = .next { s with commands := rest, response := some 0x7F00000000000000 }) ∧
  (∀ w : Word, ¬ IllegalWord w → ∃ i, decode w = .ok i ∧ i.wf = true)

/-- A step runs the command its word decodes to, after taking the word from the host's list (the list is the
model's own, log 1). -/
def Obligations.StepRunsTheDecodedCommand : Prop :=
  ∀ (s : State) (w : Word) (rest : List Word) (i : Instr), s.commands = w :: rest → decode w = .ok i →
    step s = exec i { s with commands := rest }

/-- With no command to answer, HDE is idle and keeps all state (spec/60_exceptions.md R271). -/
def Obligations.IdleKeepsAllState : Prop :=
  ∀ s : State, s.commands = [] → step s = .next s

/-- Command words of the spec's programs P1 to P6 decode to the commands written beside them
(spec/95_test_vectors.md). -/
def Obligations.SpecWordsDecodeAsListed : Prop :=
  decode 0x0100000000000000 = .ok .reset ∧
  decode 0x0200000000000005 = .ok (.rdreg 5) ∧
  decode 0x1000000000000015 = .ok (.codeClr 21) ∧
  decode 0x110000000A60003E = .ok (.codeWr 5 6 0x3E) ∧
  decode 0x1200000000000000 = .ok .tblBuild ∧
  decode 0x13000000000002F0 = .ok (.tblRd 2 0xF0) ∧
  decode 0x2000000000000043 = .ok (.brInit 67) ∧
  decode 0x2100000000000003 = .ok (.readbits 3) ∧
  decode 0x2200000000000000 = .ok .peek ∧
  decode 0x3000000000000000 = .ok .decSym ∧
  decode 0x3100000000000064 = .ok (.decRun 100)

/-! ### Reset and the registers -/

/-- Rule R42: the state after power-on reset holds every value the rule lists. -/
def Obligations.PowerOnResetValues : Prop := ResetValues State.reset

/-- Rule R230: RESET is accepted in every state, leaves every register at its reset value, OUT empty, and exactly
the state power-on reset leaves, and answers (OK, 0). -/
def Obligations.ResetCommandIsPowerOnReset : Prop :=
  ∀ s : State, ∃ t, exec .reset s = .next t ∧ ResetValues t ∧
    t.response = some (responseWord 0x00 0) ∧
    t = { State.reset with response := t.response, commands := t.commands, sources := t.sources,
                           draws := t.draws, tablesBeyondRoot := t.tablesBeyondRoot }

/-- The model's choice (log 14, no rule's): RESET keeps what is not HDE's own, the words the host has still to issue,
the sources still to come, the free values' counter and NTABMAX, and nothing else of the state before. -/
def Obligations.ResetKeepsWhatIsNotItsOwn : Prop :=
  ∀ s : State, exec .reset s = .next
    { State.reset with response := some (responseWord 0x00 0), commands := s.commands, sources := s.sources,
                       draws := s.draws, tablesBeyondRoot := s.tablesBeyondRoot }

/-- Rule R232: RDREG answers (OK, the register zero-extended) and changes nothing, for every register of rule
R30. -/
def Obligations.RdregReadsEveryRegister : Prop :=
  ∀ (s : State) (reg : BitVec 4) (v : Word56),
    (reg, v) ∈ [(0, (status s).setWidth 56), (1, s.rerr.setWidth 56), (2, s.terr.setWidth 56),
      (3, s.nsym.setWidth 56), (4, s.ntab.setWidth 56), (5, s.remaining), (6, s.srcpos), (7, s.outcnt),
      (8, s.budget0), (15, 0x48444501)] →
    exec (.rdreg reg) s = .next { s with response := some (responseWord 0x00 v) }

/-- RDREG of a reserved register number, and READBITS of a width outside 1..8, answer IllegalCommand and change
nothing (spec/30_encoding.md R108). -/
def Obligations.IllegalFieldsAreRefused : Prop :=
  (∀ (s : State) (reg : BitVec 4), 9 ≤ reg.toNat → reg.toNat ≤ 14 →
    exec (.rdreg reg) s = .next { s with response := some (responseWord 0x7F 0) }) ∧
  (∀ (s : State) (n : BitVec 4), (n.toNat = 0 ∨ 9 ≤ n.toNat) →
    exec (.readbits n) s = .next { s with response := some (responseWord 0x7F 0) })

/-- Rule R31: every bit of STATUS. That TFAULT is also TERR ≠ 0 rests on the invariant. -/
def Obligations.StatusBitsAreTheirFunctions : Prop :=
  ∀ s : State,
    ((status s).getLsbD 0 = true ↔ s.rstate = .active) ∧
    ((status s).getLsbD 1 = true ↔ s.rstate = .active ∧ s.remaining = 0) ∧
    ((status s).getLsbD 2 = true ↔ s.rerr ≠ 0) ∧
    ((status s).getLsbD 3 = true ↔ s.tstate = .valid) ∧
    ((status s).getLsbD 4 = true ↔ s.tstate = .failed) ∧
    (∀ i, 5 ≤ i → (status s).getLsbD i = false) ∧
    (Inv s → ((status s).getLsbD 4 = true ↔ s.terr ≠ 0))

/-! ### Code and table -/

/-- Rule R170: CODE_CLR in every state, for every operand: TooManySymbols with nothing changed above 2^20; else the
new alphabet with every symbol unused, no table, TERR cleared, the reader and OUT untouched, and every decode command
refused from then on (until a build). -/
def Obligations.CodeClrStartsACode : Prop :=
  ∀ (s : State) (nsym : BitVec 21),
    (2 ^ 20 < nsym.toNat →
      exec (.codeClr nsym) s = .next { s with response := some (responseWord 0x7C 0) }) ∧
    (nsym.toNat ≤ 2 ^ 20 → ∃ t, exec (.codeClr nsym) s = .next t ∧
      t.nsym = nsym ∧ (∀ sym, sym < nsym.toNat → codeOf t sym = ⟨0, 0⟩) ∧
      t.tstate = .notBuilt ∧ t.ntab = 0 ∧ t.terr = 0 ∧ t.response = some (responseWord 0x00 0) ∧
      t = { s with nsym := t.nsym, code := t.code, table := t.table, tstate := t.tstate, ntab := t.ntab,
                   terr := t.terr, response := t.response } ∧
      exec .decSym t = .next { t with response := some (responseWord 0x7E 0) } ∧
      ∀ quota, exec (.decRun quota) t = .next { t with response := some (responseWord 0x7E 0) })

/-- Rule R171: CODE_WR in every state with CODE in canonical form, for every operand: the state check, then the
operand check, then one element written and no other. -/
def Obligations.CodeWrWritesOneElement : Prop :=
  ∀ (s : State) (sym : Sym) (len : BitVec 5) (value : BitVec 20), Memory.wf CodeEntry.unused s.code →
    (s.tstate ≠ .notBuilt →
      exec (.codeWr sym len value) s = .next { s with response := some (responseWord 0x7E 0) }) ∧
    (s.tstate = .notBuilt →
      (s.nsym.toNat ≤ sym.toNat ∨ 20 < len.toNat ∨ 2 ^ len.toNat ≤ value.toNat) →
      exec (.codeWr sym len value) s = .next { s with response := some (responseWord 0x7D 0) }) ∧
    (s.tstate = .notBuilt → sym.toNat < s.nsym.toNat → len.toNat ≤ 20 → value.toNat < 2 ^ len.toNat →
      ∃ t, exec (.codeWr sym len value) s = .next t ∧
        codeOf t sym.toNat = ⟨value, len⟩ ∧ (∀ b, b ≠ sym.toNat → codeOf t b = codeOf s b) ∧
        t.response = some (responseWord 0x00 0) ∧
        t = { s with code := t.code, response := t.response })

/-- TBL_BUILD of a Code without a used symbol completes with a root of 256 EMPTY entries
(spec/41_table_build.md R173, corner cases). -/
def Obligations.EmptyCodeBuildsAnEmptyRoot : Prop :=
  ∀ s : State, CodeInv s → s.tstate = .notBuilt → (∀ sym, sym < s.nsym.toNat → (codeOf s sym).len = 0) →
    ∃ t, exec .tblBuild s = .next t ∧ t.ntab = 1 ∧ t.tstate = .valid ∧
      (∀ i, i < 256 → tableRead t.table 0 i = ⟨.empty, 0, 0⟩) ∧
      t.response = some (responseWord 0x00 1) ∧
      t = { s with table := t.table, ntab := t.ntab, tstate := t.tstate, response := t.response }

/-- Rule R177: a build that succeeds had a prefix code; a BadCode names the first symbol whose code collides with
an earlier one; and with the 65793 tables that always suffice (spec/00_scope.md R8) a prefix code builds, and any
other Code is a BadCode. -/
def Obligations.BuildSucceedsIffPrefixFree : Prop :=
  ∀ s : State, CodeInv s → s.tstate = .notBuilt →
    (∀ t, exec .tblBuild s = .next t → t.tstate = .valid → PrefixFreeBelow (codeOf s) s.nsym.toNat) ∧
    (∀ t, exec .tblBuild s = .next t → t.terr = 0x50 → t.tstate = .failed →
      ∃ b, b < s.nsym.toNat ∧ t.response = some (responseWord 0x50 (BitVec.ofNat 56 b)) ∧
        PrefixFreeBelow (codeOf s) b ∧ ¬ PrefixFreeBelow (codeOf s) (b + 1)) ∧
    (65793 ≤ ntabMax s → PrefixFreeBelow (codeOf s) s.nsym.toNat →
      ∃ t, exec .tblBuild s = .next t ∧ t.tstate = .valid ∧ t.terr = s.terr ∧
        t.response = some (responseWord 0x00 (t.ntab.setWidth 56))) ∧
    (65793 ≤ ntabMax s → ¬ PrefixFreeBelow (codeOf s) s.nsym.toNat →
      ∃ t, exec .tblBuild s = .next t ∧ t.tstate = .failed ∧ t.terr = 0x50)

/-- A build that succeeds leaves the table of the Code: every code resolves to its symbol from every slot it
fills, every entry comes from a code, and every other entry is EMPTY (spec/41_table_build.md R179 (a), (b)). -/
def Obligations.BuiltTableIsTheTableOfTheCode : Prop :=
  ∀ s t : State, CodeInv s → s.tstate = .notBuilt → exec .tblBuild s = .next t → t.tstate = .valid →
    TableOfCode (codeOf s) s.nsym.toNat t.table

/-- Rule R115: a built table holds only legal entries, no CONT entry points to the root or to its own table, and
every table other than the root is pointed to by exactly one CONT entry. -/
def Obligations.BuiltTablesAreATree : Prop :=
  ∀ s t : State, CodeInv s → s.tstate = .notBuilt → exec .tblBuild s = .next t → t.tstate = .valid →
    1 ≤ t.ntab.toNat ∧ t.ntab.toNat ≤ ntabMax s ∧ TablesLegal s.nsym.toNat t.ntab.toNat t.table ∧
    (∀ h, 1 ≤ h → h < t.ntab.toNat →
      ∃ a, (Memory.read Entry.empty t.table a).kind = .cont ∧
        (Memory.read Entry.empty t.table a).payload.toNat = h ∧
        ∀ b, (Memory.read Entry.empty t.table b).kind = .cont →
          (Memory.read Entry.empty t.table b).payload.toNat = h → b = a)

/-- The table of a Code has at most three levels, and its third level resolves at most 4 bits
(spec/41_table_build.md R179 (e), spec/42_decode.md R204). -/
def Obligations.TablesHaveAtMostThreeLevels : Prop :=
  ∀ s : State, CodeInv s → s.tstate = .valid → TableMatchesCode s →
    ∀ (path : List Nat) (i : Nat) (e : Entry), (∀ j ∈ path, j < 256) → i < 256 →
      entryAt s.table 0 (path ++ [i]) = some e →
      path.length ≤ 2 ∧ (path.length = 2 → e.kind ≠ .cont ∧ (e.kind = .symbol → e.len.toNat ≤ 4))

/-- A build that needs n tables succeeds with the same table for every NTABMAX ≥ n, and is a TableOverflow for every
NTABMAX below n, whose result is the symbol being inserted: at that NTABMAX the symbols below it build, and those up
to it overflow (spec/41_table_build.md R176). -/
def Obligations.OverflowExactlyWhenTablesRunOut : Prop :=
  ∀ s t : State, CodeInv s → s.tstate = .notBuilt → exec .tblBuild s = .next t → t.tstate = .valid →
    ∀ m : Fin 131072,
      (t.ntab.toNat ≤ m.val + 1 →
        ∃ u, exec .tblBuild { s with tablesBeyondRoot := m } = .next u ∧ u.tstate = .valid ∧
          u.table = t.table ∧ u.ntab = t.ntab) ∧
      (m.val + 1 < t.ntab.toNat →
        ∃ u sym, exec .tblBuild { s with tablesBeyondRoot := m } = .next u ∧ u.tstate = .failed ∧
          u.terr = 0x51 ∧ sym < s.nsym.toNat ∧
          u.response = some (responseWord 0x51 (BitVec.ofNat 56 sym)) ∧
          (∃ v, exec .tblBuild { s with tablesBeyondRoot := m, nsym := BitVec.ofNat 21 sym } = .next v ∧
            v.tstate = .valid) ∧
          (∃ v, exec .tblBuild { s with tablesBeyondRoot := m, nsym := BitVec.ofNat 21 (sym + 1) } = .next v ∧
            v.tstate = .failed ∧ v.terr = 0x51))

/-- After a failed build: TERR is the fault's code, which the response carries with a symbol, NTAB is within 1..NTABMAX whatever the free value, the reader,
RERR, OUT and the Code are untouched, TBL_RD and the decode commands are refused, and CODE_CLR leads out
(spec/41_table_build.md R178, spec/60_exceptions.md R262). -/
def Obligations.FailedBuildIsContained : Prop :=
  ∀ s t : State, s.tstate = .notBuilt → exec .tblBuild s = .next t → t.tstate ≠ .valid →
    t.tstate = .failed ∧ (t.terr = 0x50 ∨ t.terr = 0x51) ∧
    (∃ sym : Sym, t.response = some (responseWord t.terr (sym.setWidth 56))) ∧ 1 ≤ t.ntab.toNat ∧ t.ntab.toNat ≤ ntabMax s ∧
    t = { s with tstate := t.tstate, terr := t.terr, ntab := t.ntab, table := t.table, draws := t.draws,
                 response := t.response } ∧
    (∀ handle idx, exec (.tblRd handle idx) t = .next { t with response := some (responseWord 0x7E 0) }) ∧
    exec .decSym t = .next { t with response := some (responseWord 0x7E 0) } ∧
    (∀ quota, exec (.decRun quota) t = .next { t with response := some (responseWord 0x7E 0) }) ∧
    (∀ nsym : BitVec 21, nsym.toNat ≤ 2 ^ 20 →
      ∃ u, exec (.codeClr nsym) t = .next u ∧ u.tstate = .notBuilt ∧ u.terr = 0)

/-- Rule R180: TBL_RD of an existing entry answers its entry word, kind in 1:0, len in 5:2, payload in 25:6, and
changes nothing; a handle outside the tables is a BadOperand; without a VALID table it is a BadState. -/
def Obligations.TblRdReadsOneEntry : Prop :=
  ∀ (s : State) (handle : Handle) (idx : BitVec 8),
    (s.tstate ≠ .valid →
      exec (.tblRd handle idx) s = .next { s with response := some (responseWord 0x7E 0) }) ∧
    (s.tstate = .valid → s.ntab.toNat ≤ handle.toNat →
      exec (.tblRd handle idx) s = .next { s with response := some (responseWord 0x7D 0) }) ∧
    (s.tstate = .valid → handle.toNat < s.ntab.toNat → ∃ v : Word56,
      exec (.tblRd handle idx) s = .next { s with response := some (responseWord 0x00 v) } ∧
      v.toNat = (match (tableRead s.table handle.toNat idx.toNat).kind with
          | .empty => 0
          | .symbol => 1
          | .cont => 2)
        + 4 * (tableRead s.table handle.toNat idx.toNat).len.toNat
        + 64 * (tableRead s.table handle.toNat idx.toNat).payload.toNat)

/-- Rule R256: every cause of BadState, each with no state change. READBITS of an illegal width is an illegal word
before that (spec/60_exceptions.md R259). -/
def Obligations.BadStateCauses : Prop :=
  ∀ s : State,
    (s.tstate ≠ .notBuilt →
      (∀ sym len value,
        exec (.codeWr sym len value) s = .next { s with response := some (responseWord 0x7E 0) }) ∧
      exec .tblBuild s = .next { s with response := some (responseWord 0x7E 0) }) ∧
    (s.tstate ≠ .valid →
      ∀ handle idx, exec (.tblRd handle idx) s = .next { s with response := some (responseWord 0x7E 0) }) ∧
    (s.rstate = .unbound →
      (∀ n : BitVec 4, 1 ≤ n.toNat → n.toNat ≤ 8 →
        exec (.readbits n) s = .next { s with response := some (responseWord 0x7E 0) }) ∧
      exec .peek s = .next { s with response := some (responseWord 0x7E 0) }) ∧
    (s.tstate ≠ .valid ∨ s.rstate = .unbound →
      exec .decSym s = .next { s with response := some (responseWord 0x7E 0) } ∧
      ∀ quota, exec (.decRun quota) s = .next { s with response := some (responseWord 0x7E 0) })

/-! ### The reader -/

/-- Rule R141: BR_INIT is accepted in every state, writes every reader and decoder register as listed, binds the
source the environment supplies, and touches neither CODE nor TABLE nor OUT. -/
def Obligations.BrInitBindsAReader : Prop :=
  ∀ (s : State) (budget : Word56), ∃ t, exec (.brInit budget) s = .next t ∧
    t.acc = 0 ∧ t.nacc = 0 ∧ t.remaining = budget ∧ t.budget0 = budget ∧ t.srcpos = 0 ∧ t.outcnt = 0 ∧
    t.rerr = 0 ∧ t.rstate = .active ∧ t.cur = 0 ∧ t.level = 0 ∧ t.response = some (responseWord 0x00 0) ∧
    (∀ src rest, s.sources = src :: rest → t.src = src ∧ t.sources = rest) ∧
    t = { s with acc := t.acc, nacc := t.nacc, remaining := t.remaining, budget0 := t.budget0,
                 srcpos := t.srcpos, outcnt := t.outcnt, rerr := t.rerr, rstate := t.rstate, cur := t.cur,
                 level := t.level, src := t.src, sources := t.sources, draws := t.draws,
                 response := t.response }

/-- READBITS n of bits that exist completes with the next n stream bits, first bit in bit 0, consumes exactly them,
and changes only the reader's registers (spec/40_bitreader.md R143, spec/20_memory.md R63). -/
def Obligations.ReadbitsReturnsTheNextStreamBits : Prop :=
  ∀ (s : State) (n : BitVec 4), Inv s → s.rstate = .active → s.rerr = 0 → 1 ≤ n.toNat → n.toNat ≤ 8 →
    n.toNat ≤ s.remaining.toNat → bitpos s + n.toNat ≤ 8 * s.src.bytes.length →
    ∃ (t : State) (v : Word56), exec (.readbits n) s = .next t ∧ t.response = some (responseWord 0x00 v) ∧
      (∀ i, v.getLsbD i = (decide (i < n.toNat) && streamBit s.src.bytes (bitpos s + i))) ∧
      t.remaining.toNat = s.remaining.toNat - n.toNat ∧ bitpos t = bitpos s + n.toNat ∧
      t = { s with acc := t.acc, nacc := t.nacc, remaining := t.remaining, srcpos := t.srcpos,
                   src := { s.src with chunks := t.src.chunks }, draws := t.draws, response := t.response }

/-- Rule R144: the entry checks come first, then the budget, then the source. With fewer than n bits in the budget
READBITS n is BadState or the latched fault where the entry checks say so, and else UnexpectedEOF, before the source
is touched: no register changes except RERR. -/
def Obligations.ReadbitsOverBudgetTouchesNothing : Prop :=
  ∀ (s : State) (n : BitVec 4), 1 ≤ n.toNat → n.toNat ≤ 8 → s.remaining.toNat < n.toNat →
    (s.rstate = .unbound →
      exec (.readbits n) s = .next { s with response := some (responseWord 0x7E 0) }) ∧
    (s.rstate = .active → s.rerr ≠ 0 →
      exec (.readbits n) s = .next { s with response := some (responseWord s.rerr 0) }) ∧
    (s.rstate = .active → s.rerr = 0 →
      exec (.readbits n) s = .next { s with rerr := 0x40, response := some (responseWord 0x40 0) })

/-- A source that has not the bits the budget promises makes READBITS, PEEK and, at a symbol's first probe, DEC_SYM and
DEC_RUN fault, with UnexpectedEOF where it ends and SourceError where it fails, before any other fault of the probe;
nothing is consumed or emitted and RERR latches the fault. CUR and LEVEL are left free
(spec/40_bitreader.md R145, R150, spec/42_decode.md R203, spec/60_exceptions.md R252 (b), R254, R255, R259). -/
def Obligations.SourceEndingUnderBudgetFaults : Prop :=
  ∀ (s : State) (code : BitVec 8), Inv s → s.rstate = .active → s.rerr = 0 →
    (s.src.ending = .eos ∧ code = 0x40 ∨ s.src.ending = .err ∧ code = 0x41) →
    (∀ n : BitVec 4, 1 ≤ n.toNat → n.toNat ≤ 8 → n.toNat ≤ s.remaining.toNat →
      8 * s.src.bytes.length < bitpos s + n.toNat →
      exec (.readbits n) s = .next { s with rerr := code, response := some (responseWord code 0) }) ∧
    (s.remaining ≠ 0 → 8 * s.src.bytes.length < bitpos s + min 8 s.remaining.toNat →
      exec .peek s = .next { s with rerr := code, response := some (responseWord code 0) } ∧
      (s.tstate = .valid → ∃ t, exec .decSym s = .next t ∧
        (∀ quota : Word56, quota ≠ 0 → exec (.decRun quota) s = .next t) ∧
        t = { s with cur := t.cur, level := t.level, rerr := code, response := some (responseWord code 0) }))

/-- PEEK of bits that exist completes with the next min(8, REMAINING) stream bits and their count, never a bit
beyond the budget, and consumes nothing (spec/40_bitreader.md R150, R151). -/
def Obligations.PeekShowsTheNextStreamBits : Prop :=
  ∀ s : State, Inv s → s.rstate = .active → s.rerr = 0 → s.remaining ≠ 0 →
    bitpos s + min 8 s.remaining.toNat ≤ 8 * s.src.bytes.length →
    ∃ (t : State) (p : BitVec 8), exec .peek s = .next t ∧
      t.response = some (responseWord 0x00 (BitVec.ofNat 56 (256 * min 8 s.remaining.toNat + p.toNat))) ∧
      (∀ i, p.getLsbD i
        = (decide (i < min 8 s.remaining.toNat) && streamBit s.src.bytes (bitpos s + i))) ∧
      bitpos t = bitpos s ∧
      t = { s with acc := t.acc, nacc := t.nacc, srcpos := t.srcpos,
                   src := { s.src with chunks := t.src.chunks }, draws := t.draws, response := t.response }

/-- Rule R154: after the budget is exhausted PEEK and DEC_SYM answer EOF, DEC_RUN with a quota answers EOF with
count 0, READBITS faults; nothing is consumed or emitted; at most 7 bits are still pending. CUR and LEVEL, of which the
rule does not speak, are left free. -/
def Obligations.AfterTheBudgetIsExhausted : Prop :=
  ∀ s : State, s.rstate = .active → s.rerr = 0 → s.remaining = 0 →
    exec .peek s = .next { s with response := some (responseWord 0x01 0) } ∧
    (s.tstate = .valid → ∃ t, exec .decSym s = .next t ∧
      (∀ quota : Word56, quota ≠ 0 → exec (.decRun quota) s = .next t) ∧
      t = { s with cur := t.cur, level := t.level, response := some (responseWord 0x01 0) }) ∧
    (∀ n : BitVec 4, 1 ≤ n.toNat → n.toNat ≤ 8 →
      exec (.readbits n) s = .next { s with rerr := 0x40, response := some (responseWord 0x40 0) }) ∧
    (Inv s → s.nacc.toNat ≤ 7)

/-- Rule R142: the entry checks in their order: no reader bound is BadState, then a latched fault is returned with
result 0; neither changes any state. -/
def Obligations.LatchedFaultMakesReadsNoOps : Prop :=
  ∀ s : State,
    (s.rstate = .unbound → ∀ n : BitVec 4, 1 ≤ n.toNat → n.toNat ≤ 8 →
      exec (.readbits n) s = .next { s with response := some (responseWord 0x7E 0) } ∧
      exec .peek s = .next { s with response := some (responseWord 0x7E 0) } ∧
      exec .decSym s = .next { s with response := some (responseWord 0x7E 0) } ∧
      ∀ quota, exec (.decRun quota) s = .next { s with response := some (responseWord 0x7E 0) }) ∧
    (s.rstate = .active → s.rerr ≠ 0 → ∀ n : BitVec 4, 1 ≤ n.toNat → n.toNat ≤ 8 →
      exec (.readbits n) s = .next { s with response := some (responseWord s.rerr 0) } ∧
      exec .peek s = .next { s with response := some (responseWord s.rerr 0) } ∧
      (s.tstate = .valid →
        exec .decSym s = .next { s with response := some (responseWord s.rerr 0) } ∧
        ∀ quota, exec (.decRun quota) s = .next { s with response := some (responseWord s.rerr 0) }))

/-- Two successive reads of n1 and n2 bits carry the same bits as one read of n1 + n2 bits
(spec/20_memory.md R63). -/
def Obligations.TwoReadsAreOneRead : Prop :=
  ∀ (s t1 t2 t : State) (n1 n2 n : BitVec 4), Inv s → s.rstate = .active → s.rerr = 0 →
    1 ≤ n1.toNat → 1 ≤ n2.toNat → n.toNat = n1.toNat + n2.toNat → n.toNat ≤ 8 →
    n.toNat ≤ s.remaining.toNat → bitpos s + n.toNat ≤ 8 * s.src.bytes.length →
    exec (.readbits n1) s = .next t1 → exec (.readbits n2) t1 = .next t2 → exec (.readbits n) s = .next t →
    responseResult t = responseResult t1 ||| (responseResult t2 <<< n1.toNat) ∧
    t.remaining = t2.remaining

/-- Rule R153: values of 1 to 32 bits written least significant bit first read back in order through RDBITS_W,
with the budget exactly used up, and one more READBITS faults. -/
def Obligations.WrittenValuesReadBack : Prop :=
  ∀ (s : State) (pairs : List (Nat × Nat)), Inv s → s.rstate = .active → s.rerr = 0 →
    (∀ p ∈ pairs, 1 ≤ p.2 ∧ p.2 ≤ 32 ∧ p.1 < 2 ^ p.2) →
    budgetedBits s = (pairs.map fun p => valueBits p.1 p.2).flatten →
    s.budget0.toNat ≤ 8 * s.src.bytes.length →
    ∃ t, rdbitsAll (pairs.map fun p => p.2) s = .next (pairs.map fun p => (0x00, p.1), t) ∧
      t.remaining = 0 ∧ t.rerr = 0 ∧
      ∀ n : BitVec 4, 1 ≤ n.toNat → n.toNat ≤ 8 →
        exec (.readbits n) t = .next { t with rerr := 0x40, response := some (responseWord 0x40 0) }

/-! ### The decoder -/

/-- Rule R211: on the table of its Code and a source that has the budget, DecodeOne answers what the bit-by-bit walk
answers, consuming the same bits, but that an InvalidCode with fewer than 8 bits left at the failing probe is an
UnexpectedEOF; and whatever the source, it never emits a symbol the walk would not, nor one whose bits the source has
not. A fault leaves consumed the 8 or 16 bits of the continuations followed, and no others
(spec/42_decode.md R206, spec/60_exceptions.md R255). -/
def Obligations.DecodeOneIsThePrefixWalk : Prop :=
  ∀ s : State, Inv s → s.tstate = .valid → TableMatchesCode s → s.rstate = .active →
    (s.budget0.toNat ≤ 8 * s.src.bytes.length →
      match walkOne (codeOf s) s.nsym.toNat (budgetedBits s) with
      | .sym x used => ∃ t, decodeOne s = .done (.sym (BitVec.ofNat 20 x)) t ∧
          t.remaining.toNat + used = s.remaining.toNat
      | .ended => ∃ t, decodeOne s = .done .ended t ∧ t.remaining = s.remaining
      | .unexpectedEOF _ => ∃ t, decodeOne s = .raised .unexpectedEOF t ∧ t.out = s.out ∧
          t.remaining.toNat + 8 * (s.remaining.toNat / 8) = s.remaining.toNat
      | .invalidCode used => ∃ t, decodeOne s =
          .raised (if s.remaining.toNat - 8 * ((used - 1) / 8) < 8 then .unexpectedEOF else .invalidCode) t ∧
          t.out = s.out ∧ t.remaining.toNat + 8 * ((used - 1) / 8) = s.remaining.toNat) ∧
    (∀ x t, decodeOne s = .done (.sym x) t →
      ∃ used, walkOne (codeOf s) s.nsym.toNat (budgetedBits s) = .sym x.toNat used ∧
        t.remaining.toNat + used = s.remaining.toNat ∧ bitpos s + used ≤ 8 * s.src.bytes.length)

/-- DEC_SYM completes on every codeword: it emits the symbol the bit-by-bit walk finds, counts it, answers it, and
consumes its codeword (spec/42_decode.md R203, R208, R211). -/
def Obligations.DecSymEmitsTheNextSymbol : Prop :=
  ∀ (s : State) (x used : Nat), Inv s → s.tstate = .valid → TableMatchesCode s → s.rstate = .active →
    s.rerr = 0 → s.budget0.toNat ≤ 8 * s.src.bytes.length →
    walkOne (codeOf s) s.nsym.toNat (budgetedBits s) = .sym x used →
    ∃ t, exec .decSym s = .next t ∧ t.out = s.out ++ [BitVec.ofNat 20 x] ∧ t.outcnt = s.outcnt + 1 ∧
      t.remaining.toNat + used = s.remaining.toNat ∧ t.rerr = 0 ∧
      t.response = some (responseWord 0x00 (BitVec.ofNat 56 x))

/-- A decode that fails below the root keeps the bits of the continuations it followed consumed and emits nothing, on a
source that has the budget: where the walk runs out of bits in a symbol the whole bytes of the budget that is left are
consumed (V32, budgets 29 and 28), and where it meets no code, those of the levels before the failing probe
(spec/42_decode.md R206, R207, R211, spec/60_exceptions.md R252 (c), (d), R255). -/
def Obligations.FailedDecodesKeepContinuationsConsumed : Prop :=
  ∀ s : State, Inv s → s.tstate = .valid → TableMatchesCode s → s.rstate = .active → s.rerr = 0 →
    s.budget0.toNat ≤ 8 * s.src.bytes.length →
    (∀ used, walkOne (codeOf s) s.nsym.toNat (budgetedBits s) = .unexpectedEOF used →
      DecodesFault s 0x40 (8 * (s.remaining.toNat / 8))) ∧
    (∀ used, walkOne (codeOf s) s.nsym.toNat (budgetedBits s) = .invalidCode used →
      DecodesFault s (if s.remaining.toNat - 8 * ((used - 1) / 8) < 8 then 0x40 else 0x42)
        (8 * ((used - 1) / 8)))

/-- DEC_SYM and DEC_RUN on a source shorter than its budget: only whole probes of 8 bits that the source has are made. A
symbol that ends within them is emitted; a dead end within them is InvalidCode; else the probe after them meets the
end of the source, UnexpectedEOF where it ends and SourceError where it fails, with the continuations followed so
far consumed and nothing emitted (spec/40_bitreader.md R145, spec/42_decode.md R203, R211,
spec/60_exceptions.md R252 (b), R255, R259). -/
def Obligations.DecodesOnAShortSource : Prop :=
  ∀ (s : State) (whole : Nat), Inv s → s.tstate = .valid → TableMatchesCode s → s.rstate = .active → s.rerr = 0 →
    8 * s.src.bytes.length < bitpos s + s.remaining.toNat →
    whole = (8 * s.src.bytes.length - bitpos s) / 8 →
    match walkOne (codeOf s) s.nsym.toNat (streamBits s.src.bytes (bitpos s) (8 * whole)) with
    | .sym x used => ∃ t, exec .decSym s = .next t ∧ t.out = s.out ++ [BitVec.ofNat 20 x] ∧
        t.outcnt = s.outcnt + 1 ∧ t.rerr = 0 ∧ t.remaining.toNat + used = s.remaining.toNat ∧
        t.response = some (responseWord 0x00 (BitVec.ofNat 56 x))
    | .invalidCode used => DecodesFault s 0x42 (8 * ((used - 1) / 8))
    | .ended => DecodesFault s (match s.src.ending with | .eos => 0x40 | .err => 0x41) 0
    | .unexpectedEOF _ => DecodesFault s (match s.src.ending with | .eos => 0x40 | .err => 0x41) (8 * whole)

/-- Rule R212: DEC_RUN on the codewords of a sequence of used symbols emits exactly the sequence, leaves REMAINING = 0
and RERR = 0, and answers (OK, m) when the quota is m and (EOF, m) when it is greater. -/
def Obligations.EncodedSequenceDecodesBack : Prop :=
  ∀ (s : State) (syms : List Sym) (quota : Word56), Inv s → s.tstate = .valid → TableMatchesCode s →
    s.rstate = .active → s.rerr = 0 → s.budget0.toNat ≤ 8 * s.src.bytes.length →
    (∀ x ∈ syms, x.toNat < s.nsym.toNat ∧ (codeOf s x.toNat).len ≠ 0) →
    budgetedBits s = (syms.map fun x => codewordBits (codeOf s x.toNat)).flatten →
    syms.length ≤ quota.toNat →
    ∃ t, exec (.decRun quota) s = .next t ∧ t.out = s.out ++ syms ∧ t.remaining = 0 ∧ t.rerr = 0 ∧
      t.response = some (responseWord (if syms.length = quota.toNat then 0x00 else 0x01)
        (BitVec.ofNat 56 syms.length))

/-- DEC_RUN is DEC_SYM repeated: quota 0 answers (OK, 0) at once; where DEC_SYM does not answer OK, DEC_RUN does just
what it does; where DEC_SYM emits, DEC_RUN goes on as DEC_RUN with a quota one smaller does after it, and
counts one more (spec/42_decode.md R209, spec/60_exceptions.md R271). -/
def Obligations.DecRunIsDecSymRepeated : Prop :=
  ∀ (s t : State) (quota : Word56), s.tstate = .valid → s.rstate = .active → s.rerr = 0 →
    exec (.decRun 0) s = .next { s with response := some (responseWord 0x00 0) } ∧
    (quota ≠ 0 → exec .decSym s = .next t →
      (responseCode t ≠ 0x00 → exec (.decRun quota) s = .next t) ∧
      (responseCode t = 0x00 → ∃ u, exec (.decRun (quota - 1)) t = .next u ∧
        exec (.decRun quota) s
          = .next { u with response := some (responseWord (responseCode u) (responseResult u + 1)) }))

/-- DEC_RUN's result is always the number of symbols it emitted, at most the quota and at most the bits consumed,
and OUTCNT counts them (spec/42_decode.md R209). -/
def Obligations.DecRunResultIsTheNumberEmitted : Prop :=
  ∀ (s t : State) (quota : Word56), Inv s → exec (.decRun quota) s = .next t →
    ∃ l : List Sym, t.out = s.out ++ l ∧ (responseResult t).toNat = l.length ∧ l.length ≤ quota.toNat ∧
      (s.rstate = .active → l.length + t.remaining.toNat ≤ s.remaining.toNat ∧
        t.outcnt.toNat = s.outcnt.toNat + l.length)

/-- What the first probe does, by the entry the next stream bits select: EMPTY with 8 bits is InvalidCode; fewer than 8
bits and no codeword that ends in them is UnexpectedEOF; in both nothing is consumed or emitted; a SYMBOL entry
that fits is emitted and its bits consumed (spec/42_decode.md R202, R205, R206, R207). -/
def Obligations.FirstProbeOutcomes : Prop :=
  ∀ (s : State) (e : Entry), Inv s → s.tstate = .valid → s.rstate = .active → s.rerr = 0 → s.remaining ≠ 0 →
    bitpos s + min 8 s.remaining.toNat ≤ 8 * s.src.bytes.length →
    e = tableRead s.table 0 (streamIndex s.src.bytes (bitpos s) (min 8 s.remaining.toNat)) →
    (8 ≤ s.remaining.toNat → e.kind = .empty →
      ∃ t, exec .decSym s = .next t ∧ t.rerr = 0x42 ∧ t.response = some (responseWord 0x42 0) ∧
        t.remaining = s.remaining ∧ t.out = s.out) ∧
    (s.remaining.toNat < 8 → ¬ (e.kind = .symbol ∧ e.len.toNat ≤ s.remaining.toNat) →
      ∃ t, exec .decSym s = .next t ∧ t.rerr = 0x40 ∧ t.response = some (responseWord 0x40 0) ∧
        t.remaining = s.remaining ∧ t.out = s.out) ∧
    (e.kind = .symbol → e.len.toNat ≤ s.remaining.toNat →
      ∃ t, exec .decSym s = .next t ∧ t.rerr = 0 ∧
        t.response = some (responseWord 0x00 (e.payload.setWidth 56)) ∧
        t.remaining.toNat = s.remaining.toNat - e.len.toNat ∧ t.out = s.out ++ [e.payload])

/-- Only symbols of the Code with a codeword are ever emitted (spec/30_encoding.md R121, spec/42_decode.md
R205). -/
def Obligations.OnlyUsedSymbolsAreEmitted : Prop :=
  ∀ (s t : State) (i : Instr), Inv s → TableMatchesCode s → i ≠ .reset → exec i s = .next t →
    ∃ l : List Sym, t.out = s.out ++ l ∧
      ∀ x ∈ l, x.toNat < s.nsym.toNat ∧ (codeOf s x.toNat).len ≠ 0

/-! ### The whole machine -/

/-- Every command word is answered: the step takes it from the host's list (the list is the model's choice, log 1), ends
in a next state, and leaves one response word whose code is one of the eleven (spec/60_exceptions.md R250, R251). That
the step always ends rests on the assumption that the source answers every SrcRead (spec/70_reset_and_hazards.md R304,
V5; DESIGN CHOICE, log 8). -/
def Obligations.EveryCommandIsAnswered : Prop :=
  ∀ (s : State) (w : Word) (rest : List Word), rerrLegal s.rerr → s.commands = w :: rest →
    ∃ (t : State) (code : BitVec 8) (result : Word56), step s = .next t ∧ t.commands = rest ∧
      t.response = some (responseWord code result) ∧
      code ∈ [0x00, 0x01, 0x40, 0x41, 0x42, 0x50, 0x51, 0x7C, 0x7D, 0x7E, 0x7F]

/-- A refusal changes no state at all (spec/60_exceptions.md R250, spec/00_scope.md R13). -/
def Obligations.RefusalsChangeNoState : Prop :=
  ∀ (i : Instr) (s t : State) (w : Word), exec i s = .next t → t.response = some w → 0x7C ≤ w.toNat / 2 ^ 56 →
    t = { s with response := some w }

/-- Rule R32: RERR is set by the first fault, to the code the response carries, is never overwritten, is cleared only
by BR_INIT and RESET, and holds only its legal values. -/
def Obligations.FirstReaderFaultWins : Prop :=
  ∀ (i : Instr) (s t : State), exec i s = .next t →
    (s.rerr ≠ 0 → i ≠ .reset → (∀ budget, i ≠ .brInit budget) → t.rerr = s.rerr) ∧
    (s.rerr = 0 → t.rerr ≠ 0 → ∃ result, t.response = some (responseWord t.rerr result)) ∧
    (s.rerr = 0 → ∀ (code : BitVec 8) (result : Word56), code ∈ [0x40, 0x41, 0x42] →
      t.response = some (responseWord code result) → t.rerr = code) ∧
    (i = .reset → t.rerr = 0) ∧ (∀ budget, i = .brInit budget → t.rerr = 0) ∧
    (rerrLegal s.rerr → rerrLegal t.rerr)

/-- The Code, its table and TERR change only by their own commands: by CODE_CLR, CODE_WR, TBL_BUILD and RESET; and once
a build has been attempted, by CODE_CLR and RESET only (spec/70_reset_and_hazards.md R301, spec/20_memory.md
R73, spec/10_state.md R33, R34). -/
def Obligations.CodeIsImmutableOnceBuilt : Prop :=
  ∀ (i : Instr) (s t : State), exec i s = .next t → i ≠ .reset → (∀ nsym, i ≠ .codeClr nsym) →
    (s.tstate ≠ .notBuilt ∨ ((∀ sym len value, i ≠ .codeWr sym len value) ∧ i ≠ .tblBuild)) →
    t.code = s.code ∧ t.nsym = s.nsym ∧ t.table = s.table ∧ t.ntab = s.ntab ∧ t.tstate = s.tstate ∧
      t.terr = s.terr

/-- OUT is append-only but for RESET, and only the decode commands append to it (spec/10_state.md R40,
spec/20_memory.md R60, R67). -/
def Obligations.OutIsAppendOnly : Prop :=
  ∀ (i : Instr) (s t : State), exec i s = .next t → i ≠ .reset →
    (∃ l, t.out = s.out ++ l) ∧ (i ≠ .decSym → (∀ quota, i ≠ .decRun quota) → t.out = s.out)

/-- Frame of RDREG and TBL_RD: only the response changes. -/
def Obligations.InspectionChangesNothing : Prop :=
  ∀ (s t : State) (reg : BitVec 4) (handle : Handle) (idx : BitVec 8),
    (exec (.rdreg reg) s = .next t ∨ exec (.tblRd handle idx) s = .next t) →
    t = { s with response := t.response } ∧ (∀ sym, codeOf t sym = codeOf s sym) ∧
      (∀ h i, tableRead t.table h i = tableRead s.table h i)

/-- Frame of READBITS and PEEK: only the reader's own registers, RERR, the source's choices and the response change; no
element of CODE or TABLE does; and PEEK consumes nothing (spec/40_bitreader.md R143, R150). -/
def Obligations.ReadsChangeOnlyTheReader : Prop :=
  ∀ (s t : State) (n : BitVec 4),
    (exec (.readbits n) s = .next t ∨ exec .peek s = .next t →
      t = { s with acc := t.acc, nacc := t.nacc, remaining := t.remaining, srcpos := t.srcpos,
                   rerr := t.rerr, src := { s.src with chunks := t.src.chunks }, draws := t.draws,
                   response := t.response } ∧
      (∀ sym, codeOf t sym = codeOf s sym) ∧ (∀ h i, tableRead t.table h i = tableRead s.table h i)) ∧
    (exec .peek s = .next t → t.remaining = s.remaining)

/-- Frame of DEC_SYM and DEC_RUN: only the reader's and decoder's registers, RERR, OUT, the source's choices and the
response change; no element of CODE or TABLE does (spec/42_decode.md R203, R208, R209). -/
def Obligations.DecodesChangeOnlyReaderAndOut : Prop :=
  ∀ (s t : State) (quota : Word56), (exec .decSym s = .next t ∨ exec (.decRun quota) s = .next t) →
    t = { s with acc := t.acc, nacc := t.nacc, remaining := t.remaining, srcpos := t.srcpos,
                 outcnt := t.outcnt, cur := t.cur, level := t.level, rerr := t.rerr, out := t.out,
                 src := { s.src with chunks := t.src.chunks }, draws := t.draws, response := t.response } ∧
    (∀ sym, codeOf t sym = codeOf s sym) ∧ (∀ h i, tableRead t.table h i = tableRead s.table h i)

/-- Frame of CODE_CLR, CODE_WR and TBL_BUILD: the reader, the decoder, OUT and the source are untouched; CODE_CLR and
CODE_WR leave the free values' counter, and TBL_BUILD leaves every element of CODE
(spec/41_table_build.md R170, R171, R173). -/
def Obligations.LoadingAndBuildingLeaveTheReader : Prop :=
  ∀ (s t : State) (nsym : BitVec 21) (sym : Sym) (len : BitVec 5) (value : BitVec 20),
    (exec (.codeClr nsym) s = .next t →
      t = { s with nsym := t.nsym, code := t.code, table := t.table, tstate := t.tstate, ntab := t.ntab,
                   terr := t.terr, response := t.response }) ∧
    (exec (.codeWr sym len value) s = .next t →
      t = { s with code := t.code, response := t.response } ∧
      (∀ h i, tableRead t.table h i = tableRead s.table h i)) ∧
    (exec .tblBuild s = .next t →
      t = { s with table := t.table, tstate := t.tstate, ntab := t.ntab, terr := t.terr, draws := t.draws,
                   response := t.response } ∧
      (∀ b, codeOf t b = codeOf s b))

/-- When a stream is read to the end of its budget, the source stands at the first byte after the region
(spec/70_reset_and_hazards.md R302). -/
def Obligations.SourceStandsAfterTheRegion : Prop :=
  ∀ s : State, Inv s → s.rstate = .active → s.remaining = 0 →
    s.srcpos.toNat = (s.budget0.toNat + 7) / 8 ∧ s.nacc.toNat ≤ 7

/-- The state after reset meets the invariant. -/
def Obligations.ResetMeetsTheInvariant : Prop :=
  Inv State.reset ∧ TableMatchesCode State.reset ∧ ValidMeansPrefixFree State.reset

/-- Every step keeps the invariant of rules R23, R24, R26, R32, R33, R34, R35, R38, R39 and R115: the accumulator's
layout and bounds, the legal latches, the canonical and legal memories. -/
def Obligations.StepKeepsTheInvariant : Prop :=
  ∀ s t : State, Inv s → step s = .next t → Inv t

/-- Every step keeps the table the table of the Code in CODE memory whenever it is VALID, and that Code a prefix
code (spec/20_memory.md R73, spec/41_table_build.md R177, R179). -/
def Obligations.StepKeepsTheTableOfTheCode : Prop :=
  ∀ s t : State, Inv s → TableMatchesCode s → ValidMeansPrefixFree s → step s = .next t →
    TableMatchesCode t ∧ ValidMeansPrefixFree t

/-- From two states that differ only in how the source split its answers, READBITS, PEEK, DEC_SYM and DEC_RUN give the
same response, REMAINING, OUTCNT, RERR and OUT, and states that again differ only in that
(spec/40_bitreader.md R149; RDREG 6, which returns SRCPOS, is not among them, log 16). -/
def Obligations.ResponsesIgnoreTheChunking : Prop :=
  ∀ (s t s' t' : State) (i : Instr), Inv s → Inv t → SameButChunking s t →
    ((∃ n, i = .readbits n) ∨ i = .peek ∨ i = .decSym ∨ (∃ quota, i = .decRun quota)) →
    exec i s = .next s' → exec i t = .next t' →
    SameButChunking s' t' ∧ s'.response = t'.response ∧ s'.remaining = t'.remaining ∧
      s'.outcnt = t'.outcnt ∧ s'.rerr = t'.rerr ∧ s'.out = t'.out

/-! ### The host's part -/

/-- Rule R9: canonical values of equal length are consecutive in symbol order, and no code is a prefix of a code of the
same length or longer. -/
def Obligations.CanonicalValuesArePrefixFree : Prop :=
  ∀ (lens : List Nat) (a b : Nat), (∀ l ∈ lens, l ≤ 20) → a < lens.length → b < lens.length →
    lens.getD a 0 ≠ 0 → lens.getD b 0 ≠ 0 →
    (lens.getD a 0 = lens.getD b 0 → a ≤ b →
      canonicalValue lens b
        = canonicalValue lens a + ((lens.drop a).take (b - a)).count (lens.getD a 0)) ∧
    (a ≠ b → lens.getD a 0 ≤ lens.getD b 0 →
      canonicalValue lens b >>> (lens.getD b 0 - lens.getD a 0) ≠ canonicalValue lens a)

/-- CODE_LOAD completes for lengths whose canonical values fit, and leaves CODE memory holding the canonical Code
(spec/30_encoding.md R126, spec/00_scope.md R9). -/
def Obligations.CodeLoadLoadsTheCanonicalCode : Prop :=
  ∀ (s : State) (lens : List Nat), lens.length ≤ 2 ^ 20 → (∀ l ∈ lens, l ≤ 20) →
    (∀ sym, sym < lens.length → canonicalValue lens sym < 2 ^ lens.getD sym 0) →
    ∃ t, issueAll (codeLoad lens) s = .next t ∧ t.nsym.toNat = lens.length ∧ t.tstate = .notBuilt ∧
      ∀ sym, sym < lens.length →
        (codeOf t sym).len.toNat = lens.getD sym 0 ∧ (codeOf t sym).value.toNat = canonicalValue lens sym
end

