-- ==== Sys2Proof/Laws/Memory.lean ====
section
/-! SUPPORT. The laws of an element-addressed memory: a read after a write, the canonical form kept by every
operation, and that equal reads make equal memories. -/

namespace Sys2Proof.Machine

variable {α : Type} {d : α}

theorem read_nil (a : Nat) : Memory.read d [] a = d := rfl

theorem read_cons (k : Nat) (v : α) (m : Memory α) (a : Nat) :
    Memory.read d ((k, v) :: m) a = if a = k then v else Memory.read d m a := rfl

theorem wf_nil : Memory.wf d ([] : Memory α) := ⟨List.Pairwise.nil, by simp⟩

theorem wf_cons {k : Nat} {v : α} {m : Memory α} :
    Memory.wf d ((k, v) :: m) ↔ (∀ c ∈ m, k < c.1) ∧ v ≠ d ∧ Memory.wf d m := by
  simp only [Memory.wf, List.pairwise_cons, List.mem_cons, forall_eq_or_imp]
  tauto

/-- An element not listed reads as the default. -/
theorem read_of_not_listed {m : Memory α} {a : Nat} (h : ∀ c ∈ m, c.1 ≠ a) : Memory.read d m a = d := by
  induction m with
  | nil => rfl
  | cons c m ih =>
    rw [read_cons, if_neg (Ne.symm (h c (by simp))), ih fun c hc => h c (by simp [hc])]

/-- What is read is the default or listed. -/
theorem read_listed_or_default (m : Memory α) (a : Nat) :
    Memory.read d m a = d ∨ (a, Memory.read d m a) ∈ m := by
  induction m with
  | nil => exact .inl rfl
  | cons c m ih =>
    rw [read_cons]
    split
    · subst a; exact .inr (by simp)
    · exact ih.imp id fun h => by simp [h]

/-- In canonical form a listed element is what is read at its address. -/
theorem read_of_mem {m : Memory α} (hm : Memory.wf d m) {c : Nat × α} (hc : c ∈ m) :
    Memory.read d m c.1 = c.2 := by
  induction m with
  | nil => simp at hc
  | cons c' m ih =>
    obtain ⟨hlt, -, hwf⟩ := wf_cons.1 hm
    rw [read_cons]
    rcases List.mem_cons.1 hc with rfl | hc
    · simp
    · rw [if_neg (by have := hlt c hc; omega), ih hwf hc]

/-- In canonical form an address is listed exactly where the read differs from the default. -/
theorem mem_iff_read {m : Memory α} (hm : Memory.wf d m) {a : Nat} {v : α} :
    (a, v) ∈ m ↔ Memory.read d m a = v ∧ v ≠ d := by
  constructor
  · exact fun h => ⟨read_of_mem hm h, hm.2 _ h⟩
  · rintro ⟨rfl, hv⟩
    exact (read_listed_or_default m a).resolve_left hv

/-- Equal reads make equal memories: the form is canonical. -/
theorem memory_ext {m m' : Memory α} (hm : Memory.wf d m) (hm' : Memory.wf d m')
    (h : ∀ a, Memory.read d m a = Memory.read d m' a) : m = m' := by
  have hmem : ∀ c, c ∈ m ↔ c ∈ m' := fun c => by
    rw [show c = (c.1, c.2) from rfl, mem_iff_read hm, mem_iff_read hm', h]
  have hs : ∀ {l : Memory α}, Memory.wf d l → l.Pairwise (fun c c' => c.1 < c'.1) := fun h => h.1
  refine List.Perm.eq_of_pairwise (le := fun c c' => c.1 < c'.1) (fun a b _ _ h1 h2 => by omega) (hs hm) (hs hm') ?_
  refine (List.perm_ext_iff_of_nodup ?_ ?_).2 hmem
  · exact (hs hm).imp fun h e => by subst e; omega
  · exact (hs hm').imp fun h e => by subst e; omega

section Write

variable [DecidableEq α]

theorem write_keys {m : Memory α} {a : Nat} {v : α} {c : Nat × α}
    (h : c ∈ Memory.write d m a v) : c ∈ m ∨ (c = (a, v) ∧ v ≠ d) := by
  induction m with
  | nil =>
    unfold Memory.write at h
    split at h <;> simp_all
  | cons c' m ih =>
    unfold Memory.write at h
    split at h
    · split at h <;> simp_all; tauto
    · split at h
      · split at h <;> simp_all; tauto
      · rcases List.mem_cons.1 h with rfl | h
        · exact .inl (by simp)
        · exact (ih h).imp (fun h => by simp [h]) id

/-- A write keeps the canonical form. -/
theorem write_wf {m : Memory α} (hm : Memory.wf d m) (a : Nat) (v : α) :
    Memory.wf d (Memory.write d m a v) := by
  induction m with
  | nil =>
    unfold Memory.write
    split
    · exact wf_nil
    · exact wf_cons.2 ⟨by simp, ‹_›, wf_nil⟩
  | cons c m ih =>
    obtain ⟨hlt, hv, hwf⟩ := wf_cons.1 hm
    unfold Memory.write
    split
    · split
      · exact hm
      · refine wf_cons.2 ⟨?_, ‹_›, hm⟩
        intro c' hc'
        rcases List.mem_cons.1 hc' with rfl | hc'
        · simpa
        · have := hlt c' hc'; omega
    · split
      · split
        · exact hwf
        · exact wf_cons.2 ⟨hlt, ‹_›, hwf⟩
      · refine wf_cons.2 ⟨?_, hv, ih hwf⟩
        intro c' hc'
        rcases write_keys hc' with h | ⟨rfl, -⟩
        · exact hlt c' h
        · simp; omega

/-- A read after a write: the value written there, what was there elsewhere. -/
theorem read_write {m : Memory α} (hm : Memory.wf d m) (a b : Nat) (v : α) :
    Memory.read d (Memory.write d m a v) b = if b = a then v else Memory.read d m b := by
  induction m with
  | nil =>
    unfold Memory.write
    split
    · subst v; simp [read_nil]
    · simp [read_cons, read_nil]
  | cons c m ih =>
    obtain ⟨k, w⟩ := c
    obtain ⟨hlt, -, hwf⟩ := wf_cons.1 hm
    have hnot : a ≤ k → Memory.read d m a = d := fun h =>
      read_of_not_listed fun c hc => by have := hlt c hc; omega
    unfold Memory.write
    split
    · split
      · subst v
        by_cases hb : b = a
        · subst hb
          rw [read_cons, if_neg (by omega), if_pos rfl, hnot (by omega)]
        · rw [if_neg hb]
      · rw [read_cons]
    · split
      · subst a
        split
        · subst v
          by_cases hb : b = k
          · subst hb; rw [if_pos rfl, hnot (le_refl _)]
          · rw [if_neg hb, read_cons, if_neg hb]
        · rw [read_cons]
          by_cases hb : b = k
          · rw [if_pos hb, if_pos hb]
          · rw [if_neg hb, if_neg hb, read_cons, if_neg hb]
      · rw [read_cons, read_cons, ih hwf]
        by_cases hbk : b = k
        · subst hbk; rw [if_pos rfl, if_pos rfl, if_neg (by omega)]
        · rw [if_neg hbk, if_neg hbk]

end Write

theorem clear_wf {m : Memory α} (hm : Memory.wf d m) (a n : Nat) : Memory.wf d (Memory.clear m a n) :=
  ⟨hm.1.filter _, fun c hc => hm.2 c (List.mem_of_mem_filter hc)⟩

/-- A read after a clear: the default in the cleared range, what was there elsewhere. -/
theorem read_clear {m : Memory α} (hm : Memory.wf d m) (a n b : Nat) :
    Memory.read d (Memory.clear m a n) b = if a ≤ b ∧ b < a + n then d else Memory.read d m b := by
  have hc := clear_wf hm a n
  split
  · refine read_of_not_listed fun c hcm => ?_
    have := (List.mem_filter.1 hcm).2
    simp only [Bool.or_eq_true, decide_eq_true_eq] at this
    omega
  · by_cases hd : Memory.read d m b = d
    · rw [hd]
      refine read_of_not_listed fun c hcm e => ?_
      have h1 := List.mem_of_mem_filter hcm
      have h2 := read_of_mem hm h1
      rw [e, hd] at h2
      exact hm.2 c h1 h2.symm
    · have h1 : (b, Memory.read d m b) ∈ m := (mem_iff_read hm).2 ⟨rfl, hd⟩
      have h2 : (b, Memory.read d m b) ∈ Memory.clear m a n := by
        refine List.mem_filter.2 ⟨h1, ?_⟩
        simp only [Bool.or_eq_true, decide_eq_true_eq]
        omega
      exact read_of_mem hc h2

/-! ### CODE and TABLE -/

theorem codeWrite_wf {c : Memory CodeEntry} (h : Memory.wf CodeEntry.unused c) (sym : Nat) (e : CodeEntry) :
    Memory.wf CodeEntry.unused (codeWrite c sym e) := write_wf h sym e

theorem codeRead_codeWrite {c : Memory CodeEntry} (h : Memory.wf CodeEntry.unused c) (sym b : Nat)
    (e : CodeEntry) : codeRead (codeWrite c sym e) b = if b = sym then e else codeRead c b :=
  read_write h sym b e

theorem tableAddr_inj {h i h' i' : Nat} (hi : i < 256) (hi' : i' < 256) :
    tableAddr h i = tableAddr h' i' ↔ h = h' ∧ i = i' := by
  simp only [tableAddr, Config.tableSize]; omega

theorem tableWrite_wf {t : Memory Entry} (h : Memory.wf Entry.empty t) (k i : Nat) (e : Entry) :
    Memory.wf Entry.empty (tableWrite t k i e) := write_wf h _ e

/-- `T[h'][i']` after `T[h][i] <- e`. -/
theorem tableRead_tableWrite {t : Memory Entry} (hw : Memory.wf Entry.empty t) {h i h' i' : Nat} (hi : i < 256)
    (hi' : i' < 256) (e : Entry) :
    tableRead (tableWrite t h i e) h' i' = if h' = h ∧ i' = i then e else tableRead t h' i' := by
  unfold tableRead tableWrite
  rw [read_write hw]
  simp only [tableAddr_inj hi' hi]

/-- `T[h'][i']` after table `h` is cleared. -/
theorem tableRead_clear {t : Memory Entry} (hw : Memory.wf Entry.empty t) {h h' i' : Nat} (hi' : i' < 256) :
    tableRead (Memory.clear t (tableAddr h 0) Config.tableSize) h' i'
      = if h' = h then Entry.empty else tableRead t h' i' := by
  unfold tableRead
  rw [read_clear hw]
  refine if_congr ?_ rfl rfl
  simp only [tableAddr, Config.tableSize]; omega

end Sys2Proof.Machine
end

