-- ==== Sys2Proof/Laws/State.lean ====
section
/-! SUPPORT. One lemma per field per update of the state: what each shared update leaves in each field. -/

namespace Sys2Proof.Machine

open Sys2Proof.Config

/-! ### Taking one byte into ACC (spec/40_bitreader.md R145) -/

@[simp] theorem appendByte_acc (b : Byte) (s : State) : (appendByte b s).acc = s.acc ||| (b.setWidth 64 <<< s.nacc.toNat) := rfl
@[simp] theorem appendByte_nacc (b : Byte) (s : State) : (appendByte b s).nacc = s.nacc + 8 := rfl
@[simp] theorem appendByte_remaining (b : Byte) (s : State) : (appendByte b s).remaining = s.remaining := rfl
@[simp] theorem appendByte_budget0 (b : Byte) (s : State) : (appendByte b s).budget0 = s.budget0 := rfl
@[simp] theorem appendByte_srcpos (b : Byte) (s : State) : (appendByte b s).srcpos = s.srcpos + 1 := rfl
@[simp] theorem appendByte_outcnt (b : Byte) (s : State) : (appendByte b s).outcnt = s.outcnt := rfl
@[simp] theorem appendByte_cur (b : Byte) (s : State) : (appendByte b s).cur = s.cur := rfl
@[simp] theorem appendByte_level (b : Byte) (s : State) : (appendByte b s).level = s.level := rfl
@[simp] theorem appendByte_rerr (b : Byte) (s : State) : (appendByte b s).rerr = s.rerr := rfl
@[simp] theorem appendByte_terr (b : Byte) (s : State) : (appendByte b s).terr = s.terr := rfl
@[simp] theorem appendByte_nsym (b : Byte) (s : State) : (appendByte b s).nsym = s.nsym := rfl
@[simp] theorem appendByte_ntab (b : Byte) (s : State) : (appendByte b s).ntab = s.ntab := rfl
@[simp] theorem appendByte_rstate (b : Byte) (s : State) : (appendByte b s).rstate = s.rstate := rfl
@[simp] theorem appendByte_tstate (b : Byte) (s : State) : (appendByte b s).tstate = s.tstate := rfl
@[simp] theorem appendByte_code (b : Byte) (s : State) : (appendByte b s).code = s.code := rfl
@[simp] theorem appendByte_table (b : Byte) (s : State) : (appendByte b s).table = s.table := rfl
@[simp] theorem appendByte_out (b : Byte) (s : State) : (appendByte b s).out = s.out := rfl
@[simp] theorem appendByte_src (b : Byte) (s : State) : (appendByte b s).src = s.src := rfl
@[simp] theorem appendByte_response (b : Byte) (s : State) : (appendByte b s).response = s.response := rfl
@[simp] theorem appendByte_commands (b : Byte) (s : State) : (appendByte b s).commands = s.commands := rfl
@[simp] theorem appendByte_sources (b : Byte) (s : State) : (appendByte b s).sources = s.sources := rfl
@[simp] theorem appendByte_draws (b : Byte) (s : State) : (appendByte b s).draws = s.draws := rfl
@[simp] theorem appendByte_tablesBeyondRoot (b : Byte) (s : State) : (appendByte b s).tablesBeyondRoot = s.tablesBeyondRoot := rfl

/-! ### Consume (spec/40_bitreader.md R148) -/

@[simp] theorem consume_acc (n : Nat) (s : State) : (consume n s).acc = s.acc >>> n := rfl
@[simp] theorem consume_nacc (n : Nat) (s : State) : (consume n s).nacc = s.nacc - BitVec.ofNat 7 n := rfl
@[simp] theorem consume_remaining (n : Nat) (s : State) : (consume n s).remaining = s.remaining - BitVec.ofNat 56 n := rfl
@[simp] theorem consume_budget0 (n : Nat) (s : State) : (consume n s).budget0 = s.budget0 := rfl
@[simp] theorem consume_srcpos (n : Nat) (s : State) : (consume n s).srcpos = s.srcpos := rfl
@[simp] theorem consume_outcnt (n : Nat) (s : State) : (consume n s).outcnt = s.outcnt := rfl
@[simp] theorem consume_cur (n : Nat) (s : State) : (consume n s).cur = s.cur := rfl
@[simp] theorem consume_level (n : Nat) (s : State) : (consume n s).level = s.level := rfl
@[simp] theorem consume_rerr (n : Nat) (s : State) : (consume n s).rerr = s.rerr := rfl
@[simp] theorem consume_terr (n : Nat) (s : State) : (consume n s).terr = s.terr := rfl
@[simp] theorem consume_nsym (n : Nat) (s : State) : (consume n s).nsym = s.nsym := rfl
@[simp] theorem consume_ntab (n : Nat) (s : State) : (consume n s).ntab = s.ntab := rfl
@[simp] theorem consume_rstate (n : Nat) (s : State) : (consume n s).rstate = s.rstate := rfl
@[simp] theorem consume_tstate (n : Nat) (s : State) : (consume n s).tstate = s.tstate := rfl
@[simp] theorem consume_code (n : Nat) (s : State) : (consume n s).code = s.code := rfl
@[simp] theorem consume_table (n : Nat) (s : State) : (consume n s).table = s.table := rfl
@[simp] theorem consume_out (n : Nat) (s : State) : (consume n s).out = s.out := rfl
@[simp] theorem consume_src (n : Nat) (s : State) : (consume n s).src = s.src := rfl
@[simp] theorem consume_response (n : Nat) (s : State) : (consume n s).response = s.response := rfl
@[simp] theorem consume_commands (n : Nat) (s : State) : (consume n s).commands = s.commands := rfl
@[simp] theorem consume_sources (n : Nat) (s : State) : (consume n s).sources = s.sources := rfl
@[simp] theorem consume_draws (n : Nat) (s : State) : (consume n s).draws = s.draws := rfl
@[simp] theorem consume_tablesBeyondRoot (n : Nat) (s : State) : (consume n s).tablesBeyondRoot = s.tablesBeyondRoot := rfl

/-! ### The registers BR_INIT writes (spec/40_bitreader.md R141) -/

@[simp] theorem startReader_acc (b : Word56) (s : State) : (startReader b s).acc = 0 := rfl
@[simp] theorem startReader_nacc (b : Word56) (s : State) : (startReader b s).nacc = 0 := rfl
@[simp] theorem startReader_remaining (b : Word56) (s : State) : (startReader b s).remaining = b := rfl
@[simp] theorem startReader_budget0 (b : Word56) (s : State) : (startReader b s).budget0 = b := rfl
@[simp] theorem startReader_srcpos (b : Word56) (s : State) : (startReader b s).srcpos = 0 := rfl
@[simp] theorem startReader_outcnt (b : Word56) (s : State) : (startReader b s).outcnt = 0 := rfl
@[simp] theorem startReader_cur (b : Word56) (s : State) : (startReader b s).cur = 0 := rfl
@[simp] theorem startReader_level (b : Word56) (s : State) : (startReader b s).level = 0 := rfl
@[simp] theorem startReader_rerr (b : Word56) (s : State) : (startReader b s).rerr = s.rerr := rfl
@[simp] theorem startReader_terr (b : Word56) (s : State) : (startReader b s).terr = s.terr := rfl
@[simp] theorem startReader_nsym (b : Word56) (s : State) : (startReader b s).nsym = s.nsym := rfl
@[simp] theorem startReader_ntab (b : Word56) (s : State) : (startReader b s).ntab = s.ntab := rfl
@[simp] theorem startReader_rstate (b : Word56) (s : State) : (startReader b s).rstate = .active := rfl
@[simp] theorem startReader_tstate (b : Word56) (s : State) : (startReader b s).tstate = s.tstate := rfl
@[simp] theorem startReader_code (b : Word56) (s : State) : (startReader b s).code = s.code := rfl
@[simp] theorem startReader_table (b : Word56) (s : State) : (startReader b s).table = s.table := rfl
@[simp] theorem startReader_out (b : Word56) (s : State) : (startReader b s).out = s.out := rfl
@[simp] theorem startReader_src (b : Word56) (s : State) : (startReader b s).src = s.src := rfl
@[simp] theorem startReader_response (b : Word56) (s : State) : (startReader b s).response = s.response := rfl
@[simp] theorem startReader_commands (b : Word56) (s : State) : (startReader b s).commands = s.commands := rfl
@[simp] theorem startReader_sources (b : Word56) (s : State) : (startReader b s).sources = s.sources := rfl
@[simp] theorem startReader_draws (b : Word56) (s : State) : (startReader b s).draws = s.draws := rfl
@[simp] theorem startReader_tablesBeyondRoot (b : Word56) (s : State) : (startReader b s).tablesBeyondRoot = s.tablesBeyondRoot := rfl

/-! ### Leaving a reader fault (spec/60_exceptions.md R262) -/

@[simp] theorem leaveReaderFault_acc (s : State) : (leaveReaderFault s).acc = s.acc := rfl
@[simp] theorem leaveReaderFault_nacc (s : State) : (leaveReaderFault s).nacc = s.nacc := rfl
@[simp] theorem leaveReaderFault_remaining (s : State) : (leaveReaderFault s).remaining = s.remaining := rfl
@[simp] theorem leaveReaderFault_budget0 (s : State) : (leaveReaderFault s).budget0 = s.budget0 := rfl
@[simp] theorem leaveReaderFault_srcpos (s : State) : (leaveReaderFault s).srcpos = s.srcpos := rfl
@[simp] theorem leaveReaderFault_outcnt (s : State) : (leaveReaderFault s).outcnt = s.outcnt := rfl
@[simp] theorem leaveReaderFault_cur (s : State) : (leaveReaderFault s).cur = s.cur := rfl
@[simp] theorem leaveReaderFault_level (s : State) : (leaveReaderFault s).level = s.level := rfl
@[simp] theorem leaveReaderFault_rerr (s : State) : (leaveReaderFault s).rerr = 0 := rfl
@[simp] theorem leaveReaderFault_terr (s : State) : (leaveReaderFault s).terr = s.terr := rfl
@[simp] theorem leaveReaderFault_nsym (s : State) : (leaveReaderFault s).nsym = s.nsym := rfl
@[simp] theorem leaveReaderFault_ntab (s : State) : (leaveReaderFault s).ntab = s.ntab := rfl
@[simp] theorem leaveReaderFault_rstate (s : State) : (leaveReaderFault s).rstate = s.rstate := rfl
@[simp] theorem leaveReaderFault_tstate (s : State) : (leaveReaderFault s).tstate = s.tstate := rfl
@[simp] theorem leaveReaderFault_code (s : State) : (leaveReaderFault s).code = s.code := rfl
@[simp] theorem leaveReaderFault_table (s : State) : (leaveReaderFault s).table = s.table := rfl
@[simp] theorem leaveReaderFault_out (s : State) : (leaveReaderFault s).out = s.out := rfl
@[simp] theorem leaveReaderFault_src (s : State) : (leaveReaderFault s).src = s.src := rfl
@[simp] theorem leaveReaderFault_response (s : State) : (leaveReaderFault s).response = s.response := rfl
@[simp] theorem leaveReaderFault_commands (s : State) : (leaveReaderFault s).commands = s.commands := rfl
@[simp] theorem leaveReaderFault_sources (s : State) : (leaveReaderFault s).sources = s.sources := rfl
@[simp] theorem leaveReaderFault_draws (s : State) : (leaveReaderFault s).draws = s.draws := rfl
@[simp] theorem leaveReaderFault_tablesBeyondRoot (s : State) : (leaveReaderFault s).tablesBeyondRoot = s.tablesBeyondRoot := rfl

/-! ### Leaving a build (spec/60_exceptions.md R262) -/

@[simp] theorem leaveBuild_acc (s : State) : (leaveBuild s).acc = s.acc := rfl
@[simp] theorem leaveBuild_nacc (s : State) : (leaveBuild s).nacc = s.nacc := rfl
@[simp] theorem leaveBuild_remaining (s : State) : (leaveBuild s).remaining = s.remaining := rfl
@[simp] theorem leaveBuild_budget0 (s : State) : (leaveBuild s).budget0 = s.budget0 := rfl
@[simp] theorem leaveBuild_srcpos (s : State) : (leaveBuild s).srcpos = s.srcpos := rfl
@[simp] theorem leaveBuild_outcnt (s : State) : (leaveBuild s).outcnt = s.outcnt := rfl
@[simp] theorem leaveBuild_cur (s : State) : (leaveBuild s).cur = s.cur := rfl
@[simp] theorem leaveBuild_level (s : State) : (leaveBuild s).level = s.level := rfl
@[simp] theorem leaveBuild_rerr (s : State) : (leaveBuild s).rerr = s.rerr := rfl
@[simp] theorem leaveBuild_terr (s : State) : (leaveBuild s).terr = 0 := rfl
@[simp] theorem leaveBuild_nsym (s : State) : (leaveBuild s).nsym = s.nsym := rfl
@[simp] theorem leaveBuild_ntab (s : State) : (leaveBuild s).ntab = 0 := rfl
@[simp] theorem leaveBuild_rstate (s : State) : (leaveBuild s).rstate = s.rstate := rfl
@[simp] theorem leaveBuild_tstate (s : State) : (leaveBuild s).tstate = .notBuilt := rfl
@[simp] theorem leaveBuild_code (s : State) : (leaveBuild s).code = s.code := rfl
@[simp] theorem leaveBuild_table (s : State) : (leaveBuild s).table = [] := rfl
@[simp] theorem leaveBuild_out (s : State) : (leaveBuild s).out = s.out := rfl
@[simp] theorem leaveBuild_src (s : State) : (leaveBuild s).src = s.src := rfl
@[simp] theorem leaveBuild_response (s : State) : (leaveBuild s).response = s.response := rfl
@[simp] theorem leaveBuild_commands (s : State) : (leaveBuild s).commands = s.commands := rfl
@[simp] theorem leaveBuild_sources (s : State) : (leaveBuild s).sources = s.sources := rfl
@[simp] theorem leaveBuild_draws (s : State) : (leaveBuild s).draws = s.draws := rfl
@[simp] theorem leaveBuild_tablesBeyondRoot (s : State) : (leaveBuild s).tablesBeyondRoot = s.tablesBeyondRoot := rfl

/-! ### Emit (spec/42_decode.md R208) -/

@[simp] theorem emit_acc (x : Sym) (s : State) : (emit x s).acc = s.acc := rfl
@[simp] theorem emit_nacc (x : Sym) (s : State) : (emit x s).nacc = s.nacc := rfl
@[simp] theorem emit_remaining (x : Sym) (s : State) : (emit x s).remaining = s.remaining := rfl
@[simp] theorem emit_budget0 (x : Sym) (s : State) : (emit x s).budget0 = s.budget0 := rfl
@[simp] theorem emit_srcpos (x : Sym) (s : State) : (emit x s).srcpos = s.srcpos := rfl
@[simp] theorem emit_outcnt (x : Sym) (s : State) : (emit x s).outcnt = s.outcnt + 1 := rfl
@[simp] theorem emit_cur (x : Sym) (s : State) : (emit x s).cur = s.cur := rfl
@[simp] theorem emit_level (x : Sym) (s : State) : (emit x s).level = s.level := rfl
@[simp] theorem emit_rerr (x : Sym) (s : State) : (emit x s).rerr = s.rerr := rfl
@[simp] theorem emit_terr (x : Sym) (s : State) : (emit x s).terr = s.terr := rfl
@[simp] theorem emit_nsym (x : Sym) (s : State) : (emit x s).nsym = s.nsym := rfl
@[simp] theorem emit_ntab (x : Sym) (s : State) : (emit x s).ntab = s.ntab := rfl
@[simp] theorem emit_rstate (x : Sym) (s : State) : (emit x s).rstate = s.rstate := rfl
@[simp] theorem emit_tstate (x : Sym) (s : State) : (emit x s).tstate = s.tstate := rfl
@[simp] theorem emit_code (x : Sym) (s : State) : (emit x s).code = s.code := rfl
@[simp] theorem emit_table (x : Sym) (s : State) : (emit x s).table = s.table := rfl
@[simp] theorem emit_out (x : Sym) (s : State) : (emit x s).out = s.out ++ [x] := rfl
@[simp] theorem emit_src (x : Sym) (s : State) : (emit x s).src = s.src := rfl
@[simp] theorem emit_response (x : Sym) (s : State) : (emit x s).response = s.response := rfl
@[simp] theorem emit_commands (x : Sym) (s : State) : (emit x s).commands = s.commands := rfl
@[simp] theorem emit_sources (x : Sym) (s : State) : (emit x s).sources = s.sources := rfl
@[simp] theorem emit_draws (x : Sym) (s : State) : (emit x s).draws = s.draws := rfl
@[simp] theorem emit_tablesBeyondRoot (x : Sym) (s : State) : (emit x s).tablesBeyondRoot = s.tablesBeyondRoot := rfl

/-! ### Starting a symbol (spec/42_decode.md R203) -/

@[simp] theorem startSymbol_acc (s : State) : (startSymbol s).acc = s.acc := rfl
@[simp] theorem startSymbol_nacc (s : State) : (startSymbol s).nacc = s.nacc := rfl
@[simp] theorem startSymbol_remaining (s : State) : (startSymbol s).remaining = s.remaining := rfl
@[simp] theorem startSymbol_budget0 (s : State) : (startSymbol s).budget0 = s.budget0 := rfl
@[simp] theorem startSymbol_srcpos (s : State) : (startSymbol s).srcpos = s.srcpos := rfl
@[simp] theorem startSymbol_outcnt (s : State) : (startSymbol s).outcnt = s.outcnt := rfl
@[simp] theorem startSymbol_cur (s : State) : (startSymbol s).cur = 0 := rfl
@[simp] theorem startSymbol_level (s : State) : (startSymbol s).level = 0 := rfl
@[simp] theorem startSymbol_rerr (s : State) : (startSymbol s).rerr = s.rerr := rfl
@[simp] theorem startSymbol_terr (s : State) : (startSymbol s).terr = s.terr := rfl
@[simp] theorem startSymbol_nsym (s : State) : (startSymbol s).nsym = s.nsym := rfl
@[simp] theorem startSymbol_ntab (s : State) : (startSymbol s).ntab = s.ntab := rfl
@[simp] theorem startSymbol_rstate (s : State) : (startSymbol s).rstate = s.rstate := rfl
@[simp] theorem startSymbol_tstate (s : State) : (startSymbol s).tstate = s.tstate := rfl
@[simp] theorem startSymbol_code (s : State) : (startSymbol s).code = s.code := rfl
@[simp] theorem startSymbol_table (s : State) : (startSymbol s).table = s.table := rfl
@[simp] theorem startSymbol_out (s : State) : (startSymbol s).out = s.out := rfl
@[simp] theorem startSymbol_src (s : State) : (startSymbol s).src = s.src := rfl
@[simp] theorem startSymbol_response (s : State) : (startSymbol s).response = s.response := rfl
@[simp] theorem startSymbol_commands (s : State) : (startSymbol s).commands = s.commands := rfl
@[simp] theorem startSymbol_sources (s : State) : (startSymbol s).sources = s.sources := rfl
@[simp] theorem startSymbol_draws (s : State) : (startSymbol s).draws = s.draws := rfl
@[simp] theorem startSymbol_tablesBeyondRoot (s : State) : (startSymbol s).tablesBeyondRoot = s.tablesBeyondRoot := rfl

/-! ### Following a continuation (spec/42_decode.md R204) -/

@[simp] theorem followCont_acc (e : Entry) (s : State) : (followCont e s).acc = s.acc >>> 8 := rfl
@[simp] theorem followCont_nacc (e : Entry) (s : State) : (followCont e s).nacc = s.nacc - BitVec.ofNat 7 8 := rfl
@[simp] theorem followCont_remaining (e : Entry) (s : State) : (followCont e s).remaining = s.remaining - BitVec.ofNat 56 8 := rfl
@[simp] theorem followCont_budget0 (e : Entry) (s : State) : (followCont e s).budget0 = s.budget0 := rfl
@[simp] theorem followCont_srcpos (e : Entry) (s : State) : (followCont e s).srcpos = s.srcpos := rfl
@[simp] theorem followCont_outcnt (e : Entry) (s : State) : (followCont e s).outcnt = s.outcnt := rfl
@[simp] theorem followCont_cur (e : Entry) (s : State) : (followCont e s).cur = e.payload.setWidth 17 := rfl
@[simp] theorem followCont_level (e : Entry) (s : State) : (followCont e s).level = s.level + 1 := rfl
@[simp] theorem followCont_rerr (e : Entry) (s : State) : (followCont e s).rerr = s.rerr := rfl
@[simp] theorem followCont_terr (e : Entry) (s : State) : (followCont e s).terr = s.terr := rfl
@[simp] theorem followCont_nsym (e : Entry) (s : State) : (followCont e s).nsym = s.nsym := rfl
@[simp] theorem followCont_ntab (e : Entry) (s : State) : (followCont e s).ntab = s.ntab := rfl
@[simp] theorem followCont_rstate (e : Entry) (s : State) : (followCont e s).rstate = s.rstate := rfl
@[simp] theorem followCont_tstate (e : Entry) (s : State) : (followCont e s).tstate = s.tstate := rfl
@[simp] theorem followCont_code (e : Entry) (s : State) : (followCont e s).code = s.code := rfl
@[simp] theorem followCont_table (e : Entry) (s : State) : (followCont e s).table = s.table := rfl
@[simp] theorem followCont_out (e : Entry) (s : State) : (followCont e s).out = s.out := rfl
@[simp] theorem followCont_src (e : Entry) (s : State) : (followCont e s).src = s.src := rfl
@[simp] theorem followCont_response (e : Entry) (s : State) : (followCont e s).response = s.response := rfl
@[simp] theorem followCont_commands (e : Entry) (s : State) : (followCont e s).commands = s.commands := rfl
@[simp] theorem followCont_sources (e : Entry) (s : State) : (followCont e s).sources = s.sources := rfl
@[simp] theorem followCont_draws (e : Entry) (s : State) : (followCont e s).draws = s.draws := rfl
@[simp] theorem followCont_tablesBeyondRoot (e : Entry) (s : State) : (followCont e s).tablesBeyondRoot = s.tablesBeyondRoot := rfl

/-! ### Reset in front of the same environment (spec/43_system.md R230) -/

@[simp] theorem resetKeepingEnvironment_acc (s : State) : (resetKeepingEnvironment s).acc = State.reset.acc := rfl
@[simp] theorem resetKeepingEnvironment_nacc (s : State) : (resetKeepingEnvironment s).nacc = State.reset.nacc := rfl
@[simp] theorem resetKeepingEnvironment_remaining (s : State) : (resetKeepingEnvironment s).remaining = State.reset.remaining := rfl
@[simp] theorem resetKeepingEnvironment_budget0 (s : State) : (resetKeepingEnvironment s).budget0 = State.reset.budget0 := rfl
@[simp] theorem resetKeepingEnvironment_srcpos (s : State) : (resetKeepingEnvironment s).srcpos = State.reset.srcpos := rfl
@[simp] theorem resetKeepingEnvironment_outcnt (s : State) : (resetKeepingEnvironment s).outcnt = State.reset.outcnt := rfl
@[simp] theorem resetKeepingEnvironment_cur (s : State) : (resetKeepingEnvironment s).cur = State.reset.cur := rfl
@[simp] theorem resetKeepingEnvironment_level (s : State) : (resetKeepingEnvironment s).level = State.reset.level := rfl
@[simp] theorem resetKeepingEnvironment_rerr (s : State) : (resetKeepingEnvironment s).rerr = State.reset.rerr := rfl
@[simp] theorem resetKeepingEnvironment_terr (s : State) : (resetKeepingEnvironment s).terr = State.reset.terr := rfl
@[simp] theorem resetKeepingEnvironment_nsym (s : State) : (resetKeepingEnvironment s).nsym = State.reset.nsym := rfl
@[simp] theorem resetKeepingEnvironment_ntab (s : State) : (resetKeepingEnvironment s).ntab = State.reset.ntab := rfl
@[simp] theorem resetKeepingEnvironment_rstate (s : State) : (resetKeepingEnvironment s).rstate = State.reset.rstate := rfl
@[simp] theorem resetKeepingEnvironment_tstate (s : State) : (resetKeepingEnvironment s).tstate = State.reset.tstate := rfl
@[simp] theorem resetKeepingEnvironment_code (s : State) : (resetKeepingEnvironment s).code = State.reset.code := rfl
@[simp] theorem resetKeepingEnvironment_table (s : State) : (resetKeepingEnvironment s).table = State.reset.table := rfl
@[simp] theorem resetKeepingEnvironment_out (s : State) : (resetKeepingEnvironment s).out = State.reset.out := rfl
@[simp] theorem resetKeepingEnvironment_src (s : State) : (resetKeepingEnvironment s).src = State.reset.src := rfl
@[simp] theorem resetKeepingEnvironment_response (s : State) : (resetKeepingEnvironment s).response = s.response := rfl
@[simp] theorem resetKeepingEnvironment_commands (s : State) : (resetKeepingEnvironment s).commands = s.commands := rfl
@[simp] theorem resetKeepingEnvironment_sources (s : State) : (resetKeepingEnvironment s).sources = s.sources := rfl
@[simp] theorem resetKeepingEnvironment_draws (s : State) : (resetKeepingEnvironment s).draws = s.draws := rfl
@[simp] theorem resetKeepingEnvironment_tablesBeyondRoot (s : State) : (resetKeepingEnvironment s).tablesBeyondRoot = s.tablesBeyondRoot := rfl

/-! ### Latching a fault (spec/60_exceptions.md R254) -/

@[simp] theorem latch_acc (f : ReaderFault) (s : State) : (latch f s).acc = s.acc := by
  unfold latch; split <;> rfl
@[simp] theorem latch_nacc (f : ReaderFault) (s : State) : (latch f s).nacc = s.nacc := by
  unfold latch; split <;> rfl
@[simp] theorem latch_remaining (f : ReaderFault) (s : State) : (latch f s).remaining = s.remaining := by
  unfold latch; split <;> rfl
@[simp] theorem latch_budget0 (f : ReaderFault) (s : State) : (latch f s).budget0 = s.budget0 := by
  unfold latch; split <;> rfl
@[simp] theorem latch_srcpos (f : ReaderFault) (s : State) : (latch f s).srcpos = s.srcpos := by
  unfold latch; split <;> rfl
@[simp] theorem latch_outcnt (f : ReaderFault) (s : State) : (latch f s).outcnt = s.outcnt := by
  unfold latch; split <;> rfl
@[simp] theorem latch_cur (f : ReaderFault) (s : State) : (latch f s).cur = s.cur := by
  unfold latch; split <;> rfl
@[simp] theorem latch_level (f : ReaderFault) (s : State) : (latch f s).level = s.level := by
  unfold latch; split <;> rfl
@[simp] theorem latch_rerr (f : ReaderFault) (s : State) :
    (latch f s).rerr = if s.rerr = 0 then readerFaultCode f else s.rerr := by
  unfold latch; split <;> simp_all
@[simp] theorem latch_terr (f : ReaderFault) (s : State) : (latch f s).terr = s.terr := by
  unfold latch; split <;> rfl
@[simp] theorem latch_nsym (f : ReaderFault) (s : State) : (latch f s).nsym = s.nsym := by
  unfold latch; split <;> rfl
@[simp] theorem latch_ntab (f : ReaderFault) (s : State) : (latch f s).ntab = s.ntab := by
  unfold latch; split <;> rfl
@[simp] theorem latch_rstate (f : ReaderFault) (s : State) : (latch f s).rstate = s.rstate := by
  unfold latch; split <;> rfl
@[simp] theorem latch_tstate (f : ReaderFault) (s : State) : (latch f s).tstate = s.tstate := by
  unfold latch; split <;> rfl
@[simp] theorem latch_code (f : ReaderFault) (s : State) : (latch f s).code = s.code := by
  unfold latch; split <;> rfl
@[simp] theorem latch_table (f : ReaderFault) (s : State) : (latch f s).table = s.table := by
  unfold latch; split <;> rfl
@[simp] theorem latch_out (f : ReaderFault) (s : State) : (latch f s).out = s.out := by
  unfold latch; split <;> rfl
@[simp] theorem latch_src (f : ReaderFault) (s : State) : (latch f s).src = s.src := by
  unfold latch; split <;> rfl
@[simp] theorem latch_response (f : ReaderFault) (s : State) : (latch f s).response = s.response := by
  unfold latch; split <;> rfl
@[simp] theorem latch_commands (f : ReaderFault) (s : State) : (latch f s).commands = s.commands := by
  unfold latch; split <;> rfl
@[simp] theorem latch_sources (f : ReaderFault) (s : State) : (latch f s).sources = s.sources := by
  unfold latch; split <;> rfl
@[simp] theorem latch_draws (f : ReaderFault) (s : State) : (latch f s).draws = s.draws := by
  unfold latch; split <;> rfl
@[simp] theorem latch_tablesBeyondRoot (f : ReaderFault) (s : State) : (latch f s).tablesBeyondRoot = s.tablesBeyondRoot := by
  unfold latch; split <;> rfl

/-! ### Binding a source (spec/40_bitreader.md R141) -/

@[simp] theorem bindSource_acc (s : State) : (bindSource s).acc = s.acc := by
  unfold bindSource; split <;> rfl
@[simp] theorem bindSource_nacc (s : State) : (bindSource s).nacc = s.nacc := by
  unfold bindSource; split <;> rfl
@[simp] theorem bindSource_remaining (s : State) : (bindSource s).remaining = s.remaining := by
  unfold bindSource; split <;> rfl
@[simp] theorem bindSource_budget0 (s : State) : (bindSource s).budget0 = s.budget0 := by
  unfold bindSource; split <;> rfl
@[simp] theorem bindSource_srcpos (s : State) : (bindSource s).srcpos = s.srcpos := by
  unfold bindSource; split <;> rfl
@[simp] theorem bindSource_outcnt (s : State) : (bindSource s).outcnt = s.outcnt := by
  unfold bindSource; split <;> rfl
@[simp] theorem bindSource_cur (s : State) : (bindSource s).cur = s.cur := by
  unfold bindSource; split <;> rfl
@[simp] theorem bindSource_level (s : State) : (bindSource s).level = s.level := by
  unfold bindSource; split <;> rfl
@[simp] theorem bindSource_rerr (s : State) : (bindSource s).rerr = s.rerr := by
  unfold bindSource; split <;> rfl
@[simp] theorem bindSource_terr (s : State) : (bindSource s).terr = s.terr := by
  unfold bindSource; split <;> rfl
@[simp] theorem bindSource_nsym (s : State) : (bindSource s).nsym = s.nsym := by
  unfold bindSource; split <;> rfl
@[simp] theorem bindSource_ntab (s : State) : (bindSource s).ntab = s.ntab := by
  unfold bindSource; split <;> rfl
@[simp] theorem bindSource_rstate (s : State) : (bindSource s).rstate = s.rstate := by
  unfold bindSource; split <;> rfl
@[simp] theorem bindSource_tstate (s : State) : (bindSource s).tstate = s.tstate := by
  unfold bindSource; split <;> rfl
@[simp] theorem bindSource_code (s : State) : (bindSource s).code = s.code := by
  unfold bindSource; split <;> rfl
@[simp] theorem bindSource_table (s : State) : (bindSource s).table = s.table := by
  unfold bindSource; split <;> rfl
@[simp] theorem bindSource_out (s : State) : (bindSource s).out = s.out := by
  unfold bindSource; split <;> rfl
@[simp] theorem bindSource_response (s : State) : (bindSource s).response = s.response := by
  unfold bindSource; split <;> rfl
@[simp] theorem bindSource_commands (s : State) : (bindSource s).commands = s.commands := by
  unfold bindSource; split <;> rfl
@[simp] theorem bindSource_tablesBeyondRoot (s : State) : (bindSource s).tablesBeyondRoot = s.tablesBeyondRoot := by
  unfold bindSource; split <;> rfl

/-! ### The choice of how many bytes to answer with (spec/00_scope.md R14) -/

@[simp] theorem nextChunk_acc (k : Nat) (s : State) : (nextChunk k s).2.acc = s.acc := by
  unfold nextChunk; split <;> rfl
@[simp] theorem nextChunk_nacc (k : Nat) (s : State) : (nextChunk k s).2.nacc = s.nacc := by
  unfold nextChunk; split <;> rfl
@[simp] theorem nextChunk_remaining (k : Nat) (s : State) : (nextChunk k s).2.remaining = s.remaining := by
  unfold nextChunk; split <;> rfl
@[simp] theorem nextChunk_budget0 (k : Nat) (s : State) : (nextChunk k s).2.budget0 = s.budget0 := by
  unfold nextChunk; split <;> rfl
@[simp] theorem nextChunk_srcpos (k : Nat) (s : State) : (nextChunk k s).2.srcpos = s.srcpos := by
  unfold nextChunk; split <;> rfl
@[simp] theorem nextChunk_outcnt (k : Nat) (s : State) : (nextChunk k s).2.outcnt = s.outcnt := by
  unfold nextChunk; split <;> rfl
@[simp] theorem nextChunk_cur (k : Nat) (s : State) : (nextChunk k s).2.cur = s.cur := by
  unfold nextChunk; split <;> rfl
@[simp] theorem nextChunk_level (k : Nat) (s : State) : (nextChunk k s).2.level = s.level := by
  unfold nextChunk; split <;> rfl
@[simp] theorem nextChunk_rerr (k : Nat) (s : State) : (nextChunk k s).2.rerr = s.rerr := by
  unfold nextChunk; split <;> rfl
@[simp] theorem nextChunk_terr (k : Nat) (s : State) : (nextChunk k s).2.terr = s.terr := by
  unfold nextChunk; split <;> rfl
@[simp] theorem nextChunk_nsym (k : Nat) (s : State) : (nextChunk k s).2.nsym = s.nsym := by
  unfold nextChunk; split <;> rfl
@[simp] theorem nextChunk_ntab (k : Nat) (s : State) : (nextChunk k s).2.ntab = s.ntab := by
  unfold nextChunk; split <;> rfl
@[simp] theorem nextChunk_rstate (k : Nat) (s : State) : (nextChunk k s).2.rstate = s.rstate := by
  unfold nextChunk; split <;> rfl
@[simp] theorem nextChunk_tstate (k : Nat) (s : State) : (nextChunk k s).2.tstate = s.tstate := by
  unfold nextChunk; split <;> rfl
@[simp] theorem nextChunk_code (k : Nat) (s : State) : (nextChunk k s).2.code = s.code := by
  unfold nextChunk; split <;> rfl
@[simp] theorem nextChunk_table (k : Nat) (s : State) : (nextChunk k s).2.table = s.table := by
  unfold nextChunk; split <;> rfl
@[simp] theorem nextChunk_out (k : Nat) (s : State) : (nextChunk k s).2.out = s.out := by
  unfold nextChunk; split <;> rfl
@[simp] theorem nextChunk_response (k : Nat) (s : State) : (nextChunk k s).2.response = s.response := by
  unfold nextChunk; split <;> rfl
@[simp] theorem nextChunk_commands (k : Nat) (s : State) : (nextChunk k s).2.commands = s.commands := by
  unfold nextChunk; split <;> rfl
@[simp] theorem nextChunk_sources (k : Nat) (s : State) : (nextChunk k s).2.sources = s.sources := by
  unfold nextChunk; split <;> rfl
@[simp] theorem nextChunk_tablesBeyondRoot (k : Nat) (s : State) : (nextChunk k s).2.tablesBeyondRoot = s.tablesBeyondRoot := by
  unfold nextChunk; split <;> rfl
@[simp] theorem nextChunk_src_bytes (k : Nat) (s : State) : (nextChunk k s).2.src.bytes = s.src.bytes := by
  unfold nextChunk; split <;> rfl
@[simp] theorem nextChunk_src_ending (k : Nat) (s : State) : (nextChunk k s).2.src.ending = s.src.ending := by
  unfold nextChunk; split <;> rfl

end Sys2Proof.Machine
end

