-- ==== Sys2Proof/Laws/Reader.lean ====
section
/-! SUPPORT. What SrcRead, Refill and Consume can do, said once; and that they keep the reader's invariants
(spec/00_scope.md R14, spec/40_bitreader.md R145 to R148, spec/10_state.md R23, R24). -/

namespace Sys2Proof.Machine

open Sys2Proof.Config

/-! ### Taking bytes into ACC -/

@[simp] theorem appendBytes_remaining (bs : List Byte) (s : State) : (appendBytes bs s).remaining = s.remaining := by
  induction bs generalizing s with
  | nil => rfl
  | cons b bs ih => simp [appendBytes, ih]

@[simp] theorem appendBytes_budget0 (bs : List Byte) (s : State) : (appendBytes bs s).budget0 = s.budget0 := by
  induction bs generalizing s with
  | nil => rfl
  | cons b bs ih => simp [appendBytes, ih]

@[simp] theorem appendBytes_outcnt (bs : List Byte) (s : State) : (appendBytes bs s).outcnt = s.outcnt := by
  induction bs generalizing s with
  | nil => rfl
  | cons b bs ih => simp [appendBytes, ih]

@[simp] theorem appendBytes_cur (bs : List Byte) (s : State) : (appendBytes bs s).cur = s.cur := by
  induction bs generalizing s with
  | nil => rfl
  | cons b bs ih => simp [appendBytes, ih]

@[simp] theorem appendBytes_level (bs : List Byte) (s : State) : (appendBytes bs s).level = s.level := by
  induction bs generalizing s with
  | nil => rfl
  | cons b bs ih => simp [appendBytes, ih]

@[simp] theorem appendBytes_rerr (bs : List Byte) (s : State) : (appendBytes bs s).rerr = s.rerr := by
  induction bs generalizing s with
  | nil => rfl
  | cons b bs ih => simp [appendBytes, ih]

@[simp] theorem appendBytes_terr (bs : List Byte) (s : State) : (appendBytes bs s).terr = s.terr := by
  induction bs generalizing s with
  | nil => rfl
  | cons b bs ih => simp [appendBytes, ih]

@[simp] theorem appendBytes_nsym (bs : List Byte) (s : State) : (appendBytes bs s).nsym = s.nsym := by
  induction bs generalizing s with
  | nil => rfl
  | cons b bs ih => simp [appendBytes, ih]

@[simp] theorem appendBytes_ntab (bs : List Byte) (s : State) : (appendBytes bs s).ntab = s.ntab := by
  induction bs generalizing s with
  | nil => rfl
  | cons b bs ih => simp [appendBytes, ih]

@[simp] theorem appendBytes_rstate (bs : List Byte) (s : State) : (appendBytes bs s).rstate = s.rstate := by
  induction bs generalizing s with
  | nil => rfl
  | cons b bs ih => simp [appendBytes, ih]

@[simp] theorem appendBytes_tstate (bs : List Byte) (s : State) : (appendBytes bs s).tstate = s.tstate := by
  induction bs generalizing s with
  | nil => rfl
  | cons b bs ih => simp [appendBytes, ih]

@[simp] theorem appendBytes_code (bs : List Byte) (s : State) : (appendBytes bs s).code = s.code := by
  induction bs generalizing s with
  | nil => rfl
  | cons b bs ih => simp [appendBytes, ih]

@[simp] theorem appendBytes_table (bs : List Byte) (s : State) : (appendBytes bs s).table = s.table := by
  induction bs generalizing s with
  | nil => rfl
  | cons b bs ih => simp [appendBytes, ih]

@[simp] theorem appendBytes_out (bs : List Byte) (s : State) : (appendBytes bs s).out = s.out := by
  induction bs generalizing s with
  | nil => rfl
  | cons b bs ih => simp [appendBytes, ih]

@[simp] theorem appendBytes_src (bs : List Byte) (s : State) : (appendBytes bs s).src = s.src := by
  induction bs generalizing s with
  | nil => rfl
  | cons b bs ih => simp [appendBytes, ih]

@[simp] theorem appendBytes_response (bs : List Byte) (s : State) : (appendBytes bs s).response = s.response := by
  induction bs generalizing s with
  | nil => rfl
  | cons b bs ih => simp [appendBytes, ih]

@[simp] theorem appendBytes_commands (bs : List Byte) (s : State) : (appendBytes bs s).commands = s.commands := by
  induction bs generalizing s with
  | nil => rfl
  | cons b bs ih => simp [appendBytes, ih]

@[simp] theorem appendBytes_sources (bs : List Byte) (s : State) : (appendBytes bs s).sources = s.sources := by
  induction bs generalizing s with
  | nil => rfl
  | cons b bs ih => simp [appendBytes, ih]

@[simp] theorem appendBytes_draws (bs : List Byte) (s : State) : (appendBytes bs s).draws = s.draws := by
  induction bs generalizing s with
  | nil => rfl
  | cons b bs ih => simp [appendBytes, ih]

@[simp] theorem appendBytes_tablesBeyondRoot (bs : List Byte) (s : State) : (appendBytes bs s).tablesBeyondRoot = s.tablesBeyondRoot := by
  induction bs generalizing s with
  | nil => rfl
  | cons b bs ih => simp [appendBytes, ih]

theorem appendBytes_nacc (bs : List Byte) (s : State) (h : s.nacc.toNat + 8 * bs.length < 128) :
    (appendBytes bs s).nacc.toNat = s.nacc.toNat + 8 * bs.length := by
  induction bs generalizing s with
  | nil => simp [appendBytes]
  | cons b bs ih =>
    simp only [List.length_cons] at h
    have h1 : (appendByte b s).nacc.toNat = s.nacc.toNat + 8 := by
      simp [BitVec.toNat_add]; omega
    rw [appendBytes, ih _ (by omega), h1, List.length_cons]
    omega

theorem appendBytes_srcpos (bs : List Byte) (s : State) (h : s.srcpos.toNat + bs.length < 2 ^ 56) :
    (appendBytes bs s).srcpos.toNat = s.srcpos.toNat + bs.length := by
  induction bs generalizing s with
  | nil => simp [appendBytes]
  | cons b bs ih =>
    simp only [List.length_cons] at h
    have h1 : (appendByte b s).srcpos.toNat = s.srcpos.toNat + 1 := by
      simp [BitVec.toNat_add]; omega
    rw [appendBytes, ih _ (by omega), h1, List.length_cons]
    omega

/-- ACC after a byte is taken: the byte above the pending bits, the pending bits below
(spec/40_bitreader.md R146). -/
theorem appendByte_acc_bit (b : Byte) (s : State) (j : Nat) :
    (appendByte b s).acc.getLsbD j
      = (s.acc.getLsbD j || (decide (j < 64) && decide (s.nacc.toNat ≤ j) && b.getLsbD (j - s.nacc.toNat))) := by
  simp only [appendByte_acc, BitVec.getLsbD_or, BitVec.getLsbD_shiftLeft, BitVec.getLsbD_setWidth]
  have h64 : j < 64 → j - s.nacc.toNat < 64 := fun h => by omega
  by_cases hj : j < 64 <;> by_cases hn : s.nacc.toNat ≤ j <;> simp [hj, hn, h64, Nat.not_lt.2, Nat.lt_of_not_le]

/-! ### SrcRead -/

theorem clampChunk_pos (k c : Nat) : 1 ≤ clampChunk k c := by unfold clampChunk; omega

theorem clampChunk_le {k : Nat} (hk : 1 ≤ k) (c : Nat) : clampChunk k c ≤ k := by unfold clampChunk; omega

theorem nextChunk_range {k : Nat} (hk : 1 ≤ k) (s : State) : 1 ≤ (nextChunk k s).1 ∧ (nextChunk k s).1 ≤ k := by
  unfold nextChunk
  split
  · exact ⟨clampChunk_pos _ _, clampChunk_le hk _⟩
  · exact ⟨clampChunk_pos _ _, clampChunk_le hk _⟩

/-- The fault a source that ends under the budget causes (spec/40_bitreader.md R145). -/
def endFault : SourceEnd → ReaderFault
  | .eos => .unexpectedEOF
  | .err => .sourceError

/-- Every answer of SrcRead (spec/00_scope.md R14): the end of the source where no byte is left; else the
next bytes in order, at least one and at most k. -/
theorem srcRead_cases {k : Nat} (hk : 1 ≤ k) (s : State) :
    (s.src.bytes.length ≤ s.srcpos.toNat ∧
      ((s.src.ending = .eos ∧ srcRead k s = (.eos, s)) ∨ (s.src.ending = .err ∧ srcRead k s = (.err, s)))) ∨
    (∃ bs, 1 ≤ bs.length ∧ bs.length ≤ k ∧ s.srcpos.toNat + bs.length ≤ s.src.bytes.length ∧
      (∀ i, i < bs.length → bs.getD i 0 = s.src.bytes.getD (s.srcpos.toNat + i) 0) ∧
      srcRead k s = (.bytes bs, (nextChunk k s).2)) := by
  obtain ⟨hc1, hc2⟩ := nextChunk_range hk s
  unfold srcRead
  split
  · rename_i h
    refine .inl ⟨by simpa using h, ?_⟩
    cases he : s.src.ending <;> simp
  · rename_i b bs h
    have hlen : (b :: bs).length = s.src.bytes.length - s.srcpos.toNat := by rw [← h, List.length_drop]
    refine .inr ⟨(b :: bs).take (nextChunk k s).1, ?_, ?_, ?_, ?_, rfl⟩
    · simp only [List.length_take, List.length_cons]; omega
    · simp only [List.length_take]; omega
    · simp only [List.length_take, hlen]
      simp only [List.length_cons] at hlen
      omega
    · intro i hi
      simp only [List.length_take] at hi
      rw [← h]
      simp only [List.getD_eq_getElem?_getD, List.getElem?_take, List.getElem?_drop]
      rw [if_pos (by omega)]

/-! ### Refill -/

/-- Where Refill asks the source, it asks for 1 to 4 bytes (spec/40_bitreader.md R147). -/
theorem refillAsk_range {s : State} (h : s.nacc.toNat < s.remaining.toNat) : 1 ≤ refillAsk s ∧ refillAsk s ≤ 4 := by
  unfold refillAsk Config.chunkMax; omega

/-- Everything Refill can do (spec/40_bitreader.md R145): nothing where enough bits are pending; else it takes the
bytes of one answer, or meets the end of the source and raises its fault with nothing changed. -/
theorem refill_cases {want : Nat} {s : State} (hrem : want ≤ s.remaining.toNat) :
    (want ≤ s.nacc.toNat ∧ refill want s = .done () s) ∨
    (s.nacc.toNat < want ∧ s.src.bytes.length ≤ s.srcpos.toNat ∧
      refill want s = .raised (endFault s.src.ending) s) ∨
    (s.nacc.toNat < want ∧ ∃ bs, 1 ≤ bs.length ∧ bs.length ≤ refillAsk s ∧ refillAsk s ≤ 4 ∧
      s.srcpos.toNat + bs.length ≤ s.src.bytes.length ∧
      (∀ i, i < bs.length → bs.getD i 0 = s.src.bytes.getD (s.srcpos.toNat + i) 0) ∧
      refill want s = .done () (appendBytes bs (nextChunk (refillAsk s) s).2)) := by
  unfold refill
  split
  · rename_i h
    have hask := refillAsk_range (s := s) (by omega)
    rcases srcRead_cases hask.1 s with ⟨hnone, h1 | h1⟩ | ⟨bs, h1, h2, h3, h4, h5⟩
    · exact .inr (.inl ⟨h, hnone, by rw [h1.2, h1.1]; rfl⟩)
    · exact .inr (.inl ⟨h, hnone, by rw [h1.2, h1.1]; rfl⟩)
    · exact .inr (.inr ⟨h, bs, h1, h2, hask.2, h3, h4, by rw [h5]⟩)
  · exact .inl ⟨by omega, rfl⟩

/-- A Refill that succeeds leaves enough bits pending: the loop `while NACC < want` needs no second turn
(spec/40_bitreader.md R145). -/
theorem refill_enough {want : Nat} {s s' : State} (hrem : want ≤ s.remaining.toNat) (hw : want ≤ 8)
    (h : refill want s = .done () s') : want ≤ s'.nacc.toNat := by
  rcases refill_cases hrem with ⟨h1, h2⟩ | ⟨-, -, h2⟩ | ⟨h1, bs, h3, h4, h5, -, -, h2⟩ <;> rw [h2] at h
  · cases h; exact h1
  · cases h
  · cases h
    rw [appendBytes_nacc _ _ (by simp only [nextChunk_nacc]; omega)]
    simp only [nextChunk_nacc]; omega

/-! ### Frames: what the reader's procedures leave alone -/

theorem sameButChunking_refl (s : State) : SameButChunking s s :=
  ⟨s.acc, s.nacc, s.srcpos, s.src.chunks, s.draws, rfl⟩

theorem sameButChunking_trans {s t u : State} (h1 : SameButChunking s t) (h2 : SameButChunking t u) :
    SameButChunking s u := by
  obtain ⟨a, b, c, d, e, rfl⟩ := h1
  obtain ⟨a', b', c', d', e', rfl⟩ := h2
  exact ⟨a', b', c', d', e', rfl⟩

theorem sameButChunking_symm {s t : State} (h : SameButChunking s t) : SameButChunking t s := by
  obtain ⟨a, b, c, d, e, rfl⟩ := h
  exact ⟨s.acc, s.nacc, s.srcpos, s.src.chunks, s.draws, rfl⟩

theorem nextChunk_same (k : Nat) (s : State) : SameButChunking s (nextChunk k s).2 := by
  unfold nextChunk
  split
  · exact ⟨s.acc, s.nacc, s.srcpos, _, s.draws, rfl⟩
  · exact ⟨s.acc, s.nacc, s.srcpos, s.src.chunks, s.draws + 1, rfl⟩

theorem appendBytes_same (bs : List Byte) (s : State) : SameButChunking s (appendBytes bs s) := by
  induction bs generalizing s with
  | nil => exact sameButChunking_refl s
  | cons b bs ih =>
    exact sameButChunking_trans (t := appendByte b s) ⟨_, _, _, s.src.chunks, s.draws, rfl⟩ (ih _)

theorem srcRead_same (k : Nat) (s : State) : SameButChunking s (srcRead k s).2 := by
  unfold srcRead
  split
  · split <;> exact sameButChunking_refl s
  · exact nextChunk_same k s

/-- Refill changes nothing but ACC, NACC, SRCPOS and the source's choices. -/
theorem refill_same {want : Nat} {s s' : State} {u : Unit} (h : refill want s = .done u s') :
    SameButChunking s s' := by
  unfold refill at h
  split at h
  · have hs := srcRead_same (refillAsk s) s
    revert h hs
    generalize srcRead (refillAsk s) s = r
    obtain ⟨r, t⟩ := r
    cases r <;> intro h hs <;> simp at h
    subst h
    exact sameButChunking_trans hs (appendBytes_same _ _)
  · cases h; exact sameButChunking_refl s

/-- A Refill that raises a fault changes nothing but those either. -/
theorem refill_raised_same {want : Nat} {s s' : State} {f : ReaderFault} (h : refill want s = .raised f s') :
    SameButChunking s s' := by
  unfold refill at h
  split at h
  · have hs := srcRead_same (refillAsk s) s
    revert h hs
    generalize srcRead (refillAsk s) s = r
    obtain ⟨r, t⟩ := r
    cases r <;> intro h hs <;> simp at h
    · exact h.2 ▸ hs
    · exact h.2 ▸ hs
  · cases h

section Same

variable {s t : State}

theorem same_remaining (h : SameButChunking s t) : t.remaining = s.remaining := by
  obtain ⟨_, _, _, _, _, rfl⟩ := h; rfl

theorem same_budget0 (h : SameButChunking s t) : t.budget0 = s.budget0 := by
  obtain ⟨_, _, _, _, _, rfl⟩ := h; rfl

theorem same_outcnt (h : SameButChunking s t) : t.outcnt = s.outcnt := by
  obtain ⟨_, _, _, _, _, rfl⟩ := h; rfl

theorem same_cur (h : SameButChunking s t) : t.cur = s.cur := by
  obtain ⟨_, _, _, _, _, rfl⟩ := h; rfl

theorem same_level (h : SameButChunking s t) : t.level = s.level := by
  obtain ⟨_, _, _, _, _, rfl⟩ := h; rfl

theorem same_rerr (h : SameButChunking s t) : t.rerr = s.rerr := by
  obtain ⟨_, _, _, _, _, rfl⟩ := h; rfl

theorem same_terr (h : SameButChunking s t) : t.terr = s.terr := by
  obtain ⟨_, _, _, _, _, rfl⟩ := h; rfl

theorem same_nsym (h : SameButChunking s t) : t.nsym = s.nsym := by
  obtain ⟨_, _, _, _, _, rfl⟩ := h; rfl

theorem same_ntab (h : SameButChunking s t) : t.ntab = s.ntab := by
  obtain ⟨_, _, _, _, _, rfl⟩ := h; rfl

theorem same_rstate (h : SameButChunking s t) : t.rstate = s.rstate := by
  obtain ⟨_, _, _, _, _, rfl⟩ := h; rfl

theorem same_tstate (h : SameButChunking s t) : t.tstate = s.tstate := by
  obtain ⟨_, _, _, _, _, rfl⟩ := h; rfl

theorem same_code (h : SameButChunking s t) : t.code = s.code := by
  obtain ⟨_, _, _, _, _, rfl⟩ := h; rfl

theorem same_table (h : SameButChunking s t) : t.table = s.table := by
  obtain ⟨_, _, _, _, _, rfl⟩ := h; rfl

theorem same_out (h : SameButChunking s t) : t.out = s.out := by
  obtain ⟨_, _, _, _, _, rfl⟩ := h; rfl

theorem same_response (h : SameButChunking s t) : t.response = s.response := by
  obtain ⟨_, _, _, _, _, rfl⟩ := h; rfl

theorem same_commands (h : SameButChunking s t) : t.commands = s.commands := by
  obtain ⟨_, _, _, _, _, rfl⟩ := h; rfl

theorem same_sources (h : SameButChunking s t) : t.sources = s.sources := by
  obtain ⟨_, _, _, _, _, rfl⟩ := h; rfl

theorem same_tablesBeyondRoot (h : SameButChunking s t) : t.tablesBeyondRoot = s.tablesBeyondRoot := by
  obtain ⟨_, _, _, _, _, rfl⟩ := h; rfl

theorem same_bytes (h : SameButChunking s t) : t.src.bytes = s.src.bytes := by
  obtain ⟨_, _, _, _, _, rfl⟩ := h; rfl

theorem same_ending (h : SameButChunking s t) : t.src.ending = s.src.ending := by
  obtain ⟨_, _, _, _, _, rfl⟩ := h; rfl

theorem same_bitpos (h : SameButChunking s t) : bitpos t = bitpos s := by
  obtain ⟨_, _, _, _, _, rfl⟩ := h; rfl

end Same

/-! ### The reader's invariants through Refill and Consume -/

/-- The invariant of a bound reader (spec/10_state.md R23, R24). -/
def Bound (s : State) : Prop := ReaderBounds s ∧ PendingAreStreamBits s

theorem nextChunk_bound {s : State} (h : Bound s) (k : Nat) : Bound (nextChunk k s).2 := by
  obtain ⟨⟨h1, h2, h3, h4, h5, h6, h7⟩, h8, h9⟩ := h
  have hb : bitpos (nextChunk k s).2 = bitpos s := same_bitpos (nextChunk_same k s)
  exact ⟨⟨by simpa, by simpa, by simpa, by simpa, by simpa, by simpa, by simpa⟩, by simpa, by simpa [hb]⟩

/-- Taking the next byte of the source keeps the reader's invariant, where the byte holds a bit of the
budget and fewer than 32 bits are pending. -/
theorem appendByte_bound {s : State} {b : Byte} (h : Bound s) (hn : s.nacc.toNat < 32)
    (hrem : s.nacc.toNat < s.remaining.toNat) (hlen : s.srcpos.toNat < s.src.bytes.length)
    (hb : b = s.src.bytes.getD s.srcpos.toNat 0) : Bound (appendByte b s) := by
  obtain ⟨⟨h1, h2, h3, h4, h5, h6, h7⟩, h8, h9⟩ := h
  have hnacc : (appendByte b s).nacc.toNat = s.nacc.toNat + 8 := by
    simp [BitVec.toNat_add]; omega
  have hlt := s.budget0.isLt
  have hsrc : (appendByte b s).srcpos.toNat = s.srcpos.toNat + 1 := by
    simp [BitVec.toNat_add]; omega
  have hbit : bitpos (appendByte b s) = bitpos s := rfl
  refine ⟨⟨by omega, ?_, ?_, ?_, ?_, by simpa, by simpa⟩, ?_, ?_⟩
  rotate_left
  · rw [hnacc, hsrc]; simp only [appendByte_remaining, appendByte_budget0]; omega
  · rw [hnacc]; simp only [appendByte_remaining]; omega
  · rw [hsrc]; simp only [appendByte_budget0]; omega
  · rw [hsrc]; simp only [appendByte_src]; omega
  rotate_left
  · intro j hj
    rw [hnacc] at hj
    rw [appendByte_acc_bit, h2 j (by omega), BitVec.getLsbD_of_ge b _ (by omega)]
    simp
  · intro j hj
    rw [hnacc] at hj
    rw [appendByte_acc_bit, hbit]
    by_cases hjn : j < s.nacc.toNat
    · simp [h9 j hjn, Nat.not_le.2 hjn]
    · rw [h2 j (by omega)]
      have hpos : bitpos s + j = 8 * s.srcpos.toNat + (j - s.nacc.toNat) := by unfold bitpos; omega
      simp only [appendByte_src, streamBit, hpos]
      have hd : (8 * s.srcpos.toNat + (j - s.nacc.toNat)) / 8 = s.srcpos.toNat := by omega
      have hm : (8 * s.srcpos.toNat + (j - s.nacc.toNat)) % 8 = j - s.nacc.toNat := by omega
      rw [hd, hm, ← hb]
      simp [show j < 64 by omega, show s.nacc.toNat ≤ j by omega]

/-- Taking the next bytes of the source, no more than hold budgeted bits, keeps the reader's invariant. -/
theorem appendBytes_bound {bs : List Byte} {s : State} (h : Bound s)
    (hn : s.nacc.toNat + 8 * bs.length < 40)
    (hrem : s.nacc.toNat + 8 * bs.length ≤ s.remaining.toNat + 7)
    (hlen : s.srcpos.toNat + bs.length ≤ s.src.bytes.length)
    (hb : ∀ i, i < bs.length → bs.getD i 0 = s.src.bytes.getD (s.srcpos.toNat + i) 0) :
    Bound (appendBytes bs s) := by
  induction bs generalizing s with
  | nil => exact h
  | cons b bs ih =>
    simp only [List.length_cons] at hn hrem hlen
    have hnacc : (appendByte b s).nacc.toNat = s.nacc.toNat + 8 := by
      simp [BitVec.toNat_add]; omega
    have h5 := h.1.srcpos_le
    have hlt := s.budget0.isLt
    have hsrc : (appendByte b s).srcpos.toNat = s.srcpos.toNat + 1 := by
      simp [BitVec.toNat_add]; omega
    have h0 := hb 0 (by simp)
    refine ih (appendByte_bound h (by omega) (by omega) (by omega) (by simpa using h0)) ?_ ?_ ?_ ?_
    · rw [hnacc]; omega
    · rw [hnacc]; simp only [appendByte_remaining]; omega
    · rw [hsrc]; simp only [appendByte_src]; omega
    · intro i hi
      have := hb (i + 1) (by simp; omega)
      rw [hsrc]
      simp only [appendByte_src]
      rw [show s.srcpos.toNat + 1 + i = s.srcpos.toNat + (i + 1) by omega, ← this]
      rfl

/-- A Refill that succeeds keeps the reader's invariant (spec/40_bitreader.md R146, R147). -/
theorem refill_bound {want : Nat} {s s' : State} {u : Unit} (h : Bound s) (hrem : want ≤ s.remaining.toNat)
    (hw : want ≤ 8) (hr : refill want s = .done u s') : Bound s' := by
  rcases refill_cases hrem with ⟨-, h2⟩ | ⟨-, -, h2⟩ | ⟨h1, bs, h3, h4, h5, h6, h7, h2⟩ <;> rw [h2] at hr
  · cases hr; exact h
  · cases hr
  · cases hr
    have hask : 8 * refillAsk s ≤ s.remaining.toNat - s.nacc.toNat + 7 := by unfold refillAsk; omega
    exact appendBytes_bound (nextChunk_bound h _) (by simp only [nextChunk_nacc]; omega)
      (by simp only [nextChunk_nacc, nextChunk_remaining]; omega) (by simpa using h6) (by simpa using h7)

/-- A Refill that raises a fault has met the end of the source, and no more bits are pending than it
(spec/40_bitreader.md R145). -/
theorem refill_raised {want : Nat} {s s' : State} {f : ReaderFault} (hrem : want ≤ s.remaining.toNat)
    (hr : refill want s = .raised f s') :
    s' = s ∧ f = endFault s.src.ending ∧ s.nacc.toNat < want ∧ s.src.bytes.length ≤ s.srcpos.toNat := by
  rcases refill_cases hrem with ⟨-, h2⟩ | ⟨h1, h3, h2⟩ | ⟨h1, bs, h3, h4, h5, h6, h7, h2⟩ <;> rw [h2] at hr
  · cases hr
  · cases hr; exact ⟨rfl, rfl, h1, h3⟩
  · cases hr

theorem consume_nacc_toNat {n : Nat} {s : State} (h : n ≤ s.nacc.toNat) :
    (consume n s).nacc.toNat = s.nacc.toNat - n := by
  have := s.nacc.isLt
  simp only [consume_nacc]
  rw [BitVec.toNat_sub_of_le] <;> simp [BitVec.le_def] <;> rw [Nat.mod_eq_of_lt (by omega)]
  exact h

theorem consume_remaining_toNat {n : Nat} {s : State} (h : n ≤ s.remaining.toNat) :
    (consume n s).remaining.toNat = s.remaining.toNat - n := by
  have := s.remaining.isLt
  simp only [consume_remaining]
  rw [BitVec.toNat_sub_of_le] <;> simp [BitVec.le_def] <;> rw [Nat.mod_eq_of_lt (by omega)]
  exact h

/-- Consume keeps the reader's invariant (spec/40_bitreader.md R148). -/
theorem consume_bound {n : Nat} {s : State} (h : Bound s) (hn : n ≤ s.nacc.toNat)
    (hrem : n ≤ s.remaining.toNat) : Bound (consume n s) := by
  obtain ⟨⟨h1, h2, h3, h4, h5, h6, h7⟩, h8, h9⟩ := h
  have hnacc := consume_nacc_toNat hn
  have hr := consume_remaining_toNat hrem
  have hb : bitpos (consume n s) = bitpos s + n := by unfold bitpos; rw [hr]; simp only [consume_budget0]; omega
  refine ⟨⟨by omega, ?_, by rw [hnacc, hr]; simp only [consume_srcpos, consume_budget0]; omega,
    by omega, by simpa, by rw [hr]; simp only [consume_budget0]; omega,
    by rw [hr]; simp only [consume_budget0, consume_outcnt]; omega⟩, by simpa, ?_⟩
  · intro j hj
    simp only [consume_acc, BitVec.getLsbD_ushiftRight]
    exact h2 _ (by omega)
  · intro j hj
    simp only [consume_acc, BitVec.getLsbD_ushiftRight, consume_src, hb]
    rw [h9 _ (by omega), show bitpos s + (n + j) = bitpos s + n + j by omega]

/-- The bits READBITS and PEEK take from ACC are the next stream bits (spec/20_memory.md R63). -/
theorem lowBits_acc {n : Nat} {s : State} (h : Bound s) (hn : n ≤ s.nacc.toNat) (i : Nat) :
    (lowBits n s.acc.toNat).testBit i = (decide (i < n) && streamBit s.src.bytes (bitpos s + i)) := by
  unfold lowBits
  rw [Nat.testBit_mod_two_pow]
  by_cases hi : i < n
  · have := h.2.layout i (by omega)
    simp only [hi, decide_true, Bool.true_and, ← this]
    rfl
  · simp [hi]

end Sys2Proof.Machine
end

