-- ==== Sys2Proof/Laws/Decoder.lean ====
section
/-! SUPPORT. What DecodeOne and the loop of DEC_RUN can do, said once (spec/42_decode.md R203, R209). -/

namespace Sys2Proof.Machine

open Sys2Proof.Config

/-! ### One turn of the loop -/

theorem availBits_le (s : State) : availBits s ≤ s.remaining.toNat := by unfold availBits; omega

theorem availBits_le_eight (s : State) : availBits s ≤ 8 := by unfold availBits; omega

theorem toNat_ne_zero {n : Nat} {x : BitVec n} (h : x ≠ 0) : x.toNat ≠ 0 := fun e => h (by
  apply BitVec.eq_of_toNat_eq; simpa using e)

/-- With no budget left: the clean end at the root, UnexpectedEOF below it (spec/42_decode.md R203). -/
theorem decodeLoop_exhausted {s : State} (h : s.remaining = 0) (n : Nat) :
    decodeLoop (n + 1) s = if s.level = 0 then .done .ended s else .raised .unexpectedEOF s := by
  rw [decodeLoop, if_pos h]

/-- A probe that is not too short for its entry and meets a CONT entry has its full 8 bits
(spec/42_decode.md R204, R207). -/
theorem cont_probe_full {avail : Nat} {e : Entry} (h : shortProbeFails avail e = false) (hk : e.kind = .cont) :
    8 ≤ avail := by
  unfold shortProbeFails at h
  simp only [hk, Bool.and_eq_false_iff, decide_eq_false_iff_not] at h
  rcases h with h | h
  · omega
  · simp at h

/-- A probe that is not too short for its entry and meets a SYMBOL entry has the bits the entry consumes,
given that no entry consumes more than 8 (spec/42_decode.md R205, R207). -/
theorem symbol_probe_fits {avail : Nat} {e : Entry} (h : shortProbeFails avail e = false)
    (hlen : e.len.toNat ≤ 8) : e.kind = .symbol → e.len.toNat ≤ avail := by
  intro hk
  unfold shortProbeFails at h
  simp only [hk, Bool.and_eq_false_iff, decide_eq_false_iff_not] at h
  rcases h with h | h
  · omega
  · simp at h; exact h

/-- Everything one turn of the loop can do while budget is left (spec/42_decode.md R203): the refill meets the
end of the source; the lookahead is too short; the symbol is resolved; a continuation is followed; or the entry
is EMPTY. -/
theorem decodeLoop_turn {s : State} (h : s.remaining ≠ 0) (n : Nat) :
    (∃ f s', refill (availBits s) s = .raised f s' ∧ decodeLoop (n + 1) s = .raised f s') ∨
    (∃ s', refill (availBits s) s = .done () s' ∧
      ((shortProbeFails (availBits s) (probe (availBits s) s') = true ∧
          decodeLoop (n + 1) s = .raised .unexpectedEOF s') ∨
       (shortProbeFails (availBits s) (probe (availBits s) s') = false ∧
          (((probe (availBits s) s').kind = .symbol ∧
              decodeLoop (n + 1) s = .done (.sym (probe (availBits s) s').payload)
                (consume (probe (availBits s) s').len.toNat s')) ∨
           ((probe (availBits s) s').kind = .cont ∧
              decodeLoop (n + 1) s = decodeLoop n (followCont (probe (availBits s) s') s')) ∨
           ((probe (availBits s) s').kind = .empty ∧
              decodeLoop (n + 1) s = .raised .invalidCode s'))))) := by
  rw [decodeLoop, if_neg h]
  cases hr : refill (availBits s) s with
  | raised f s' => exact .inl ⟨f, s', rfl, rfl⟩
  | done u s' =>
    refine .inr ⟨s', rfl, ?_⟩
    cases hs : shortProbeFails (availBits s) (probe (availBits s) s') with
    | true => exact .inl ⟨rfl, by simp [hs]⟩
    | false =>
      refine .inr ⟨rfl, ?_⟩
      cases hk : (probe (availBits s) s').kind <;> simp [hs, hk]

theorem followCont_remaining_toNat {e : Entry} {s : State} (h : 8 ≤ s.remaining.toNat) :
    (followCont e s).remaining.toNat = s.remaining.toNat - 8 := consume_remaining_toNat (n := 8) h

/-- The bound on the turns never matters: any two that are more than REMAINING / 8 give the same answer, so
the loop is the spec's unbounded one (spec/42_decode.md R203). -/
theorem decodeLoop_enough {s : State} {n m : Nat} (hn : s.remaining.toNat / 8 < n)
    (hm : s.remaining.toNat / 8 < m) : decodeLoop n s = decodeLoop m s := by
  induction n generalizing m s with
  | zero => omega
  | succ n ih =>
    obtain ⟨m, rfl⟩ : ∃ k, m = k + 1 := ⟨m - 1, by omega⟩
    by_cases h : s.remaining = 0
    · rw [decodeLoop_exhausted h, decodeLoop_exhausted h]
    · rw [decodeLoop, decodeLoop, if_neg h, if_neg h]
      cases hr : refill (availBits s) s with
      | raised f s' => rfl
      | done u s' =>
        cases hs : shortProbeFails (availBits s) (probe (availBits s) s') with
        | true => simp [hs]
        | false =>
          cases hk : (probe (availBits s) s').kind <;> simp only [hs, hk, Bool.false_eq_true, if_false]
          have h8 := cont_probe_full hs hk
          have hav := availBits_le s
          have hrem : s'.remaining = s.remaining := same_remaining (refill_same hr)
          have hf := followCont_remaining_toNat (e := probe (availBits s) s') (s := s') (by rw [hrem]; omega)
          rw [hrem] at hf
          exact ih (by omega) (by omega)

/-- DecodeOne is the loop with any sufficient bound, from the root. -/
theorem decodeOne_eq {s : State} {n : Nat} (hn : s.remaining.toNat / 8 < n) :
    decodeOne s = decodeLoop n (startSymbol s) :=
  decodeLoop_enough (by simp) (by simpa using hn)

/-! ### Frames -/

/-- The state a procedure ends in. -/
def Run.state {α : Type} : Run α → State
  | .done _ s => s
  | .raised _ s => s

/-- Two states that differ at most in what reading the stream moves: REMAINING, CUR, LEVEL and what the chunking
moves. -/
def SameButReading (s t : State) : Prop :=
  ∃ remaining cur level, SameButChunking { s with remaining := remaining, cur := cur, level := level } t

theorem sameButReading_refl (s : State) : SameButReading s s := ⟨_, _, _, sameButChunking_refl s⟩

theorem sameButReading_trans {s t u : State} (h1 : SameButReading s t) (h2 : SameButReading t u) :
    SameButReading s u := by
  obtain ⟨a, b, c, d, e, f, g, i, rfl⟩ := h1
  obtain ⟨a', b', c', d', e', f', g', i', rfl⟩ := h2
  exact ⟨a', b', c', d', e', f', g', i', rfl⟩

theorem sameButReading_of_same {s t : State} (h : SameButChunking s t) : SameButReading s t := ⟨_, _, _, h⟩

theorem consume_sameButReading (n : Nat) (s : State) : SameButReading s (consume n s) :=
  ⟨_, s.cur, s.level, _, _, s.srcpos, s.src.chunks, s.draws, rfl⟩

theorem followCont_sameButReading (e : Entry) (s : State) : SameButReading s (followCont e s) :=
  ⟨_, _, _, _, _, s.srcpos, s.src.chunks, s.draws, rfl⟩

theorem startSymbol_sameButReading (s : State) : SameButReading s (startSymbol s) :=
  ⟨s.remaining, 0, 0, s.acc, s.nacc, s.srcpos, s.src.chunks, s.draws, rfl⟩

theorem decodeLoop_sameButReading (n : Nat) (s : State) : SameButReading s (decodeLoop n s).state := by
  induction n generalizing s with
  | zero => exact sameButReading_refl s
  | succ n ih =>
    by_cases h : s.remaining = 0
    · rw [decodeLoop_exhausted h]; split <;> exact sameButReading_refl s
    · rcases decodeLoop_turn h n with ⟨f, s', hr, hd⟩ | ⟨s', hr, h2⟩
      · rw [hd]; exact sameButReading_of_same (refill_raised_same hr)
      · have hsame := sameButReading_of_same (refill_same hr)
        rcases h2 with ⟨-, hd⟩ | ⟨-, ⟨-, hd⟩ | ⟨-, hd⟩ | ⟨-, hd⟩⟩ <;> rw [hd]
        · exact hsame
        · exact sameButReading_trans hsame (consume_sameButReading _ _)
        · exact sameButReading_trans (sameButReading_trans hsame (followCont_sameButReading _ _)) (ih _)
        · exact hsame

/-- DecodeOne moves only what reading the stream moves. -/
theorem decodeOne_sameButReading (s : State) : SameButReading s (decodeOne s).state :=
  sameButReading_trans (startSymbol_sameButReading s) (decodeLoop_sameButReading _ _)

section Same

variable {s t : State}

theorem reading_budget0 (h : SameButReading s t) : t.budget0 = s.budget0 := by
  obtain ⟨_, _, _, _, _, _, _, _, rfl⟩ := h; rfl

theorem reading_outcnt (h : SameButReading s t) : t.outcnt = s.outcnt := by
  obtain ⟨_, _, _, _, _, _, _, _, rfl⟩ := h; rfl

theorem reading_rerr (h : SameButReading s t) : t.rerr = s.rerr := by
  obtain ⟨_, _, _, _, _, _, _, _, rfl⟩ := h; rfl

theorem reading_terr (h : SameButReading s t) : t.terr = s.terr := by
  obtain ⟨_, _, _, _, _, _, _, _, rfl⟩ := h; rfl

theorem reading_nsym (h : SameButReading s t) : t.nsym = s.nsym := by
  obtain ⟨_, _, _, _, _, _, _, _, rfl⟩ := h; rfl

theorem reading_ntab (h : SameButReading s t) : t.ntab = s.ntab := by
  obtain ⟨_, _, _, _, _, _, _, _, rfl⟩ := h; rfl

theorem reading_rstate (h : SameButReading s t) : t.rstate = s.rstate := by
  obtain ⟨_, _, _, _, _, _, _, _, rfl⟩ := h; rfl

theorem reading_tstate (h : SameButReading s t) : t.tstate = s.tstate := by
  obtain ⟨_, _, _, _, _, _, _, _, rfl⟩ := h; rfl

theorem reading_code (h : SameButReading s t) : t.code = s.code := by
  obtain ⟨_, _, _, _, _, _, _, _, rfl⟩ := h; rfl

theorem reading_table (h : SameButReading s t) : t.table = s.table := by
  obtain ⟨_, _, _, _, _, _, _, _, rfl⟩ := h; rfl

theorem reading_out (h : SameButReading s t) : t.out = s.out := by
  obtain ⟨_, _, _, _, _, _, _, _, rfl⟩ := h; rfl

theorem reading_response (h : SameButReading s t) : t.response = s.response := by
  obtain ⟨_, _, _, _, _, _, _, _, rfl⟩ := h; rfl

theorem reading_commands (h : SameButReading s t) : t.commands = s.commands := by
  obtain ⟨_, _, _, _, _, _, _, _, rfl⟩ := h; rfl

theorem reading_sources (h : SameButReading s t) : t.sources = s.sources := by
  obtain ⟨_, _, _, _, _, _, _, _, rfl⟩ := h; rfl

theorem reading_tablesBeyondRoot (h : SameButReading s t) : t.tablesBeyondRoot = s.tablesBeyondRoot := by
  obtain ⟨_, _, _, _, _, _, _, _, rfl⟩ := h; rfl

theorem reading_bytes (h : SameButReading s t) : t.src.bytes = s.src.bytes := by
  obtain ⟨_, _, _, _, _, _, _, _, rfl⟩ := h; rfl

theorem reading_ending (h : SameButReading s t) : t.src.ending = s.src.ending := by
  obtain ⟨_, _, _, _, _, _, _, _, rfl⟩ := h; rfl

end Same

/-! ### The reader's invariant through DecodeOne -/

/-- What a probe can meet when TABLE holds only legal entries (spec/30_encoding.md R115). -/
theorem probe_legal {s : State} (h : TablesLegal s.nsym.toNat s.ntab.toNat s.table) (avail : Nat) :
    probe avail s = Entry.empty ∨ ∃ a, tableEntryLegal s.nsym.toNat s.ntab.toNat a (probe avail s) := by
  rcases read_listed_or_default (d := Entry.empty) s.table
      (tableAddr s.cur.toNat (rev8 (lookahead avail s)).toNat) with h1 | h1
  · exact .inl h1
  · exact .inr ⟨_, h.legal _ h1⟩

theorem startSymbol_bound {s : State} (h : Bound s) : Bound (startSymbol s) := by
  obtain ⟨⟨h1, h2, h3, h4, h5, h6, h7⟩, h8, h9⟩ := h
  exact ⟨⟨by simpa, by simpa, by simpa, by simpa, by simpa, by simpa, by simpa⟩, by simpa, by simpa⟩

theorem followCont_bound {e : Entry} {s : State} (h : Bound s) (hn : 8 ≤ s.nacc.toNat)
    (hrem : 8 ≤ s.remaining.toNat) : Bound (followCont e s) := by
  obtain ⟨⟨h1, h2, h3, h4, h5, h6, h7⟩, h8, h9⟩ := consume_bound (n := 8) h hn hrem
  exact ⟨⟨h1, h2, h3, h4, h5, h6, h7⟩, h8, h9⟩

/-- DecodeOne keeps the reader's invariant, and a symbol consumes at least one bit (spec/42_decode.md R209). -/
theorem decodeLoop_bound (n : Nat) {s : State} (h : Bound s)
    (ht : TablesLegal s.nsym.toNat s.ntab.toNat s.table) :
    Bound (decodeLoop n s).state ∧ (decodeLoop n s).state.remaining.toNat ≤ s.remaining.toNat ∧
      (∀ x t, decodeLoop n s = .done (.sym x) t → t.remaining.toNat < s.remaining.toNat) := by
  induction n generalizing s with
  | zero => exact ⟨h, le_refl _, by simp [decodeLoop]⟩
  | succ n ih =>
    by_cases h0 : s.remaining = 0
    · rw [decodeLoop_exhausted h0]
      split <;> exact ⟨h, le_refl _, by simp⟩
    · rcases decodeLoop_turn h0 n with ⟨f, s', hr, hd⟩ | ⟨s', hr, h2⟩
      · obtain ⟨rfl, -⟩ := refill_raised (availBits_le s) hr
        rw [hd]; exact ⟨h, le_refl _, by simp⟩
      · have hb := refill_bound h (availBits_le s) (availBits_le_eight s) hr
        have hen := refill_enough (availBits_le s) (availBits_le_eight s) hr
        have hsame := refill_same hr
        have hrem := congrArg BitVec.toNat (same_remaining hsame)
        have ht' : TablesLegal s'.nsym.toNat s'.ntab.toNat s'.table := by
          rw [same_nsym hsame, same_ntab hsame, same_table hsame]; exact ht
        have hav := availBits_le s
        have hpos : 1 ≤ availBits s := by
          have := toNat_ne_zero h0
          unfold availBits; omega
        rcases h2 with ⟨-, hd⟩ | ⟨hshort, ⟨hk, hd⟩ | ⟨hk, hd⟩ | ⟨-, hd⟩⟩ <;> rw [hd]
        · exact ⟨hb, by simp only [Run.state]; omega, by simp⟩
        · have hl : 1 ≤ (probe (availBits s) s').len.toNat ∧ (probe (availBits s) s').len.toNat ≤ 8 := by
            rcases probe_legal ht' (availBits s) with h1 | ⟨a, h1⟩
            · rw [h1] at hk; cases hk
            · simp only [tableEntryLegal, hk] at h1; exact ⟨h1.1, h1.2.1⟩
          have hfit := symbol_probe_fits hshort hl.2 hk
          have hcr := consume_remaining_toNat (s := s') (n := (probe (availBits s) s').len.toNat) (by omega)
          refine ⟨consume_bound hb (by omega) (by omega), ?_, ?_⟩
          · simp only [Run.state]; omega
          · intro x t he; cases he; omega
        · have h8 := cont_probe_full hshort hk
          have hf := followCont_remaining_toNat (e := probe (availBits s) s') (s := s') (by omega)
          obtain ⟨i1, i2, i3⟩ := ih (s := followCont (probe (availBits s) s') s')
            (followCont_bound hb (by omega) (by omega)) (by simpa using ht')
          exact ⟨i1, by omega, fun x t he => by have := i3 x t he; omega⟩
        · exact ⟨hb, by simp only [Run.state]; omega, by simp⟩

theorem decodeOne_bound {s : State} (h : Bound s) (ht : TablesLegal s.nsym.toNat s.ntab.toNat s.table) :
    Bound (decodeOne s).state ∧ (decodeOne s).state.remaining.toNat ≤ s.remaining.toNat ∧
      (∀ x t, decodeOne s = .done (.sym x) t → t.remaining.toNat < s.remaining.toNat) :=
  decodeLoop_bound _ (startSymbol_bound h) (by simpa using ht)

/-! ### DEC_RUN -/

/-- Everything the loop of DEC_RUN can do (spec/42_decode.md R209). -/
theorem decodeRun_succ (left cnt : Nat) (s : State) :
    (∃ f t, decodeOne s = .raised f t ∧ decodeRun (left + 1) cnt s = raiseReader f (BitVec.ofNat 56 cnt) t) ∨
    (∃ t, decodeOne s = .done .ended t ∧ decodeRun (left + 1) cnt s = respond eofCode (BitVec.ofNat 56 cnt) t) ∨
    (∃ x t, decodeOne s = .done (.sym x) t ∧ decodeRun (left + 1) cnt s = decodeRun left (cnt + 1) (emit x t)) := by
  rw [decodeRun]
  cases h : decodeOne s with
  | raised f t => exact .inl ⟨f, t, rfl, rfl⟩
  | done d t =>
    cases d with
    | ended => exact .inr (.inl ⟨t, rfl, rfl⟩)
    | sym x => exact .inr (.inr ⟨x, t, rfl, rfl⟩)

end Sys2Proof.Machine
end

