-- ==== Sys2Proof/Laws/PerInstr.lean ====
section
/-! SUPPORT. One lemma per command: its word holds its opcode in 63:56 and its operand in 55:0
(spec/30_encoding.md R102). -/

namespace Sys2Proof.Laws.EncodeFields

open Sys2Proof

/-- The encoded word's two top-level fields (spec/30_encoding.md R102). -/
def Statement (i : Instr) : Prop :=
  field (encode i) 56 8 = opcodeOf i ∧ field (encode i) 0 56 = operandOf i

/-- The fields of a word built from an opcode and an operand. -/
theorem fields_of_append (op : BitVec 8) (u : Word56) :
    field (op ++ u : BitVec (8 + 56)) 56 8 = op ∧ field (op ++ u : BitVec (8 + 56)) 0 56 = u := by
  constructor
  · apply BitVec.eq_of_getLsbD_eq
    intro i hi
    rw [field, BitVec.getLsbD_extractLsb', BitVec.getLsbD_append]
    simp [hi]
  · apply BitVec.eq_of_getLsbD_eq
    intro i hi
    rw [field, BitVec.getLsbD_extractLsb', BitVec.getLsbD_append]
    simp [hi]

theorem reset : Statement .reset := fields_of_append _ _
theorem rdreg (reg : BitVec 4) : Statement (.rdreg reg) := fields_of_append _ _
theorem codeClr (nsym : BitVec 21) : Statement (.codeClr nsym) := fields_of_append _ _
theorem codeWr (sym : Sym) (len : BitVec 5) (value : BitVec 20) : Statement (.codeWr sym len value) := fields_of_append _ _
theorem tblBuild : Statement .tblBuild := fields_of_append _ _
theorem tblRd (handle : Handle) (idx : BitVec 8) : Statement (.tblRd handle idx) := fields_of_append _ _
theorem brInit (budget : Word56) : Statement (.brInit budget) := fields_of_append _ _
theorem readbits (n : BitVec 4) : Statement (.readbits n) := fields_of_append _ _
theorem peek : Statement .peek := fields_of_append _ _
theorem decSym : Statement .decSym := fields_of_append _ _
theorem decRun (quota : Word56) : Statement (.decRun quota) := fields_of_append _ _

end Sys2Proof.Laws.EncodeFields
end

