-- ==== Sys2Proof/Laws/Table.lean ====
section
/-! SUPPORT. What each operation of the table builder can do, said once (spec/41_table_build.md R173 to R177),
and that walking the listed symbols is walking all of them. -/

namespace Sys2Proof.Machine

open Sys2Proof.Config

/-! ### The pieces of a code -/

/-- The loop guard of the descent: more than 8 bits are left exactly while continuations are still to be followed
(spec/41_table_build.md R174). -/
theorem chunksBefore_pos {rem : Nat} : 0 < chunksBefore rem ↔ 8 < rem := by unfold chunksBefore; omega

theorem chunksBefore_succ {rem : Nat} (h : 8 < rem) : chunksBefore rem = chunksBefore (rem - 8) + 1 := by
  unfold chunksBefore; omega

/-- The last level of a code takes 1 to 8 bits (spec/41_table_build.md R175). -/
theorem lastBits_range {c : CodeEntry} (h : c.len ≠ 0) : 1 ≤ lastBits c ∧ lastBits c ≤ 8 := by
  have h1 : c.len.toNat ≠ 0 := fun e => h (BitVec.eq_of_toNat_eq (by simpa using e))
  unfold lastBits chunksBefore; omega

theorem lowBits_lt (n v : Nat) : lowBits n v < 2 ^ n := Nat.mod_lt _ (by positivity)

theorem chunk_lt (v rem : Nat) : chunk v rem < 256 := lowBits_lt 8 _

/-- The slots a code fills in its last level are exactly those whose high bits equal its last bits
(spec/00_scope.md R17). -/
theorem fill_range {rem v i : Nat} :
    (fillBase v rem ≤ i ∧ i < fillBase v rem + fillCount rem) ↔ i >>> (8 - rem) = lowBits rem v := by
  unfold fillBase fillCount
  rw [Nat.shiftLeft_eq, Nat.shiftRight_eq_div_pow]
  have hp : 0 < 2 ^ (8 - rem) := by positivity
  constructor
  · rintro ⟨h1, h2⟩
    rw [Nat.div_eq_iff (by omega)]
    constructor <;> omega
  · intro h
    rw [Nat.div_eq_iff (by omega)] at h
    omega

theorem fill_below {rem v : Nat} (h1 : 1 ≤ rem) (h8 : rem ≤ 8) : fillBase v rem + fillCount rem ≤ 256 := by
  unfold fillBase fillCount
  rw [Nat.shiftLeft_eq]
  have h2 : (2 : Nat) ^ rem * 2 ^ (8 - rem) = 256 := by rw [← pow_add, show rem + (8 - rem) = 8 by omega]; rfl
  have h3 := lowBits_lt rem v
  calc lowBits rem v * 2 ^ (8 - rem) + 2 ^ (8 - rem) = (lowBits rem v + 1) * 2 ^ (8 - rem) := by ring
    _ ≤ 2 ^ rem * 2 ^ (8 - rem) := Nat.mul_le_mul_right _ h3
    _ = 256 := h2

/-! ### Alloc and the descent -/

/-- Alloc takes the next handle, cleared, unless all NTABMAX are taken (spec/41_table_build.md R176). -/
theorem alloc_cases (m : Nat) (a : Arena) :
    (a.ntab = m ∧ alloc m a = .error .tableOverflow) ∨
    (a.ntab ≠ m ∧ alloc m a =
      .ok (a.ntab, ⟨Memory.clear a.table (tableAddr a.ntab 0) tableSize, a.ntab + 1⟩)) := by
  unfold alloc
  split
  · exact .inl ⟨‹_›, rfl⟩
  · exact .inr ⟨‹_›, rfl⟩

/-- Everything one turn of the descent can do (spec/41_table_build.md R174). -/
theorem descendOnce_cases (m h b : Nat) (a : Arena) :
    ((tableRead a.table h b).kind = .symbol ∧ descendOnce m h b a = .error .badCode) ∨
    ((tableRead a.table h b).kind = .cont ∧
      descendOnce m h b a = .ok ((tableRead a.table h b).payload.toNat, a)) ∨
    ((tableRead a.table h b).kind = .empty ∧ a.ntab = m ∧ descendOnce m h b a = .error .tableOverflow) ∨
    ((tableRead a.table h b).kind = .empty ∧ a.ntab ≠ m ∧
      descendOnce m h b a = .ok (a.ntab,
        ⟨tableWrite (Memory.clear a.table (tableAddr a.ntab 0) tableSize) h b (contEntry a.ntab), a.ntab + 1⟩)) := by
  unfold descendOnce
  cases hk : (tableRead a.table h b).kind with
  | symbol => exact .inl ⟨rfl, by simp only [hk]⟩
  | cont => exact .inr (.inl ⟨rfl, by simp only [hk]⟩)
  | empty =>
    rcases alloc_cases m a with ⟨h1, h2⟩ | ⟨h1, h2⟩
    · exact .inr (.inr (.inl ⟨rfl, h1, by simp only [hk, h2]⟩))
    · exact .inr (.inr (.inr ⟨rfl, h1, by simp only [hk, h2]⟩))

/-! ### Filling -/

/-- A fill that succeeds found every slot EMPTY, and afterwards each holds the entry, every other slot what it
held (spec/41_table_build.md R175). -/
theorem fillSlots_ok {h n i : Nat} {e : Entry} {a a' : Arena} (hw : Memory.wf Entry.empty a.table)
    (hi : i + n ≤ 256) (hf : fillSlots h e n i a = .ok a') :
    a'.ntab = a.ntab ∧ Memory.wf Entry.empty a'.table ∧
    (∀ j, i ≤ j → j < i + n → (tableRead a.table h j).kind = .empty) ∧
    (∀ h' j, j < 256 →
      tableRead a'.table h' j = if h' = h ∧ i ≤ j ∧ j < i + n then e else tableRead a.table h' j) := by
  induction n generalizing i a with
  | zero =>
    cases hf
    exact ⟨rfl, hw, fun j h1 h2 => by omega, fun h' j _ => by rw [if_neg (by omega)]⟩
  | succ n ih =>
    rw [fillSlots] at hf
    split at hf
    · cases hf
    · rename_i hk
      obtain ⟨h1, h2, h3, h4⟩ := ih (tableWrite_wf hw h i e) (by omega) hf
      refine ⟨h1, h2, fun j hj1 hj2 => ?_, fun h' j hj => ?_⟩
      · rcases Nat.eq_or_lt_of_le hj1 with rfl | hlt
        · simpa using hk
        · have := h3 j (by omega) (by omega)
          rwa [tableRead_tableWrite hw (by omega) (by omega), if_neg (by omega)] at this
      · rw [h4 h' j hj, tableRead_tableWrite hw (by omega) hj]
        by_cases hc : h' = h ∧ i ≤ j ∧ j < i + (n + 1)
        · rw [if_pos hc]
          by_cases hji : j = i
          · rw [if_neg (by omega), if_pos ⟨hc.1, hji⟩]
          · rw [if_pos (by omega)]
        · rw [if_neg hc, if_neg (by omega), if_neg (by omega)]

/-- A fill that fails is a BadCode and met a slot already used (spec/41_table_build.md R177). -/
theorem fillSlots_error {h n i : Nat} {e : Entry} {a : Arena} {f : BuildFault}
    (hw : Memory.wf Entry.empty a.table) (hi : i + n ≤ 256) (hf : fillSlots h e n i a = .error f) :
    f = .badCode ∧ ∃ j, i ≤ j ∧ j < i + n ∧ (tableRead a.table h j).kind ≠ .empty := by
  induction n generalizing i a with
  | zero => cases hf
  | succ n ih =>
    rw [fillSlots] at hf
    split at hf
    · rename_i hk; cases hf; exact ⟨rfl, i, by omega, by omega, hk⟩
    · obtain ⟨h1, j, h2, h3, h4⟩ := ih (tableWrite_wf hw h i e) (by omega) hf
      refine ⟨h1, j, by omega, by omega, ?_⟩
      rwa [tableRead_tableWrite hw (by omega) (by omega), if_neg (by omega)] at h4

/-! ### Walking the symbols -/

theorem insertCode_unused (m sym : Nat) {c : CodeEntry} (h : c.len = 0) (a : Arena) :
    insertCode m sym c a = .ok a := by
  unfold insertCode; rw [if_pos h]

/-- The turns of unused symbols do nothing (spec/41_table_build.md R173). -/
theorem insertAll_skip_unused (m : Nat) (l : List (Nat × CodeEntry)) (a : Arena) :
    insertAll m l a = insertAll m (l.filter fun p => decide (p.2.len ≠ 0)) a := by
  induction l generalizing a with
  | nil => rfl
  | cons p l ih =>
    obtain ⟨sym, c⟩ := p
    by_cases h : c.len = 0
    · rw [List.filter_cons_of_neg (by simpa using h), insertAll, insertCode_unused m sym h]
      exact ih a
    · rw [List.filter_cons_of_pos (by simpa using h), insertAll, insertAll]
      cases insertCode m sym c a with
      | error f => rfl
      | ok a2 => exact ih a2

/-- Walking the listed symbols is the spec's loop `for s in 0..NSYM-1` over every symbol
(spec/41_table_build.md R173). -/
theorem build_eq_all_symbols (m nsym : Nat) {c : Memory CodeEntry} (hc : Memory.wf CodeEntry.unused c) :
    buildTables m nsym c
      = insertAll m ((List.range nsym).map fun sym => (sym, codeRead c sym)) rootArena := by
  unfold buildTables
  rw [insertAll_skip_unused, insertAll_skip_unused m ((List.range nsym).map _)]
  congr 1
  have hs : ∀ {l : List (Nat × CodeEntry)}, l.Pairwise (fun p q => p.1 < q.1) → l.Nodup :=
    fun h => h.imp fun h e => by subst e; omega
  have h1 : ((listedCodes nsym c).filter fun p => decide (p.2.len ≠ 0)).Pairwise (fun p q => p.1 < q.1) :=
    (hc.1.filter _).filter _
  have h2 : (((List.range nsym).map fun sym => (sym, codeRead c sym)).filter
      fun p => decide (p.2.len ≠ 0)).Pairwise (fun p q => p.1 < q.1) := by
    refine List.Pairwise.filter _ (List.pairwise_map.2 ?_)
    exact List.pairwise_lt_range
  refine List.Perm.eq_of_pairwise (le := fun p q => p.1 < q.1) (fun a b _ _ h3 h4 => by omega) h1 h2 ?_
  refine (List.perm_ext_iff_of_nodup (hs h1) (hs h2)).2 fun p => ?_
  obtain ⟨sym, e⟩ := p
  simp only [listedCodes, List.mem_filter, List.mem_map, List.mem_range, decide_eq_true_eq, Prod.mk.injEq]
  constructor
  · rintro ⟨⟨hm, hlt⟩, hl⟩
    exact ⟨⟨sym, hlt, rfl, read_of_mem hc hm⟩, hl⟩
  · rintro ⟨⟨s', hlt, rfl, rfl⟩, hl⟩
    refine ⟨⟨(mem_iff_read hc).2 ⟨rfl, fun e => hl ?_⟩, hlt⟩, hl⟩
    rw [e]; rfl

end Sys2Proof.Machine
end

