-- ==== Sys2Proof/Tests/Slice0.lean ====
section
/-! SUPPORT. The model's own tests: ill-formed commands are refused, words of the spec's programs decode as they
are listed, one step per command as the spec's vectors give it, and one witness for each statement that has
hypotheses. Expected values are those of spec/95_test_vectors.md, named beside each test. -/

set_option Elab.async false

namespace Sys2Proof.Tests

open Sys2Proof Sys2Proof.Config Sys2Proof.Machine

/-! ### Well-formedness -/

theorem test_wf_register_reserved : (Instr.rdreg 9).wf = false ∧ (Instr.rdreg 14).wf = false := by decide

theorem test_wf_register_legal : (Instr.rdreg 8).wf = true ∧ (Instr.rdreg 15).wf = true := by decide

theorem test_wf_width_illegal : (Instr.readbits 0).wf = false ∧ (Instr.readbits 9).wf = false := by decide

theorem test_wf_width_legal : (Instr.readbits 1).wf = true ∧ (Instr.readbits 8).wf = true := by decide

/-! ### Decoding (P1 to P6, V27, V42) -/

theorem test_decode_reset : decode 0x0100000000000000 = .ok .reset := by rfl

theorem test_decode_rdreg : decode 0x0200000000000007 = .ok (.rdreg 7) := by rfl

theorem test_decode_codeClr : decode 0x100000000000000B = .ok (.codeClr 11) := by rfl

theorem test_decode_codeWr : decode 0x1100000012A003FE = .ok (.codeWr 9 10 0x3FE) := by rfl

theorem test_decode_codeWr_full : decode 0x11001FFFFF4FFFFF = .ok (.codeWr 0xFFFFF 20 0xFFFFF) := by rfl

theorem test_decode_tblBuild : decode 0x1200000000000000 = .ok .tblBuild := by rfl

theorem test_decode_tblRd : decode 0x1300000000000180 = .ok (.tblRd 1 0x80) := by rfl

theorem test_decode_brInit : decode 0x200000000000002E = .ok (.brInit 46) := by rfl

theorem test_decode_readbits : decode 0x2100000000000005 = .ok (.readbits 5) := by rfl

theorem test_decode_peek : decode 0x2200000000000000 = .ok .peek := by rfl

theorem test_decode_decSym : decode 0x3000000000000000 = .ok .decSym := by rfl

theorem test_decode_decRun : decode 0x3100000000000064 = .ok (.decRun 100) := by rfl

theorem test_decode_table_word : decodeTableWord 64 0x2100000000000003 = some (.readbits 3) := by rfl

theorem test_decode_illegal_opcodes :
    decode 0 = .error .opcode ∧ decode 0x0300000000000000 = .error .opcode ∧
    decode 0x1400000000000000 = .error .opcode := by
  refine ⟨rfl, rfl, rfl⟩

theorem test_decode_reserved_bits :
    decode 0x0100000000000001 = .error .reservedBit ∧ decode 0x0200000000000010 = .error .reservedBit ∧
    decode 0x1000000000200000 = .error .reservedBit ∧ decode 0x1100200000000000 = .error .reservedBit ∧
    decode 0x1200000000000001 = .error .reservedBit ∧ decode 0x1302000000000000 = .error .reservedBit := by
  refine ⟨rfl, rfl, rfl, rfl, rfl, rfl⟩

theorem test_decode_illegal_fields :
    decode 0x0200000000000009 = .error .register ∧ decode 0x020000000000000E = .error .register ∧
    decode 0x2100000000000000 = .error .width ∧ decode 0x2100000000000009 = .error .width := by
  refine ⟨rfl, rfl, rfl, rfl⟩

/-! ### Small states -/

/-- The response and the parts of the state a test looks at. -/
def look {α : Type} (f : State → α) (o : Host.Outcome State Fault Refusal) : Option (Option Word × α) :=
  match o with
  | .next s => some (s.response, f s)
  | .fault _ => none
  | .refused _ => none

/-- A Code of two 8-bit codes: symbol 0 is 0x00, symbol 1 is 0xFF. -/
def twoCodes : Memory CodeEntry := [(0, ⟨0x00, 8⟩), (1, ⟨0xFF, 8⟩)]

/-- Its table. -/
def twoTable : Memory Entry := [(0, symbolEntry 8 0), (255, symbolEntry 8 1)]

/-- The Code loaded, nothing built. -/
def coded (nsym : BitVec 21) (c : Memory CodeEntry) : State := { State.reset with nsym := nsym, code := c }

/-- The two-symbol Code built, and a reader just bound to the given bytes. The source answers whole requests. -/
def fresh (bytes : List Byte) (ending : SourceEnd) (budget : Word56) : State :=
  { State.reset with
    nsym := 2, code := twoCodes, table := twoTable, ntab := 1, tstate := .valid, rstate := .active,
    remaining := budget, budget0 := budget, src := ⟨bytes, ending, [4, 4, 4, 4]⟩ }

/-- The codewords of symbols 0 and 1. -/
def demo : State := fresh [0x00, 0xFF] .eos 16

/-- The same with the bytes of the codewords taken and all bits consumed. -/
def spent : State := { demo with remaining := 0, srcpos := 2 }

/-- The spec's fixed-width Code of scenario S4, as TABLE memory. -/
def s4Table : Memory Entry :=
  [(0, symbolEntry 8 0), (1, symbolEntry 8 1), (2, symbolEntry 8 2), (3, symbolEntry 8 3)]

/-- S4 built, and a reader of 32 bits bound. -/
def s4 (bytes : List Byte) : State :=
  { fresh bytes .eos 32 with
    nsym := 4, code := [(0, ⟨0, 8⟩), (1, ⟨1, 8⟩), (2, ⟨2, 8⟩), (3, ⟨3, 8⟩)], table := s4Table }

/-- V10 and V11: the reader bound with a budget of 13 bits. -/
def v10 : State := fresh [0xD9, 0x09] .eos 13

/-! ### One step per command -/

theorem test_reset_memory_wf :
    Memory.wf CodeEntry.unused State.reset.code ∧ Memory.wf Entry.empty State.reset.table := by decide

/-- P1: RESET answers OK 0, and RDREG then reads 0. -/
theorem test_reset_clears :
    look (fun s => (s.budget0, s.rerr, s.tstate)) (exec .reset { spent with rerr := 0x40 })
      = some (some 0, 0, 0, .notBuilt) := by decide +kernel

/-- V11: RDREG 0 is 0x0003 with a reader bound and the budget used up; with a table it is 0x000B (V41). -/
theorem test_rdreg_status :
    look (fun _ => ()) (exec (.rdreg 0) { spent with tstate := .notBuilt }) = some (some 0x0003, ()) ∧
    look (fun _ => ()) (exec (.rdreg 0) spent) = some (some 0x000B, ()) := by decide +kernel

/-- V40: RDREG 15 reads the ID. -/
theorem test_rdreg_id :
    look (fun _ => ()) (exec (.rdreg 15) State.reset) = some (some 0x48444501, ()) := by decide +kernel

/-- V27: CODE_CLR 0x100000 is legal, CODE_CLR 0x100001 is TooManySymbols. -/
theorem test_codeClr_largest :
    look (fun s => (s.nsym, s.tstate, s.terr)) (exec (.codeClr 0x100000) { demo with terr := 0x50 })
      = some (some 0, 0x100000, .notBuilt, 0) := by decide +kernel

theorem test_codeClr_too_many :
    look State.nsym (exec (.codeClr 0x100001) demo) = some (some 0x7C00000000000000, 2) := by decide +kernel

/-- V27: value ≥ 2^len is a BadOperand. -/
theorem test_codeWr_value_too_wide :
    look State.code (exec (.codeWr 0 2 4) (coded 2 [])) = some (some 0x7D00000000000000, []) := by decide +kernel

/-- V27: the pair (0, 0) is legal and makes the symbol unused again. -/
theorem test_codeWr_unused :
    look State.code (exec (.codeWr 0 0 0) (coded 2 twoCodes))
      = some (some 0, [(1, ⟨0xFF, 8⟩)]) := by decide +kernel

/-- V25: (0xFFFF,16), (0xFFFFF,20) is BadCode 1, the descent meets a SYMBOL. -/
theorem test_tblBuild_bad_code :
    look (fun s => (s.tstate, s.terr)) (exec .tblBuild (coded 2 [(0, ⟨0xFFFF, 16⟩), (1, ⟨0xFFFFF, 20⟩)]))
      = some (some 0x5000000000000001, .failed, 0x50) := by decide +kernel

/-- S4: TBL_BUILD answers OK 1; TBL_RD 0, 1 is then 0x61 and TBL_RD 0, 4 is EMPTY. -/
theorem test_tblBuild_s4 :
    look State.table (exec .tblBuild { s4 [] with tstate := .notBuilt, table := [], ntab := 0 })
      = some (some 1, s4Table) := by decide +kernel

theorem test_tblRd_s4 :
    look (fun _ => ()) (exec (.tblRd 0 1) (s4 [])) = some (some 0x00000061, ()) ∧
    look (fun _ => ()) (exec (.tblRd 0 4) (s4 [])) = some (some 0, ()) := by decide +kernel

/-- V20: TBL_RD 1, 0 is a BadOperand with one table. -/
theorem test_tblRd_no_table :
    look (fun _ => ()) (exec (.tblRd 1 0) (s4 [])) = some (some 0x7D00000000000000, ()) := by decide +kernel

/-- V19: BR_INIT clears a latched fault and binds the next source. -/
theorem test_brInit_clears_fault :
    look (fun s => (s.rerr, s.remaining, s.rstate, s.src.bytes))
      (exec (.brInit 8) { State.reset with rerr := 0x40, sources := [⟨[0xFF], .eos, []⟩] })
      = some (some 0, 0, 8, .active, [0xFF]) := by decide +kernel

/-- V10: READBITS 3 answers 1 and leaves REMAINING 10, NACC 13, ACC 0x13B, SRCPOS 2. -/
theorem test_readbits_v10 :
    look (fun s => (s.remaining, s.nacc, s.acc, s.srcpos)) (exec (.readbits 3) v10)
      = some (some 1, 10, 13, 0x13B, 2) := by decide +kernel

/-- V10: READBITS 3 with 2 bits left is UnexpectedEOF and consumes nothing. -/
theorem test_readbits_over_budget :
    look (fun s => (s.remaining, s.rerr, s.acc)) (exec (.readbits 3) { v10 with remaining := 2, nacc := 5, acc := 1, srcpos := 2 })
      = some (some 0x4000000000000000, 2, 0x40, 1) := by decide +kernel

/-- V10: PEEK answers avail 8 and p = 0x3B. -/
theorem test_peek_v10 :
    look State.remaining (exec .peek { v10 with remaining := 10, nacc := 13, acc := 0x13B, srcpos := 2 })
      = some (some 0x83B, 10) := by decide +kernel

/-- V10: with 2 bits left PEEK hides the bits beyond the budget. -/
theorem test_peek_short :
    look State.remaining (exec .peek { v10 with remaining := 2, nacc := 5, acc := 0x01, srcpos := 2 })
      = some (some 0x201, 2) := by decide +kernel

/-- S4: the byte 0x80 is the codeword of symbol 1. -/
theorem test_decSym_s4 :
    look (fun s => (s.out, s.remaining, s.outcnt)) (exec .decSym (s4 [0x80, 0xC0, 0x40, 0x00]))
      = some (some 1, [1], 24, 1) := by decide +kernel

/-- S4: HUF's literal bytes are an InvalidCode; nothing is consumed. -/
theorem test_decSym_invalid :
    look (fun s => (s.remaining, s.rerr)) (exec .decSym (s4 [0x01, 0x03, 0x02, 0x00]))
      = some (some 0x4200000000000000, 32, 0x42) := by decide +kernel

/-- S4: DEC_RUN 4 answers OK 4 and emits 1, 3, 2, 0. -/
theorem test_decRun_s4 :
    look State.out (exec (.decRun 4) (s4 [0x80, 0xC0, 0x40, 0x00])) = some (some 4, [1, 3, 2, 0]) := by
  decide +kernel

/-- V31: with a larger quota the run ends with EOF and the count. -/
theorem test_decRun_eof :
    look State.out (exec (.decRun 100) (s4 [0x80, 0xC0, 0x40, 0x00]))
      = some (some 0x0100000000000004, [1, 3, 2, 0]) := by decide +kernel

/-- V42: an illegal word is answered IllegalCommand. -/
theorem test_step_illegal :
    look State.commands (step (demo.withFetchWord 64 0x2100000000000000))
      = some (some 0x7F00000000000000, []) := by decide +kernel

/-! ### The invariant of the small states -/

theorem twoTable_legal : TablesLegal 2 1 twoTable where
  wf := by decide
  below := by decide
  legal := by simp [twoTable, symbolEntry, tableEntryLegal]

theorem twoCode_inv {s : State} (hn : s.nsym = 2) (hc : s.code = twoCodes) : CodeInv s where
  nsym_le := by rw [hn]; decide
  wf := by rw [hc]; decide
  below := by rw [hc, hn]; decide
  legal := by rw [hc]; simp [twoCodes, codeEntryLegal, maxLen]

theorem fresh_inv (bytes : List Byte) (ending : SourceEnd) (budget : Word56) : Inv (fresh bytes ending budget) where
  reader :=
    { bounds := fun _ =>
        { nacc_le := by simp [fresh, State.reset]
          acc_above := fun j _ => by simp [fresh, State.reset]
          fetched := by simp [fresh, State.reset]
          pending_le := by simp [fresh, State.reset]
          srcpos_le := by simp [fresh, State.reset]
          remaining_le := by simp [fresh]
          outcnt_le := by simp [fresh, State.reset] }
      stream := fun _ =>
        { taken_le := by simp [fresh, State.reset]
          layout := fun j hj => by simp [fresh, State.reset] at hj }
      atReset := fun h => by simp [fresh] at h
      latch := Or.inl rfl }
  code := twoCode_inv rfl rfl
  tables := ⟨rfl, (by decide : 1 ≤ 1), (by decide : 1 ≤ 65793), twoTable_legal⟩

theorem spent_inv : Inv spent where
  reader :=
    { bounds := fun _ =>
        { nacc_le := by decide
          acc_above := fun j _ => by simp [spent, demo, fresh, State.reset]
          fetched := by decide
          pending_le := by decide
          srcpos_le := by decide
          remaining_le := by decide
          outcnt_le := by decide }
      stream := fun _ =>
        { taken_le := by decide
          layout := fun j hj => absurd hj (by simp [spent, demo, fresh, State.reset]) }
      atReset := fun h => by simp [spent, demo, fresh] at h
      latch := Or.inl rfl }
  code := twoCode_inv rfl rfl
  tables := ⟨rfl, by decide, by decide, twoTable_legal⟩

theorem coded_codeInv : CodeInv (coded 2 twoCodes) := twoCode_inv rfl rfl

theorem twoTable_no_cont (i : Nat) (h : i < 256) : (tableRead twoTable 0 i).kind ≠ .cont := by
  revert i; decide +kernel

theorem twoTable_symbols (i : Nat) (h : i < 256) (hs : (tableRead twoTable 0 i).kind = .symbol) :
    i = 0 ∨ i = 255 := by
  revert i; decide +kernel

/-- Only the root is reached in the two-symbol table. -/
theorem twoTable_reached {path : List Nat} {i : Nat} {e : Entry} (hp : ∀ j ∈ path, j < tableSize)
    (h : entryAt twoTable 0 (path ++ [i]) = some e) : path = [] ∧ e = tableRead twoTable 0 i := by
  cases path with
  | nil => exact ⟨rfl, by simpa [entryAt] using h.symm⟩
  | cons j rest =>
    exfalso
    have hj := twoTable_no_cont j (hp j (by simp))
    cases hr : rest ++ [i] with
    | nil => simp at hr
    | cons k more =>
      rw [List.cons_append, hr, entryAt] at h
      cases hk : (tableRead twoTable 0 j).kind <;> simp_all

theorem fresh_codeOf (bytes : List Byte) (ending : SourceEnd) (budget : Word56) (sym : Nat) (h : sym < 2) :
    codeOf (fresh bytes ending budget) sym = if sym = 0 then ⟨0x00, 8⟩ else ⟨0xFF, 8⟩ := by
  interval_cases sym <;> rfl

/-- The two-symbol table is the table of the two-symbol Code. -/
theorem twoTable_of_code : TableOfCode (fun sym => codeRead twoCodes sym) 2 twoTable where
  resolves := by
    intro sym i hs _ hi hf
    interval_cases sym
    · have : i = 0 := hf
      subst this; decide
    · have : i = 255 := hf
      subst this; decide
  symbolOnly := by
    intro path i e hp hi he hk
    obtain ⟨rfl, rfl⟩ := twoTable_reached hp he
    rcases twoTable_symbols i hi hk with rfl | rfl
    · exact ⟨0, by decide, by decide, by decide, rfl, by decide⟩
    · exact ⟨1, by decide, by decide, by decide, rfl, by decide⟩
  contOnly := by
    intro path i e hp hi he hk
    obtain ⟨-, rfl⟩ := twoTable_reached hp he
    exact absurd hk (twoTable_no_cont i hi)
  contMade := by
    intro sym path hs _ hne hpre
    exfalso
    interval_cases sym <;> exact hne (List.prefix_nil.mp hpre)

theorem fresh_matches (bytes : List Byte) (ending : SourceEnd) (budget : Word56) :
    TableMatchesCode (fresh bytes ending budget) := fun _ => twoTable_of_code

theorem spent_matches : TableMatchesCode spent := fun _ => twoTable_of_code

theorem twoCodes_prefixFree : PrefixFreeBelow (fun sym => codeRead twoCodes sym) 2 := by
  intro a b hab hb _ _
  have : a = 0 ∧ b = 1 := by omega
  obtain ⟨rfl, rfl⟩ := this
  unfold collide; decide

/-! ### Witnesses: for each statement with hypotheses, states and operands that meet them -/

/-- The state after a command. -/
def after (i : Instr) (s : State) : State :=
  match exec i s with
  | .next t => t
  | .fault _ => s
  | .refused _ => s

theorem decodeRun_next (n c : Nat) (s : State) : ∃ t, decodeRun n c s = .next t := by
  induction n generalizing c s with
  | zero => exact ⟨_, rfl⟩
  | succ n ih =>
    rw [decodeRun]
    split
    · exact ⟨_, rfl⟩
    · exact ⟨_, rfl⟩
    · exact ih _ _

theorem exec_next (i : Instr) (s : State) : ∃ t, exec i s = .next t := by
  cases i <;> simp only [exec]
  case reset => exact ⟨_, rfl⟩
  case rdreg => unfold execRdreg; split <;> exact ⟨_, rfl⟩
  case codeClr => unfold execCodeClr; split <;> exact ⟨_, rfl⟩
  case codeWr => unfold execCodeWr; (repeat' split) <;> exact ⟨_, rfl⟩
  case tblBuild => unfold execTblBuild; (repeat' split) <;> exact ⟨_, rfl⟩
  case tblRd => unfold execTblRd; (repeat' split) <;> exact ⟨_, rfl⟩
  case brInit => exact ⟨_, rfl⟩
  case readbits => unfold execReadbits; (repeat' split) <;> exact ⟨_, rfl⟩
  case peek => unfold execPeek; (repeat' split) <;> exact ⟨_, rfl⟩
  case decSym => unfold execDecSym; (repeat' split) <;> exact ⟨_, rfl⟩
  case decRun =>
    unfold execDecRun
    split
    · exact ⟨_, rfl⟩
    · exact decodeRun_next _ _ _

theorem exec_after (i : Instr) (s : State) : exec i s = .next (after i s) := by
  obtain ⟨t, ht⟩ := exec_next i s
  simp [after, ht]

theorem witness_DecodeOfEncodeIsTheCommand :
    (Instr.readbits 8).wf = true ∧ (Instr.rdreg 15).wf = true ∧ (Instr.codeWr 0xFFFFF 31 0xFFFFF).wf = true := by
  decide

theorem witness_EncodeOfDecodeIsTheWord : decode 0x21000000_00000008 = .ok (.readbits 8) := by rfl

/-- One word for each way a word can be illegal (V42). -/
theorem witness_IllegalWordsAreRefused_illegal :
    IllegalWord 0 ∧ IllegalWord 0x0100000000000001 ∧ IllegalWord 0x0200000000000010 ∧
    IllegalWord 0x1000000000200000 ∧ IllegalWord 0x1100200000000000 ∧ IllegalWord 0x1300000002000000 ∧
    IllegalWord 0x0200000000000009 ∧ IllegalWord 0x020000000000000E ∧ IllegalWord 0x2100000000000000 ∧
    IllegalWord 0x2100000000000009 ∧
    ({ State.reset with commands := [0] } : State).commands = [0] := by
  refine ⟨?_, ?_, ?_, ?_, ?_, ?_, ?_, ?_, ?_, ?_, rfl⟩ <;> (unfold IllegalWord; decide)

theorem witness_IllegalWordsAreRefused_legal :
    ¬ IllegalWord 0x020000000000000F ∧ ¬ IllegalWord 0x2100000000000008 ∧ ¬ IllegalWord 0x31FFFFFFFFFFFFFF ∧
    ¬ IllegalWord 0x1300000001FFFFFF ∧ ¬ IllegalWord 0x11001FFFFFFFFFFF := by
  refine ⟨?_, ?_, ?_, ?_, ?_⟩ <;> (unfold IllegalWord; decide)

theorem witness_StepRunsTheDecodedCommand :
    (demo.withFetchWord 64 0x2200000000000000).commands = [0x2200000000000000] ∧
    decode 0x2200000000000000 = .ok .peek := ⟨rfl, rfl⟩

theorem witness_IdleKeepsAllState : State.reset.commands = [] := rfl

/-- The first and the last register of the list, in a state where they differ from 0. -/
theorem witness_RdregReadsEveryRegister (regs : List (BitVec 4 × Word56))
    (h : regs = [(0, (status spent).setWidth 56), (1, spent.rerr.setWidth 56), (2, spent.terr.setWidth 56),
      (3, spent.nsym.setWidth 56), (4, spent.ntab.setWidth 56), (5, spent.remaining), (6, spent.srcpos),
      (7, spent.outcnt), (8, spent.budget0), (15, 0x48444501)]) :
    (0, 0x000B) ∈ regs ∧ (8, 16) ∈ regs ∧ (15, 0x48444501) ∈ regs := by
  subst h; decide +kernel

theorem witness_IllegalFieldsAreRefused :
    (9 ≤ (9 : BitVec 4).toNat ∧ (14 : BitVec 4).toNat ≤ 14) ∧ (0 : BitVec 4).toNat = 0 ∧
    9 ≤ (15 : BitVec 4).toNat := by decide

theorem witness_StatusBitsAreTheirFunctions : Inv spent ∧ 5 ≤ 15 := ⟨spent_inv, by decide⟩

theorem witness_CodeClrStartsACode :
    2 ^ 20 < (0x100001 : BitVec 21).toNat ∧ (0x100000 : BitVec 21).toNat ≤ 2 ^ 20 := by decide

theorem witness_CodeWrWritesOneElement :
    Memory.wf CodeEntry.unused (coded 2 twoCodes).code ∧ demo.tstate ≠ .notBuilt ∧
    Memory.wf CodeEntry.unused demo.code ∧ (coded 2 twoCodes).tstate = .notBuilt ∧
    ((coded 2 twoCodes).nsym.toNat ≤ (2 : Sym).toNat ∧ 20 < (21 : BitVec 5).toNat ∧
      2 ^ (2 : BitVec 5).toNat ≤ (4 : BitVec 20).toNat) ∧
    ((1 : Sym).toNat < (coded 2 twoCodes).nsym.toNat ∧ (20 : BitVec 5).toNat ≤ 20 ∧
      (0xFFFFF : BitVec 20).toNat < 2 ^ (20 : BitVec 5).toNat) := by decide

theorem witness_EmptyCodeBuildsAnEmptyRoot :
    CodeInv (coded 3 []) ∧ (coded 3 []).tstate = .notBuilt ∧
    ∀ sym, sym < (coded 3 []).nsym.toNat → (codeOf (coded 3 []) sym).len = 0 :=
  ⟨⟨by decide, by decide, by decide, by simp [coded]⟩, rfl, fun _ _ => rfl⟩

/-- The prefix Code of two 8-bit codes builds. -/
theorem witness_BuildSucceedsIffPrefixFree_good :
    CodeInv (coded 2 twoCodes) ∧ (coded 2 twoCodes).tstate = .notBuilt ∧
    exec .tblBuild (coded 2 twoCodes) = .next (after .tblBuild (coded 2 twoCodes)) ∧
    (after .tblBuild (coded 2 twoCodes)).tstate = .valid ∧ 65793 ≤ ntabMax (coded 2 twoCodes) ∧
    PrefixFreeBelow (codeOf (coded 2 twoCodes)) (coded 2 twoCodes).nsym.toNat :=
  ⟨coded_codeInv, rfl, exec_after _ _, by decide +kernel, by decide, twoCodes_prefixFree⟩

/-- Two equal codes (V25). -/
def equalCodes : Memory CodeEntry := [(0, ⟨0x00, 8⟩), (1, ⟨0x00, 8⟩)]

theorem equalCodes_codeInv : CodeInv (coded 2 equalCodes) :=
  ⟨by decide, by decide, by decide, by simp [coded, equalCodes, codeEntryLegal, maxLen]⟩

theorem witness_BuildSucceedsIffPrefixFree_bad :
    CodeInv (coded 2 equalCodes) ∧ (coded 2 equalCodes).tstate = .notBuilt ∧
    exec .tblBuild (coded 2 equalCodes) = .next (after .tblBuild (coded 2 equalCodes)) ∧
    (after .tblBuild (coded 2 equalCodes)).terr = 0x50 ∧
    (after .tblBuild (coded 2 equalCodes)).tstate = .failed ∧ 65793 ≤ ntabMax (coded 2 equalCodes) ∧
    ¬ PrefixFreeBelow (codeOf (coded 2 equalCodes)) (coded 2 equalCodes).nsym.toNat := by
  refine ⟨equalCodes_codeInv, rfl, exec_after _ _, by decide +kernel, by decide +kernel, by decide, ?_⟩
  intro h
  refine h 0 1 (by decide) (by decide) (by decide) (by decide) ?_
  unfold collide; decide

theorem witness_BuiltTableIsTheTableOfTheCode :
    ∃ t, CodeInv (coded 2 twoCodes) ∧ (coded 2 twoCodes).tstate = .notBuilt ∧
      exec .tblBuild (coded 2 twoCodes) = .next t ∧ t.tstate = .valid :=
  ⟨_, coded_codeInv, rfl, exec_after _ _, by decide +kernel⟩

/-- A Code of one 16-bit code, which needs two tables. -/
def longCode : State := coded 1 [(0, ⟨0xFFFF, 16⟩)]

theorem longCode_codeInv : CodeInv longCode :=
  ⟨by decide, by decide, by decide, by simp [longCode, coded, codeEntryLegal, maxLen]⟩

theorem witness_BuiltTablesAreATree :
    ∃ t, CodeInv longCode ∧ longCode.tstate = .notBuilt ∧ exec .tblBuild longCode = .next t ∧
      t.tstate = .valid ∧ 1 < t.ntab.toNat :=
  ⟨_, longCode_codeInv, rfl, exec_after _ _, by decide +kernel, by decide +kernel⟩

theorem witness_TablesHaveAtMostThreeLevels :
    CodeInv demo ∧ demo.tstate = .valid ∧ TableMatchesCode demo ∧ (∀ j ∈ ([] : List Nat), j < 256) ∧ 255 < 256 ∧
    entryAt demo.table 0 ([] ++ [255]) = some (symbolEntry 8 1) :=
  ⟨twoCode_inv rfl rfl, rfl, fresh_matches _ _ _, by simp, by decide, by decide +kernel⟩

/-- NTABMAX = 2 is enough for the long code, NTABMAX = 1 is not. -/
theorem witness_OverflowExactlyWhenTablesRunOut :
    ∃ t, CodeInv longCode ∧ longCode.tstate = .notBuilt ∧ exec .tblBuild longCode = .next t ∧
      t.tstate = .valid ∧ t.ntab.toNat ≤ (1 : Fin 131072).val + 1 ∧ (0 : Fin 131072).val + 1 < t.ntab.toNat :=
  ⟨_, longCode_codeInv, rfl, exec_after _ _, by decide +kernel, by decide +kernel, by decide +kernel⟩

theorem witness_FailedBuildIsContained :
    ∃ t, (coded 2 equalCodes).tstate = .notBuilt ∧ exec .tblBuild (coded 2 equalCodes) = .next t ∧
      t.tstate ≠ .valid ∧ (0x100000 : BitVec 21).toNat ≤ 2 ^ 20 :=
  ⟨_, rfl, exec_after _ _, by decide +kernel, by decide⟩

theorem witness_TblRdReadsOneEntry :
    State.reset.tstate ≠ .valid ∧ demo.tstate = .valid ∧ demo.ntab.toNat ≤ (1 : Handle).toNat ∧
    (0 : Handle).toNat < demo.ntab.toNat := by decide

theorem witness_BadStateCauses :
    demo.tstate ≠ .notBuilt ∧ State.reset.tstate ≠ .valid ∧ State.reset.rstate = .unbound ∧
    1 ≤ (8 : BitVec 4).toNat ∧ (8 : BitVec 4).toNat ≤ 8 ∧
    { demo with rstate := .unbound }.tstate = .valid := by decide

theorem witness_BrInitBindsAReader :
    ({ State.reset with sources := [⟨[0xFF], .eos, []⟩] } : State).sources = ⟨[0xFF], .eos, []⟩ :: [] := rfl

theorem witness_ReadbitsReturnsTheNextStreamBits :
    Inv demo ∧ demo.rstate = .active ∧ demo.rerr = 0 ∧ 1 ≤ (8 : BitVec 4).toNat ∧ (8 : BitVec 4).toNat ≤ 8 ∧
    (8 : BitVec 4).toNat ≤ demo.remaining.toNat ∧
    bitpos demo + (8 : BitVec 4).toNat ≤ 8 * demo.src.bytes.length :=
  ⟨fresh_inv _ _ _, rfl, rfl, by decide⟩

/-- One bit asked with none left and eight with seven left, with no reader, a latched fault, and neither. -/
theorem witness_ReadbitsOverBudgetTouchesNothing :
    State.reset.remaining.toNat < (1 : BitVec 4).toNat ∧ State.reset.rstate = .unbound ∧
    { spent with rerr := 0x42 }.remaining.toNat < (1 : BitVec 4).toNat ∧
    { spent with rerr := 0x42 }.rstate = .active ∧ { spent with rerr := 0x42 }.rerr ≠ 0 ∧
    spent.rstate = .active ∧ spent.rerr = 0 ∧ spent.remaining.toNat < (1 : BitVec 4).toNat ∧
    { demo with remaining := 7 }.remaining.toNat < (8 : BitVec 4).toNat := by decide

/-- The budget promises 8 bits, the source has none: it ends (V16), or fails (V17). -/
theorem witness_SourceEndingUnderBudgetFaults :
    Inv (fresh [] .eos 8) ∧ Inv (fresh [] .err 8) ∧ (fresh [] .err 8).rstate = .active ∧
    (fresh [] .err 8).rerr = 0 ∧ (1 : BitVec 4).toNat ≤ (fresh [] .err 8).remaining.toNat ∧
    8 * (fresh [] .err 8).src.bytes.length < bitpos (fresh [] .err 8) + (1 : BitVec 4).toNat ∧
    (fresh [] .err 8).remaining ≠ 0 ∧ (fresh [] .err 8).src.ending = .err ∧
    (fresh [] .eos 8).src.ending = .eos ∧ (fresh [] .eos 8).tstate = .valid ∧
    8 * (fresh [] .eos 8).src.bytes.length
      < bitpos (fresh [] .eos 8) + min 8 (fresh [] .eos 8).remaining.toNat :=
  ⟨fresh_inv _ _ _, fresh_inv _ _ _, by decide⟩

theorem witness_PeekShowsTheNextStreamBits :
    Inv demo ∧ demo.rstate = .active ∧ demo.rerr = 0 ∧ demo.remaining ≠ 0 ∧
    bitpos demo + min 8 demo.remaining.toNat ≤ 8 * demo.src.bytes.length :=
  ⟨fresh_inv _ _ _, by decide⟩

theorem witness_AfterTheBudgetIsExhausted :
    spent.rstate = .active ∧ spent.rerr = 0 ∧ spent.remaining = 0 ∧ spent.tstate = .valid ∧
    (1 : Word56) ≠ 0 ∧ 1 ≤ (1 : BitVec 4).toNat ∧ Inv spent := by
  refine ⟨?_, ?_, ?_, ?_, ?_, ?_, spent_inv⟩ <;> decide

theorem witness_LatchedFaultMakesReadsNoOps :
    State.reset.rstate = .unbound ∧ { demo with rerr := 0x41 }.rstate = .active ∧
    { demo with rerr := 0x41 }.rerr ≠ 0 ∧ { demo with rerr := 0x41 }.tstate = .valid ∧
    1 ≤ (1 : BitVec 4).toNat ∧ (8 : BitVec 4).toNat ≤ 8 := by decide

theorem witness_TwoReadsAreOneRead :
    ∃ t1 t2 t, Inv demo ∧ demo.rstate = .active ∧ demo.rerr = 0 ∧ 1 ≤ (1 : BitVec 4).toNat ∧
      1 ≤ (7 : BitVec 4).toNat ∧ (8 : BitVec 4).toNat = (1 : BitVec 4).toNat + (7 : BitVec 4).toNat ∧
      (8 : BitVec 4).toNat ≤ 8 ∧ (8 : BitVec 4).toNat ≤ demo.remaining.toNat ∧
      bitpos demo + (8 : BitVec 4).toNat ≤ 8 * demo.src.bytes.length ∧
      exec (.readbits 1) demo = .next t1 ∧ exec (.readbits 7) t1 = .next t2 ∧
      exec (.readbits 8) demo = .next t := by
  refine ⟨_, _, _, fresh_inv _ _ _, by decide, by decide, by decide, by decide, by decide, by decide, by decide,
    by decide, exec_after _ _, exec_after _ _, exec_after _ _⟩

/-- A 1-bit and a 32-bit value, written as 33 ones. -/
theorem witness_WrittenValuesReadBack :
    Inv (fresh [0xFF, 0xFF, 0xFF, 0xFF, 0x01] .eos 33) ∧
    (fresh [0xFF, 0xFF, 0xFF, 0xFF, 0x01] .eos 33).rstate = .active ∧
    (fresh [0xFF, 0xFF, 0xFF, 0xFF, 0x01] .eos 33).rerr = 0 ∧
    (∀ p ∈ [(1, 1), (4294967295, 32)], 1 ≤ p.2 ∧ p.2 ≤ 32 ∧ p.1 < 2 ^ p.2) ∧
    budgetedBits (fresh [0xFF, 0xFF, 0xFF, 0xFF, 0x01] .eos 33)
      = ([(1, 1), (4294967295, 32)].map fun p => valueBits p.1 p.2).flatten ∧
    (fresh [0xFF, 0xFF, 0xFF, 0xFF, 0x01] .eos 33).budget0.toNat
      ≤ 8 * (fresh [0xFF, 0xFF, 0xFF, 0xFF, 0x01] .eos 33).src.bytes.length :=
  ⟨fresh_inv _ _ _, by decide, by decide, by decide, by decide +kernel, by decide⟩

/-- The walk ends in each of its ways: a symbol, the end, an early end, a dead end with 8 bits left and with
fewer. -/
theorem witness_DecodeOneIsThePrefixWalk :
    Inv demo ∧ demo.tstate = .valid ∧ TableMatchesCode demo ∧ demo.rstate = .active ∧
    demo.budget0.toNat ≤ 8 * demo.src.bytes.length ∧
    walkOne (codeOf demo) demo.nsym.toNat (budgetedBits demo) = .sym 0 8 ∧
    Inv spent ∧ TableMatchesCode spent ∧
    walkOne (codeOf spent) spent.nsym.toNat (budgetedBits spent) = .ended ∧
    walkOne (codeOf (fresh [0x00] .eos 7)) 2 (budgetedBits (fresh [0x00] .eos 7)) = .unexpectedEOF 7 ∧
    walkOne (codeOf (fresh [0x01] .eos 8)) 2 (budgetedBits (fresh [0x01] .eos 8)) = .invalidCode 2 ∧
    walkOne (codeOf (fresh [0x01] .eos 7)) 2 (budgetedBits (fresh [0x01] .eos 7)) = .invalidCode 2 ∧
    decodeOne demo = .done (.sym 0) (decodeOne demo).state :=
  ⟨fresh_inv _ _ _, rfl, fresh_matches _ _ _, rfl, by decide, by decide +kernel, spent_inv, spent_matches,
    by decide +kernel, by decide +kernel, by decide +kernel, by decide +kernel, by decide +kernel⟩

theorem witness_DecSymEmitsTheNextSymbol :
    Inv demo ∧ demo.tstate = .valid ∧ TableMatchesCode demo ∧ demo.rstate = .active ∧ demo.rerr = 0 ∧
    demo.budget0.toNat ≤ 8 * demo.src.bytes.length ∧
    walkOne (codeOf demo) demo.nsym.toNat (budgetedBits demo) = .sym 0 8 :=
  ⟨fresh_inv _ _ _, rfl, fresh_matches _ _ _, rfl, rfl, by decide, by decide +kernel⟩

/-- The codewords of symbols 0 and 1, with a quota of 2 and of 3. -/
theorem witness_EncodedSequenceDecodesBack :
    Inv demo ∧ demo.tstate = .valid ∧ TableMatchesCode demo ∧ demo.rstate = .active ∧ demo.rerr = 0 ∧
    demo.budget0.toNat ≤ 8 * demo.src.bytes.length ∧
    (∀ x ∈ ([0, 1] : List Sym), x.toNat < demo.nsym.toNat ∧ (codeOf demo x.toNat).len ≠ 0) ∧
    budgetedBits demo = (([0, 1] : List Sym).map fun x => codewordBits (codeOf demo x.toNat)).flatten ∧
    ([0, 1] : List Sym).length ≤ (2 : Word56).toNat ∧ ([0, 1] : List Sym).length ≤ (3 : Word56).toNat :=
  ⟨fresh_inv _ _ _, rfl, fresh_matches _ _ _, rfl, rfl, by decide,
    fun x hx => by rcases List.mem_pair.mp hx with rfl | rfl <;> decide, by decide +kernel, by decide, by decide⟩

/-- The long code built, root and one sub-table, and a reader just bound. -/
def deepTable : Memory Entry := [(255, contEntry 1), (511, symbolEntry 8 0)]

def deep (bytes : List Byte) (ending : SourceEnd) (budget : Word56) : State :=
  { fresh bytes ending budget with nsym := 1, code := longCode.code, table := deepTable, ntab := 2 }

theorem deepTable_legal : TablesLegal 1 2 deepTable where
  wf := by decide
  below := by decide
  legal := by simp [deepTable, symbolEntry, contEntry, tableEntryLegal, tableSize]

theorem deep_inv (bytes : List Byte) (ending : SourceEnd) (budget : Word56) : Inv (deep bytes ending budget) where
  reader :=
    { bounds := fun a => { (fresh_inv bytes ending budget).reader.bounds a with }
      stream := fun a => { (fresh_inv bytes ending budget).reader.stream a with }
      atReset := fun a => { (fresh_inv bytes ending budget).reader.atReset a with }
      latch := Or.inl rfl }
  code := { longCode_codeInv with }
  tables := ⟨rfl, (by decide : 1 ≤ 2), (by decide : 2 ≤ 65793), deepTable_legal⟩

theorem deepTable_root (i : Nat) (h : i < 256) :
    (tableRead deepTable 0 i).kind = if i = 255 then .cont else .empty := by
  revert i; decide +kernel

theorem deepTable_sub (i : Nat) (h : i < 256) :
    (tableRead deepTable 1 i).kind = if i = 255 then .symbol else .empty := by
  revert i; decide +kernel

/-- What is reached in the deep table: the root, and table 1 through slot 255. -/
theorem deepTable_reached {path : List Nat} {i : Nat} {e : Entry} (hp : ∀ j ∈ path, j < tableSize)
    (h : entryAt deepTable 0 (path ++ [i]) = some e) :
    (path = [] ∧ e = tableRead deepTable 0 i) ∨ (path = [255] ∧ e = tableRead deepTable 1 i) := by
  rcases path with _ | ⟨j, _ | ⟨k, rest⟩⟩
  · exact .inl ⟨rfl, by simpa [entryAt] using h.symm⟩
  · have hj := deepTable_root j (hp j (by simp))
    by_cases h255 : j = 255
    · subst h255
      exact .inr ⟨rfl, (Option.some.inj h).symm⟩
    · simp [entryAt, hj, h255] at h
  · exfalso
    have hj := deepTable_root j (hp j (by simp))
    have hk := deepTable_sub k (hp k (by simp))
    obtain ⟨m, more, hr⟩ : ∃ m more, rest ++ [i] = m :: more := by cases rest <;> simp
    by_cases h255 : j = 255
    · subst h255
      have hc : (tableRead deepTable 0 255).payload.toNat = 1 := by decide +kernel
      simp only [List.cons_append, hr, entryAt, hj, hc, hk] at h
      by_cases hk255 : k = 255 <;> simp [hk255] at h
    · simp [entryAt, hj, h255] at h

theorem deepTable_of_code : TableOfCode (fun sym => codeRead longCode.code sym) 1 deepTable where
  resolves := by
    intro sym i hs _ _ hf
    obtain rfl : sym = 0 := by omega
    obtain rfl : i = 255 := hf
    decide
  symbolOnly := by
    intro path i e hp hi he hk
    rcases deepTable_reached hp he with ⟨rfl, rfl⟩ | ⟨rfl, rfl⟩
    · rw [deepTable_root i hi] at hk
      split at hk <;> simp at hk
    · rw [deepTable_sub i hi] at hk
      split at hk
      · subst i
        exact ⟨0, by decide, by decide, by decide, rfl, by decide⟩
      · simp at hk
  contOnly := by
    intro path i e hp hi he hk
    rcases deepTable_reached hp he with ⟨rfl, rfl⟩ | ⟨rfl, rfl⟩
    · rw [deepTable_root i hi] at hk
      split at hk
      · subst i
        exact ⟨0, by decide, by decide, List.prefix_refl _⟩
      · simp at hk
    · rw [deepTable_sub i hi] at hk
      split at hk <;> simp at hk
  contMade := by
    intro sym path hs _ hne hpre
    obtain rfl : sym = 0 := by omega
    have h1 : path <+: [255] := hpre
    obtain rfl : path = [255] := by
      rcases List.prefix_cons_iff.mp h1 with h | ⟨t, rfl, h⟩
      · exact absurd h hne
      · rw [List.prefix_nil.mp h]
    exact ⟨contEntry 1, by decide, rfl⟩

theorem deep_matches (bytes : List Byte) (ending : SourceEnd) (budget : Word56) :
    TableMatchesCode (deep bytes ending budget) := fun _ => deepTable_of_code

/-- After the continuation 7 bits are left, or none, or the next byte is no code; at the root 7 bits are left. -/
theorem witness_FailedDecodesKeepContinuationsConsumed :
    Inv (deep [0xFF, 0xFF] .eos 15) ∧ (deep [0xFF, 0xFF] .eos 15).tstate = .valid ∧
    TableMatchesCode (deep [0xFF, 0xFF] .eos 15) ∧ (deep [0xFF, 0xFF] .eos 15).rstate = .active ∧
    (deep [0xFF, 0xFF] .eos 15).rerr = 0 ∧
    (deep [0xFF, 0xFF] .eos 15).budget0.toNat ≤ 8 * (deep [0xFF, 0xFF] .eos 15).src.bytes.length ∧
    walkOne (codeOf (deep [0xFF, 0xFF] .eos 15)) 1 (budgetedBits (deep [0xFF, 0xFF] .eos 15)) = .unexpectedEOF 15 ∧
    walkOne (codeOf (deep [0xFF] .eos 8)) 1 (budgetedBits (deep [0xFF] .eos 8)) = .unexpectedEOF 8 ∧
    walkOne (codeOf (deep [0xFF] .eos 7)) 1 (budgetedBits (deep [0xFF] .eos 7)) = .unexpectedEOF 7 ∧
    walkOne (codeOf (deep [0xFF, 0] .eos 16)) 1 (budgetedBits (deep [0xFF, 0] .eos 16)) = .invalidCode 9 :=
  ⟨deep_inv _ _ _, rfl, deep_matches _ _ _, rfl, rfl, by decide, by decide +kernel, by decide +kernel,
    by decide +kernel, by decide +kernel⟩

/-- A budget of 20 bits on sources of no byte, of one, of two that hold the code, and of two that hold none. -/
theorem witness_DecodesOnAShortSource :
    Inv (deep [0xFF] .err 20) ∧ (deep [0xFF] .err 20).tstate = .valid ∧ TableMatchesCode (deep [0xFF] .err 20) ∧
    (deep [0xFF] .err 20).rstate = .active ∧ (deep [0xFF] .err 20).rerr = 0 ∧
    8 * (deep [0xFF] .err 20).src.bytes.length
      < bitpos (deep [0xFF] .err 20) + (deep [0xFF] .err 20).remaining.toNat ∧
    1 = (8 * (deep [0xFF] .err 20).src.bytes.length - bitpos (deep [0xFF] .err 20)) / 8 ∧
    walkOne (codeOf (deep [0xFF] .err 20)) 1 (streamBits [0xFF] 0 (8 * 1)) = .unexpectedEOF 8 ∧
    walkOne (codeOf (deep [] .eos 20)) 1 (streamBits [] 0 (8 * 0)) = .ended ∧
    walkOne (codeOf (deep [0xFF, 0xFF] .eos 20)) 1 (streamBits [0xFF, 0xFF] 0 (8 * 2)) = .sym 0 16 ∧
    walkOne (codeOf (deep [0xFF, 0x00] .eos 20)) 1 (streamBits [0xFF, 0x00] 0 (8 * 2)) = .invalidCode 9 :=
  ⟨deep_inv _ _ _, rfl, deep_matches _ _ _, rfl, rfl, by decide, by decide, by decide +kernel, by decide +kernel,
    by decide +kernel, by decide +kernel⟩

theorem witness_DecRunIsDecSymRepeated :
    ∃ t u, demo.tstate = .valid ∧ demo.rstate = .active ∧ demo.rerr = 0 ∧ (5 : Word56) ≠ 0 ∧
      exec .decSym demo = .next t ∧ responseCode t = 0x00 ∧
      spent.tstate = .valid ∧ spent.rstate = .active ∧ spent.rerr = 0 ∧
      exec .decSym spent = .next u ∧ responseCode u ≠ 0x00 :=
  ⟨_, _, rfl, rfl, rfl, by decide, exec_after _ _, by decide +kernel, rfl, rfl, rfl, exec_after _ _,
    by decide +kernel⟩

theorem witness_DecRunResultIsTheNumberEmitted :
    ∃ t, Inv demo ∧ exec (.decRun 2) demo = .next t ∧ demo.rstate = .active :=
  ⟨_, fresh_inv _ _ _, exec_after _ _, rfl⟩

/-- An EMPTY slot with 8 bits, one with 7, a SYMBOL entry longer than the 7 bits there are, and one that fits. -/
theorem witness_FirstProbeOutcomes :
    Inv (fresh [0x01] .eos 8) ∧ (fresh [0x01] .eos 8).remaining ≠ 0 ∧ (fresh [0x01] .eos 8).tstate = .valid ∧
    (fresh [0x01] .eos 8).rstate = .active ∧ (fresh [0x01] .eos 8).rerr = 0 ∧
    bitpos (fresh [0x01] .eos 8) + min 8 (fresh [0x01] .eos 8).remaining.toNat
      ≤ 8 * (fresh [0x01] .eos 8).src.bytes.length ∧
    (tableRead twoTable 0 (streamIndex [0x01] 0 8)).kind = .empty ∧
    Inv (fresh [0x00] .eos 7) ∧ (fresh [0x00] .eos 7).remaining.toNat < 8 ∧
    tableRead twoTable 0 (streamIndex [0x00] 0 7) = symbolEntry 8 0 ∧
    (tableRead twoTable 0 (streamIndex [0x01] 0 7)).kind = .empty ∧
    Inv (fresh [0xFF] .eos 8) ∧ tableRead twoTable 0 (streamIndex [0xFF] 0 8) = symbolEntry 8 1 ∧
    (symbolEntry 8 1).len.toNat ≤ (fresh [0xFF] .eos 8).remaining.toNat :=
  ⟨fresh_inv _ _ _, by decide, rfl, rfl, rfl, by decide, by decide +kernel, fresh_inv _ _ _, by decide,
    by decide +kernel, by decide +kernel, fresh_inv _ _ _, by decide +kernel, by decide +kernel⟩

theorem witness_OnlyUsedSymbolsAreEmitted :
    ∃ t, Inv demo ∧ TableMatchesCode demo ∧ Instr.decRun 2 ≠ .reset ∧ exec (.decRun 2) demo = .next t ∧
      t.out = [0, 1] :=
  ⟨_, fresh_inv _ _ _, fresh_matches _ _ _, by decide, exec_after _ _, by decide +kernel⟩

theorem witness_EveryCommandIsAnswered :
    rerrLegal (demo.withFetchWord 64 0).rerr ∧ (demo.withFetchWord 64 0).commands = 0 :: [] ∧
    rerrLegal { demo with rerr := 0x42 }.rerr := ⟨Or.inl rfl, rfl, Or.inr (Or.inr (Or.inr rfl))⟩

theorem witness_RefusalsChangeNoState :
    ∃ t w, exec .peek State.reset = .next t ∧ t.response = some w ∧ 0x7C ≤ w.toNat / 2 ^ 56 :=
  ⟨after .peek State.reset, 0x7E00000000000000, exec_after _ _, by decide +kernel, by decide⟩

theorem witness_FirstReaderFaultWins :
    ∃ t u v, exec .peek { demo with rerr := 0x41 } = .next t ∧ { demo with rerr := 0x41 }.rerr ≠ 0 ∧
      Instr.peek ≠ .reset ∧ (∀ budget, Instr.peek ≠ .brInit budget) ∧
      exec (.readbits 1) spent = .next u ∧ spent.rerr = 0 ∧ u.rerr ≠ 0 ∧
      u.response = some (responseWord 0x40 0) ∧
      exec (.brInit 8) { demo with rerr := 0x41 } = .next v ∧ rerrLegal spent.rerr :=
  ⟨_, _, _, exec_after _ _, by decide, by decide, by simp, exec_after _ _, rfl, by decide +kernel,
    by decide +kernel, exec_after _ _, Or.inl rfl⟩

theorem witness_CodeIsImmutableOnceBuilt :
    ∃ t u, exec (.codeWr 0 8 1) demo = .next t ∧ demo.tstate ≠ .notBuilt ∧ Instr.codeWr 0 8 1 ≠ .reset ∧
      (∀ nsym, Instr.codeWr 0 8 1 ≠ .codeClr nsym) ∧
      exec (.brInit 8) State.reset = .next u ∧ (∀ sym len value, Instr.brInit 8 ≠ .codeWr sym len value) ∧
      Instr.brInit 8 ≠ .tblBuild :=
  ⟨_, _, exec_after _ _, by decide, by decide, by simp, exec_after _ _, by simp, by decide⟩

theorem witness_OutIsAppendOnly :
    ∃ t u, exec (.decRun 2) demo = .next t ∧ Instr.decRun 2 ≠ .reset ∧ exec .peek demo = .next u ∧
      Instr.peek ≠ .decSym ∧ ∀ quota, Instr.peek ≠ .decRun quota :=
  ⟨_, _, exec_after _ _, by decide, exec_after _ _, by decide, by simp⟩

theorem witness_InspectionChangesNothing :
    ∃ t u, exec (.rdreg 0) demo = .next t ∧ exec (.tblRd 0 0) demo = .next u :=
  ⟨_, _, exec_after _ _, exec_after _ _⟩

theorem witness_ReadsChangeOnlyTheReader :
    ∃ t u, exec (.readbits 8) demo = .next t ∧ exec .peek demo = .next u := ⟨_, _, exec_after _ _, exec_after _ _⟩

theorem witness_DecodesChangeOnlyReaderAndOut :
    ∃ t u, exec .decSym demo = .next t ∧ exec (.decRun 2) demo = .next u := ⟨_, _, exec_after _ _, exec_after _ _⟩

theorem witness_LoadingAndBuildingLeaveTheReader :
    ∃ t u v, exec (.codeClr 2) demo = .next t ∧ exec (.codeWr 0 8 0) (coded 2 []) = .next u ∧
      exec .tblBuild (coded 2 twoCodes) = .next v := ⟨_, _, _, exec_after _ _, exec_after _ _, exec_after _ _⟩

theorem witness_SourceStandsAfterTheRegion : Inv spent ∧ spent.rstate = .active ∧ spent.remaining = 0 :=
  ⟨spent_inv, rfl, rfl⟩

theorem withFetchWord_inv {s : State} (h : Inv s) (nbits w : Nat) : Inv (s.withFetchWord nbits w) where
  reader :=
    { bounds := fun a => { h.reader.bounds a with }
      stream := fun a => { h.reader.stream a with }
      atReset := fun a => { h.reader.atReset a with }
      latch := h.reader.latch }
  code := { h.code with }
  tables := h.tables

theorem witness_StepKeepsTheInvariant :
    ∃ t, Inv (demo.withFetchWord 64 0x3100000000000002) ∧
      step (demo.withFetchWord 64 0x3100000000000002) = .next t ∧ t.out = [0, 1] :=
  ⟨after (.decRun 2) demo, withFetchWord_inv (fresh_inv _ _ _) _ _, exec_after (.decRun 2) demo, by decide +kernel⟩

theorem witness_StepKeepsTheTableOfTheCode :
    ∃ t, Inv (demo.withFetchWord 64 0x3100000000000002) ∧
      TableMatchesCode (demo.withFetchWord 64 0x3100000000000002) ∧
      ValidMeansPrefixFree (demo.withFetchWord 64 0x3100000000000002) ∧
      step (demo.withFetchWord 64 0x3100000000000002) = .next t :=
  ⟨after (.decRun 2) demo, withFetchWord_inv (fresh_inv _ _ _) _ _, fun _ => twoTable_of_code,
    fun _ => twoCodes_prefixFree, exec_after (.decRun 2) demo⟩

/-- The same reader, whose source answers one byte at a time. -/
def demoByByte : State := { demo with src := { demo.src with chunks := [1, 1] } }

theorem demoByByte_inv : Inv demoByByte where
  reader :=
    { bounds := fun a => { (fresh_inv [0x00, 0xFF] .eos 16).reader.bounds a with }
      stream := fun a => { (fresh_inv [0x00, 0xFF] .eos 16).reader.stream a with }
      atReset := fun a => { (fresh_inv [0x00, 0xFF] .eos 16).reader.atReset a with }
      latch := Or.inl rfl }
  code := twoCode_inv rfl rfl
  tables := (fresh_inv [0x00, 0xFF] .eos 16).tables

theorem witness_ResponsesIgnoreTheChunking :
    ∃ s' t', Inv demo ∧ Inv demoByByte ∧ SameButChunking demo demoByByte ∧
      exec .decSym demo = .next s' ∧ exec .decSym demoByByte = .next t' ∧ s'.acc ≠ t'.acc :=
  ⟨_, _, fresh_inv _ _ _, demoByByte_inv, ⟨_, _, _, _, _, rfl⟩, exec_after _ _, exec_after _ _,
    by decide +kernel⟩

/-- Code A's lengths (S3), and its values. -/
theorem witness_CanonicalValuesArePrefixFree :
    (∀ l ∈ [2, 1, 3, 3], l ≤ 20) ∧ 2 < [2, 1, 3, 3].length ∧ 3 < [2, 1, 3, 3].length ∧
    [2, 1, 3, 3].getD 2 0 ≠ 0 ∧ [2, 1, 3, 3].getD 2 0 = [2, 1, 3, 3].getD 3 0 ∧
    [2, 1, 3, 3].getD 1 0 ≤ [2, 1, 3, 3].getD 2 0 ∧
    (List.range 4).map (canonicalValue [2, 1, 3, 3]) = [2, 0, 6, 7] := by decide

theorem witness_CodeLoadLoadsTheCanonicalCode :
    [2, 1, 3, 3].length ≤ 2 ^ 20 ∧ (∀ l ∈ [2, 1, 3, 3], l ≤ 20) ∧
    ∀ sym, sym < [2, 1, 3, 3].length → canonicalValue [2, 1, 3, 3] sym < 2 ^ [2, 1, 3, 3].getD sym 0 := by decide

end Sys2Proof.Tests
end

section
/-! SUPPORT, and the proof of O53. The canonical value assignment (spec/00_scope.md R9). The symbols of one length get
the values from `firstValue` up, in symbol order; a longer length's first value lies past all of them shifted left. -/

namespace Sys2Proof.Machine

@[simp] theorem lengthCount_zero (lens : List Nat) : lengthCount lens 0 = 0 := rfl

theorem lengthCount_of_ne_zero {lens : List Nat} {l : Nat} (hl : l ≠ 0) : lengthCount lens l = lens.count l :=
  if_neg hl

@[simp] theorem firstValue_zero (lens : List Nat) : firstValue lens 0 = 0 := rfl

theorem firstValue_succ (lens : List Nat) (l : Nat) :
    firstValue lens (l + 1) = (firstValue lens l + lengthCount lens l) <<< 1 := rfl

theorem canonicalValue_of_length_ne_zero {lens : List Nat} {sym : Nat} (h : lens.getD sym 0 ≠ 0) :
    canonicalValue lens sym
      = firstValue lens (lens.getD sym 0) + (lens.take sym).count (lens.getD sym 0) := by
  unfold canonicalValue
  split
  next h0 => exact absurd h0 h
  next l hl => rw [hl]

/-- The value after a length's last one, shifted to a longer length, is at most that length's first value: this keeps
the canonical code prefix-free. -/
theorem shiftLeft_add_lengthCount_le_firstValue (lens : List Nat) (l d : Nat) :
    (firstValue lens l + lengthCount lens l) <<< (d + 1) ≤ firstValue lens (l + d + 1) := by
  induction d with
  | zero => exact (firstValue_succ lens l).ge
  | succ d ih =>
    calc (firstValue lens l + lengthCount lens l) <<< (d + 1 + 1)
        = (firstValue lens l + lengthCount lens l) <<< (d + 1) <<< 1 := Nat.shiftLeft_add _ _ _
      _ ≤ (firstValue lens (l + d + 1) + lengthCount lens (l + d + 1)) <<< 1 := by
          rw [Nat.shiftLeft_eq _ 1, Nat.shiftLeft_eq _ 1]
          exact Nat.mul_le_mul_right _ (ih.trans (Nat.le_add_right _ _))
      _ = firstValue lens (l + (d + 1) + 1) := (firstValue_succ lens (l + d + 1)).symm

/-- Between symbol `a` and position `b` the values of `a`'s length go up by one per symbol of that length. -/
theorem canonicalValue_add_count {lens : List Nat} {a b : Nat} (ha : lens.getD a 0 ≠ 0) (hab : a ≤ b) :
    canonicalValue lens a + ((lens.drop a).take (b - a)).count (lens.getD a 0)
      = firstValue lens (lens.getD a 0) + (lens.take b).count (lens.getD a 0) := by
  have hsplit : lens.take b = lens.take a ++ (lens.drop a).take (b - a) := by
    rw [← List.take_add, Nat.add_sub_cancel' hab]
  rw [canonicalValue_of_length_ne_zero ha, hsplit, List.count_append, Nat.add_assoc]

theorem canonicalValue_lt {lens : List Nat} {a b : Nat} (ha : lens.getD a 0 ≠ 0) (hlen : a < lens.length)
    (hab : a < b) :
    canonicalValue lens a < firstValue lens (lens.getD a 0) + (lens.take b).count (lens.getD a 0) := by
  have hmem : lens.getD a 0 ∈ (lens.drop a).take (b - a) := by
    rw [List.getD_eq_getElem _ _ hlen, List.drop_eq_getElem_cons hlen, List.take_cons (by omega)]
    exact List.mem_cons_self
  have hcount := List.count_pos_iff.mpr hmem
  have hsum := canonicalValue_add_count ha hab.le
  omega

theorem canonicalValue_lt_of_same_length {lens : List Nat} {a b : Nat} (ha : lens.getD a 0 ≠ 0)
    (hlen : a < lens.length) (hsame : lens.getD a 0 = lens.getD b 0) (hab : a < b) :
    canonicalValue lens a < canonicalValue lens b := by
  have hb := canonicalValue_of_length_ne_zero (hsame ▸ ha)
  rw [← hsame] at hb
  exact hb ▸ canonicalValue_lt ha hlen hab

/-- The first bits of a longer canonical code exceed every code of their own length. -/
theorem canonicalValue_lt_shiftRight_of_longer {lens : List Nat} {a b : Nat} (ha : lens.getD a 0 ≠ 0)
    (hlen : a < lens.length) (hlt : lens.getD a 0 < lens.getD b 0) :
    canonicalValue lens a < canonicalValue lens b >>> (lens.getD b 0 - lens.getD a 0) := by
  obtain ⟨d, hd⟩ := Nat.exists_eq_add_of_lt hlt
  have hend := canonicalValue_lt ha hlen hlen
  rw [List.take_length, ← lengthCount_of_ne_zero ha] at hend
  have hfirst : firstValue lens (lens.getD b 0) ≤ canonicalValue lens b := by
    rw [canonicalValue_of_length_ne_zero (by omega)]
    exact Nat.le_add_right _ _
  have hshift := shiftLeft_add_lengthCount_le_firstValue lens (lens.getD a 0) d
  rw [← hd, Nat.shiftLeft_eq] at hshift
  rw [show lens.getD b 0 - lens.getD a 0 = d + 1 by omega, Nat.shiftRight_eq_div_pow]
  exact hend.trans_le ((Nat.le_div_iff_mul_le (Nat.two_pow_pos _)).mpr (hshift.trans hfirst))

/-- Settles O53: values of one length count up in symbol order, and a longer code's first bits lie past them all. -/
theorem canonicalValuesArePrefixFree : Obligations.CanonicalValuesArePrefixFree := by
  intro lens a b _ halen hblen ha hb
  refine ⟨fun hsame hab => ?_, fun hne hle => ?_⟩
  · rw [canonicalValue_add_count ha hab, canonicalValue_of_length_ne_zero hb, hsame]
  · obtain hlt | hsame := hle.lt_or_eq
    · exact (canonicalValue_lt_shiftRight_of_longer ha halen hlt).ne'
    · rw [hsame, Nat.sub_self, Nat.shiftRight_zero]
      obtain hab | hba := hne.lt_or_gt
      · exact (canonicalValue_lt_of_same_length ha halen hsame hab).ne'
      · exact (canonicalValue_lt_of_same_length hb hblen hsame.symm hba).ne

end Sys2Proof.Machine
end

section
/-! SUPPORT. TABLE stays legal while it is built (spec/30_encoding.md R115, spec/41_table_build.md R173 to R176). -/

namespace Sys2Proof.Machine

open Sys2Proof.Config

/-! ### Entries and tables -/

theorem contEntry_legal {nsym ntab a h : Nat} (h1 : 1 ≤ h) (hlt : h < ntab) (hfits : h < 2 ^ 20)
    (hown : h ≠ a / tableSize) : tableEntryLegal nsym ntab a (contEntry h) := by
  have hp : (BitVec.ofNat 20 h).toNat = h := Nat.mod_eq_of_lt hfits
  simp only [tableEntryLegal, contEntry, hp]
  exact ⟨rfl, h1, hlt, hown⟩

theorem symbolEntry_legal {nsym ntab a rem sym : Nat} (h1 : 1 ≤ rem) (h8 : rem ≤ 8) (hsym : sym < nsym)
    (hnsym : nsym ≤ maxSym) : tableEntryLegal nsym ntab a (symbolEntry rem sym) := by
  have hl : (BitVec.ofNat 4 rem).toNat = rem := Nat.mod_eq_of_lt (by omega)
  have hp : (BitVec.ofNat 20 sym).toNat = sym := Nat.mod_eq_of_lt (hsym.trans_le hnsym)
  simp only [tableEntryLegal, symbolEntry, hl, hp]
  exact ⟨h1, h8, hsym⟩

/-- Every entry stays legal when one more table is allocated. -/
theorem tableEntryLegal_succ {nsym ntab a : Nat} {e : Entry} (h : tableEntryLegal nsym ntab a e) :
    tableEntryLegal nsym (ntab + 1) a e := by
  unfold tableEntryLegal at h ⊢
  cases hk : e.kind <;> simp only [hk] at h ⊢
  · exact h
  · obtain ⟨hlen, hpos, hlt, hown⟩ := h
    exact ⟨hlen, hpos, by omega, hown⟩

theorem tablesLegal_nil (nsym ntab : Nat) : TablesLegal nsym ntab [] := ⟨wf_nil, by simp, by simp⟩

theorem tablesLegal_succ {nsym ntab : Nat} {t : Memory Entry} (h : TablesLegal nsym ntab t) :
    TablesLegal nsym (ntab + 1) t :=
  ⟨h.wf, fun c hc => (h.below c hc).trans_le (Nat.mul_le_mul_left _ (Nat.le_succ ntab)),
    fun c hc => tableEntryLegal_succ (h.legal c hc)⟩

theorem clear_legal {nsym ntab : Nat} {t : Memory Entry} (h : TablesLegal nsym ntab t) (a n : Nat) :
    TablesLegal nsym ntab (Memory.clear t a n) :=
  ⟨clear_wf h.wf a n, fun c hc => h.below c (List.mem_of_mem_filter hc),
    fun c hc => h.legal c (List.mem_of_mem_filter hc)⟩

theorem tableWrite_legal {nsym ntab h i : Nat} {t : Memory Entry} {e : Entry} (ht : TablesLegal nsym ntab t)
    (hh : h < ntab) (hi : i < 256) (he : tableEntryLegal nsym ntab (tableAddr h i) e) :
    TablesLegal nsym ntab (tableWrite t h i e) where
  wf := tableWrite_wf ht.wf h i e
  below c hc := by
    obtain hc | ⟨rfl, -⟩ := write_keys hc
    · exact ht.below c hc
    · simp only [tableAddr, tableSize]; omega
  legal c hc := by
    obtain hc | ⟨rfl, -⟩ := write_keys hc
    · exact ht.legal c hc
    · exact he

/-- A CONT entry of a legal TABLE leads to a table that exists. -/
theorem cont_payload_lt {nsym ntab h i : Nat} {t : Memory Entry} (ht : TablesLegal nsym ntab t)
    (hk : (tableRead t h i).kind = .cont) : (tableRead t h i).payload.toNat < ntab := by
  obtain he | he := read_listed_or_default (d := Entry.empty) t (tableAddr h i)
  · rw [tableRead, he] at hk; cases hk
  · have hlegal := ht.legal _ he
    rw [tableRead] at hk ⊢
    simp only [tableEntryLegal, hk] at hlegal
    exact hlegal.2.2.1

/-! ### The arena -/

/-- The tables while they are built: between 1 and NTABMAX of them, holding only legal entries. -/
structure ArenaLegal (nsym ntabmax : Nat) (a : Arena) : Prop where
  ntab_pos : 1 ≤ a.ntab
  ntab_le : a.ntab ≤ ntabmax
  tables : TablesLegal nsym a.ntab a.table

section

variable {nsym m : Nat} {a a2 : Arena}

theorem rootArena_legal (hm : 1 ≤ m) : ArenaLegal nsym m rootArena := ⟨le_refl _, hm, tablesLegal_nil _ _⟩

theorem descendOnce_legal {h h2 b : Nat} (ha : ArenaLegal nsym m a) (hm : m < 2 ^ 20) (hh : h < a.ntab)
    (hb : b < 256) (hd : descendOnce m h b a = .ok (h2, a2)) : ArenaLegal nsym m a2 ∧ h2 < a2.ntab := by
  obtain ⟨hpos, hle, ht⟩ := ha
  obtain ⟨-, h1⟩ | ⟨hk, h1⟩ | ⟨-, -, h1⟩ | ⟨-, hroom, h1⟩ := descendOnce_cases m h b a <;> rw [h1] at hd <;> cases hd
  case inr.inl => exact ⟨⟨hpos, hle, ht⟩, cont_payload_lt ht hk⟩
  case inr.inr.inr =>
    have hcont : tableEntryLegal nsym (a.ntab + 1) (tableAddr h b) (contEntry a.ntab) :=
      contEntry_legal hpos (by omega) (by omega) (by simp only [tableAddr, tableSize]; omega)
    exact ⟨⟨Nat.le_add_left 1 _, hle.lt_of_ne hroom,
      tableWrite_legal (tablesLegal_succ (clear_legal ht _ _)) (Nat.lt_succ_of_lt hh) hb hcont⟩, Nat.lt_succ_self _⟩

theorem descend_legal {value k rem h h2 : Nat} (ha : ArenaLegal nsym m a) (hm : m < 2 ^ 20) (hh : h < a.ntab)
    (hd : descend m value k rem h a = .ok (h2, a2)) : ArenaLegal nsym m a2 ∧ h2 < a2.ntab := by
  induction k generalizing rem h a with
  | zero => cases hd; exact ⟨ha, hh⟩
  | succ k ih =>
    rw [descend] at hd
    split at hd
    next => cases hd
    next h' a' honce =>
      obtain ⟨ha', hh'⟩ := descendOnce_legal ha hm hh (chunk_lt value rem) honce
      exact ih ha' hh' hd

theorem fillSlots_legal {h n i : Nat} {e : Entry} (ha : ArenaLegal nsym m a) (hh : h < a.ntab)
    (hi : i + n ≤ 256) (he : ∀ addr, tableEntryLegal nsym a.ntab addr e)
    (hf : fillSlots h e n i a = .ok a2) : ArenaLegal nsym m a2 := by
  induction n generalizing i a with
  | zero => cases hf; exact ha
  | succ n ih =>
    rw [fillSlots] at hf
    split at hf
    next => cases hf
    next =>
      have ha' : ArenaLegal nsym m { a with table := tableWrite a.table h i e } :=
        { ha with tables := tableWrite_legal ha.tables hh (by omega) (he _) }
      exact ih ha' hh (by omega) he hf

theorem insertCode_legal {sym : Nat} {c : CodeEntry} (ha : ArenaLegal nsym m a) (hm : m < 2 ^ 20)
    (hsym : sym < nsym) (hnsym : nsym ≤ maxSym) (hi : insertCode m sym c a = .ok a2) : ArenaLegal nsym m a2 := by
  rw [insertCode] at hi
  split at hi
  next => cases hi; exact ha
  next hlen =>
    obtain ⟨h1, h8⟩ := lastBits_range hlen
    simp only at hi
    split at hi
    next => cases hi
    next h a' hd =>
      obtain ⟨ha', hh⟩ := descend_legal ha hm ha.ntab_pos hd
      exact fillSlots_legal ha' hh (fill_below h1 h8) (fun _ => symbolEntry_legal h1 h8 hsym hnsym) hi

theorem insertAll_legal {l : List (Nat × CodeEntry)} (ha : ArenaLegal nsym m a) (hm : m < 2 ^ 20)
    (hl : ∀ p ∈ l, p.1 < nsym) (hnsym : nsym ≤ maxSym) (hi : insertAll m l a = .ok a2) : ArenaLegal nsym m a2 := by
  induction l generalizing a with
  | nil => cases hi; exact ha
  | cons p l ih =>
    rw [insertAll] at hi
    split at hi
    next => cases hi
    next a' hone =>
      exact ih (insertCode_legal ha hm (hl p List.mem_cons_self) hnsym hone)
        (fun q hq => hl q (List.mem_cons_of_mem p hq)) hi

/-- A build that succeeds leaves between 1 and NTABMAX tables, with legal entries only
(spec/30_encoding.md R115, spec/10_state.md R35). -/
theorem buildTables_legal {c : Memory CodeEntry} (h1 : 1 ≤ m) (hm : m < 2 ^ 20) (hnsym : nsym ≤ maxSym)
    (hb : buildTables m nsym c = .ok a) : ArenaLegal nsym m a :=
  insertAll_legal (rootArena_legal h1) hm (fun p hp => by simpa using (List.mem_filter.1 hp).2) hnsym hb

end

end Sys2Proof.Machine
end

section
/-! SUPPORT. What every command does to RERR, OUT and the invariant, said once: a command first moves the machine on
(`Advances`) and then answers it (`Answers`). -/

namespace Sys2Proof.Machine

open Sys2Proof.Config

/-! ### The invariant through the updates of the state -/

section Inv

variable {s u : State}

theorem inv_port (h : Inv s) (response : Option Word) (commands : List Word) :
    Inv { s with response := response, commands := commands } where
  reader :=
    { bounds := fun hact => { h.reader.bounds hact with }
      stream := fun hact => { h.reader.stream hact with }
      atReset := fun hunb => { h.reader.atReset hunb with }
      latch := h.reader.latch }
  code := { h.code with }
  tables := h.tables

theorem inv_response (h : Inv s) (response : Option Word) : Inv { s with response := response } :=
  inv_port h response s.commands

theorem rerrLegal_readerFaultCode (f : ReaderFault) : rerrLegal (readerFaultCode f) := by
  cases f <;> simp [rerrLegal, readerFaultCode]

/-- Latching a fault keeps the invariant while a reader is bound (with none bound RERR is 0, spec/10_state.md R26). -/
theorem latch_inv (h : Inv s) (hact : s.rstate = .active) (f : ReaderFault) : Inv (latch f s) := by
  unfold latch
  split
  case isFalse => exact h
  case isTrue =>
    exact
      { reader :=
          { bounds := fun _ => { h.reader.bounds hact with }
            stream := fun _ => { h.reader.stream hact with }
            atReset := fun hunb => by rw [show s.rstate = .unbound from hunb] at hact; cases hact
            latch := rerrLegal_readerFaultCode f }
        code := { h.code with }
        tables := h.tables }

theorem bound_of_inv (h : Inv s) (hact : s.rstate = .active) : Bound s := ⟨h.reader.bounds hact, h.reader.stream hact⟩

/-- Moving the reader on in the stream keeps the invariant as far as it keeps the reader's. -/
theorem inv_of_reading (h : Inv s) (hact : s.rstate = .active) (hread : SameButReading s u) (hb : Bound u) :
    Inv u where
  reader :=
    { bounds := fun _ => hb.1
      stream := fun _ => hb.2
      atReset := fun hunb => by rw [reading_rstate hread, hact] at hunb; cases hunb
      latch := by rw [reading_rerr hread]; exact h.reader.latch }
  code := by obtain ⟨_, _, _, _, _, _, _, _, rfl⟩ := hread; exact { h.code with }
  tables := by obtain ⟨_, _, _, _, _, _, _, _, rfl⟩ := hread; exact h.tables

/-- Emitting a symbol keeps the invariant where it has consumed a bit that no earlier symbol has
(spec/10_state.md R24 (e)). -/
theorem emit_inv (h : Inv s) (hact : s.rstate = .active) (x : Sym)
    (hcnt : s.outcnt.toNat + s.remaining.toNat < s.budget0.toNat) : Inv (emit x s) where
  reader :=
    { bounds := fun _ =>
        { h.reader.bounds hact with
          outcnt_le := by
            have hmax := s.budget0.isLt
            have hcount : (s.outcnt + 1).toNat = s.outcnt.toNat + 1 := BitVec.toNat_add_of_lt (by simp; omega)
            rw [emit_outcnt, emit_remaining, emit_budget0, hcount]
            omega }
      stream := fun _ => { h.reader.stream hact with }
      atReset := fun hunb => by rw [emit_rstate, hact] at hunb; cases hunb
      latch := h.reader.latch }
  code := { h.code with }
  tables := h.tables

/-- In every TSTATE the TABLE holds only legal entries: it lists none unless VALID. -/
theorem tableInv_tablesLegal (h : TableInv s) : TablesLegal s.nsym.toNat s.ntab.toNat s.table := by
  unfold TableInv at h
  cases hk : s.tstate <;> simp only [hk] at h
  case valid => exact h.2.2.2
  case notBuilt => rw [h.2.2]; exact tablesLegal_nil _ _
  case failed => rw [h.2.2.2]; exact tablesLegal_nil _ _

/-- Two states that differ at most in the Code, its table and what their commands draw. -/
def SameButTables (s u : State) : Prop :=
  ∃ nsym code table tstate ntab terr draws,
    u = { s with nsym := nsym, code := code, table := table, tstate := tstate, ntab := ntab, terr := terr,
                 draws := draws }

theorem inv_of_tables (h : Inv s) (hsame : SameButTables s u) (hcode : CodeInv u) (htab : TableInv u) : Inv u where
  reader := by
    obtain ⟨_, _, _, _, _, _, _, rfl⟩ := hsame
    exact
      { bounds := fun hact => { h.reader.bounds hact with }
        stream := fun hact => { h.reader.stream hact with }
        atReset := fun hunb => { h.reader.atReset hunb with }
        latch := h.reader.latch }
  code := hcode
  tables := htab

end Inv

/-! ### Reset -/

/-- RESET leaves the values rule R42 of spec/10_state.md lists. -/
theorem resetKeepingEnvironment_resetValues (s : State) : ResetValues (resetKeepingEnvironment s) where
  reader := ⟨rfl, rfl, rfl, rfl, rfl, rfl, rfl, rfl, rfl⟩
  terr := rfl
  nsym := rfl
  ntab := rfl
  rstate := rfl
  tstate := rfl
  status := (by decide : status State.reset = 0)
  id := rfl
  out := rfl

theorem inv_of_resetValues {s : State} (h : ResetValues s) (hcode : s.code = []) (htable : s.table = []) : Inv s where
  reader :=
    { bounds := fun hact => by rw [h.rstate] at hact; cases hact
      stream := fun hact => by rw [h.rstate] at hact; cases hact
      atReset := fun _ => h.reader
      latch := .inl h.reader.rerr }
  code :=
    { nsym_le := by simp [h.nsym]
      wf := hcode ▸ wf_nil
      below := by simp [hcode]
      legal := by simp [hcode] }
  tables := by
    simp only [TableInv, h.tstate]
    exact ⟨h.terr, h.ntab, htable⟩

theorem resetKeepingEnvironment_inv (s : State) : Inv (resetKeepingEnvironment s) :=
  inv_of_resetValues (resetKeepingEnvironment_resetValues s) rfl rfl

/-! ### Answers -/

/-- How a command ends in the machine it has come to: it answers a code, which is a reader fault's only where RERR has
it latched already; or it raises a reader fault, which only a bound reader does (spec/00_scope.md R13). -/
def Answers (u t : State) : Prop :=
  (∃ code result, (code ∈ [0x40, 0x41, 0x42] → u.rerr = code) ∧ respond code result u = .next t) ∨
  (∃ f result, u.rstate = .active ∧ raiseReader f result u = .next t)

section Answers

variable {u t : State}

theorem eq_of_respond {code : BitVec 8} {result : Word56} (h : respond code result u = .next t) :
    t = { u with response := some (responseWord code result) } := by
  cases h; rfl

theorem answers_inv (h : Answers u t) (hu : Inv u) : Inv t := by
  obtain ⟨code, result, -, ht⟩ | ⟨f, result, hact, ht⟩ := h
  · exact eq_of_respond ht ▸ inv_response hu _
  · exact eq_of_respond ht ▸ inv_response (latch_inv hu hact f) _

theorem answers_out (h : Answers u t) : t.out = u.out := by
  obtain ⟨code, result, -, ht⟩ | ⟨f, result, -, ht⟩ := h
  · rw [eq_of_respond ht]
  · rw [eq_of_respond ht]; exact latch_out f u

theorem answers_ok {result : Word56} (h : respond okCode result u = .next t) : Answers u t :=
  .inl ⟨okCode, result, fun hmem => absurd hmem (by decide), h⟩

theorem answers_eof {result : Word56} (h : respond eofCode result u = .next t) : Answers u t :=
  .inl ⟨eofCode, result, fun hmem => absurd hmem (by decide), h⟩

theorem answers_refuse {x : RefusalCode} (h : refuse x u = .next t) : Answers u t :=
  .inl ⟨refusalCode x, 0, by cases x <;> simp [refusalCode], h⟩

theorem answers_buildFault {f : BuildFault} {result : Word56}
    (h : respond (buildFaultCode f) result u = .next t) : Answers u t :=
  .inl ⟨buildFaultCode f, result, by cases f <;> simp [buildFaultCode], h⟩

/-- The entry checks of the reader answer BadState or the latched fault (spec/40_bitreader.md R142). -/
theorem answers_readerReady {code : BitVec 8} (hready : readerReady u = some code)
    (h : respond code 0 u = .next t) : Answers u t := by
  unfold readerReady at hready
  split at hready
  · cases hready; exact answers_refuse h
  · split at hready
    · cases hready; exact .inl ⟨u.rerr, 0, fun _ => rfl, h⟩
    · cases hready

theorem answers_decoderReady {code : BitVec 8} (hready : decoderReady u = some code)
    (h : respond code 0 u = .next t) : Answers u t := by
  unfold decoderReady at hready
  split at hready
  · cases hready; exact answers_refuse h
  · exact answers_readerReady hready h

theorem active_of_readerReady (h : readerReady u = none) : u.rstate = .active := by
  unfold readerReady at h
  cases hk : u.rstate with
  | active => rfl
  | unbound => simp [hk] at h

theorem active_of_decoderReady (h : decoderReady u = none) : u.rstate = .active := by
  unfold decoderReady at h
  split at h
  · cases h
  · exact active_of_readerReady h

end Answers

/-! ### Advances -/

/-- What a command may do to the machine before it answers: RERR stays, the given symbols are appended to OUT, and the
invariant is kept. -/
structure Advances (emitted : List Sym) (s u : State) : Prop where
  rerr : u.rerr = s.rerr
  out : u.out = s.out ++ emitted
  inv : Inv s → Inv u

section Advances

variable {s u t : State}

theorem advances_refl (s : State) : Advances [] s s := ⟨rfl, by simp, id⟩

theorem advances_trans {xs ys : List Sym} (h1 : Advances xs s u) (h2 : Advances ys u t) :
    Advances (xs ++ ys) s t :=
  ⟨h2.rerr.trans h1.rerr, by rw [h2.out, h1.out, List.append_assoc], h2.inv ∘ h1.inv⟩

theorem advances_of_reading (hact : s.rstate = .active) (h : SameButReading s u) (hb : Inv s → Bound u) :
    Advances [] s u :=
  ⟨reading_rerr h, by simp [reading_out h], fun hs => inv_of_reading hs hact h (hb hs)⟩

theorem advances_of_tables (h : SameButTables s u) (hcode : Inv s → CodeInv u) (htab : Inv s → TableInv u) :
    Advances [] s u where
  rerr := by obtain ⟨_, _, _, _, _, _, _, rfl⟩ := h; rfl
  out := by obtain ⟨_, _, _, _, _, _, _, rfl⟩ := h; simp
  inv hs := inv_of_tables hs h (hcode hs) (htab hs)

/-- A Refill, whichever way it ends, for no more than 8 of the budget's bits. -/
theorem refill_advances {want : Nat} (hact : s.rstate = .active) (hrem : want ≤ s.remaining.toNat) (hw : want ≤ 8) :
    Advances [] s (refill want s).state := by
  cases hr : refill want s with
  | done _ s' =>
    exact advances_of_reading hact (sameButReading_of_same (refill_same hr))
      fun hs => refill_bound (bound_of_inv hs hact) hrem hw hr
  | raised f s' =>
    obtain ⟨rfl, -⟩ := refill_raised hrem hr
    exact advances_refl _

theorem consume_advances {n : Nat} (hact : s.rstate = .active) (hn : n ≤ s.nacc.toNat)
    (hrem : n ≤ s.remaining.toNat) : Advances [] s (consume n s) :=
  advances_of_reading hact (consume_sameButReading n s) fun hs => consume_bound (bound_of_inv hs hact) hn hrem

theorem decodeOne_advances (hact : s.rstate = .active) : Advances [] s (decodeOne s).state :=
  advances_of_reading hact (decodeOne_sameButReading s)
    fun hs => (decodeOne_bound (bound_of_inv hs hact) (tableInv_tablesLegal hs.tables)).1

/-- A symbol that is decoded has consumed a bit, so that OUTCNT may count it (spec/42_decode.md R209). -/
theorem emit_decoded_advances {x : Sym} (hact : s.rstate = .active) (h : decodeOne s = .done (.sym x) u) :
    Advances [x] s (emit x u) := by
  have hread : SameButReading s u := by simpa [h, Run.state] using decodeOne_sameButReading s
  have hdec : Advances [] s u := by simpa [h, Run.state] using decodeOne_advances hact
  refine ⟨hdec.rerr, by simp [hdec.out], fun hs => emit_inv (hdec.inv hs) ((reading_rstate hread).trans hact) x ?_⟩
  have hlt := (decodeOne_bound (bound_of_inv hs hact) (tableInv_tablesLegal hs.tables)).2.2 x u h
  have hle := (hs.reader.bounds hact).outcnt_le
  rw [reading_outcnt hread, reading_budget0 hread]
  omega

end Advances

/-! ### The commands -/

section Commands

variable {s t : State}

theorem width_le_eight {n : BitVec 4} (h : widthLegal n = true) : n.toNat ≤ 8 := by
  simp only [widthLegal, Bool.and_eq_true, decide_eq_true_eq] at h
  exact h.2

theorem readbits_advances {n : BitVec 4} (h : exec (.readbits n) s = .next t) :
    ∃ u, Advances [] s u ∧ Answers u t := by
  simp only [exec, execReadbits] at h
  split at h
  next => exact ⟨s, advances_refl s, answers_refuse h⟩
  next hlegal =>
    split at h
    next code hready => exact ⟨s, advances_refl s, answers_readerReady hready h⟩
    next hready =>
      have hact := active_of_readerReady hready
      split at h
      next => exact ⟨s, advances_refl s, .inr ⟨_, _, hact, h⟩⟩
      next hbudget =>
        have hrem : n.toNat ≤ s.remaining.toNat := by omega
        have hw : n.toNat ≤ 8 := width_le_eight (by simpa using hlegal)
        have hadv := refill_advances hact hrem hw
        split at h
        next f s' hr =>
          obtain ⟨rfl, -⟩ := refill_raised hrem hr
          exact ⟨_, advances_refl _, .inr ⟨_, _, hact, h⟩⟩
        next s' hr =>
          rw [hr] at hadv
          have hsame := refill_same hr
          have hcons := consume_advances (s := s') (n := n.toNat) (by rw [same_rstate hsame, hact])
            (refill_enough hrem hw hr) (by rw [same_remaining hsame]; exact hrem)
          exact ⟨_, advances_trans hadv hcons, answers_ok h⟩

theorem peek_advances (h : exec .peek s = .next t) : ∃ u, Advances [] s u ∧ Answers u t := by
  simp only [exec, execPeek] at h
  split at h
  next code hready => exact ⟨s, advances_refl s, answers_readerReady hready h⟩
  next hready =>
    have hact := active_of_readerReady hready
    split at h
    next => exact ⟨s, advances_refl s, answers_eof h⟩
    next =>
      have hadv := refill_advances hact (availBits_le s) (availBits_le_eight s)
      split at h
      next f s' hr =>
        obtain ⟨rfl, -⟩ := refill_raised (availBits_le s) hr
        exact ⟨_, advances_refl _, .inr ⟨_, _, hact, h⟩⟩
      next s' hr => exact ⟨s', by simpa [hr, Run.state] using hadv, answers_ok h⟩

/-- DecodeOne that resolves no symbol ends the command that runs it. -/
theorem decodeOne_raised_advances {f : ReaderFault} {result : Word56} {u : State} (hact : s.rstate = .active)
    (hd : decodeOne s = .raised f u) (h : raiseReader f result u = .next t) :
    Advances [] s u ∧ Answers u t := by
  have hadv := decodeOne_advances hact
  have hread := decodeOne_sameButReading s
  rw [hd] at hadv hread
  exact ⟨hadv, .inr ⟨f, result, (reading_rstate hread).trans hact, h⟩⟩

theorem decodeOne_ended_advances {result : Word56} {u : State} (hact : s.rstate = .active)
    (hd : decodeOne s = .done .ended u) (h : respond eofCode result u = .next t) :
    Advances [] s u ∧ Answers u t := by
  have hadv := decodeOne_advances hact
  rw [hd] at hadv
  exact ⟨hadv, answers_eof h⟩

theorem decSym_advances (h : exec .decSym s = .next t) : ∃ xs u, Advances xs s u ∧ Answers u t := by
  simp only [exec, execDecSym] at h
  split at h
  next code hready => exact ⟨[], s, advances_refl s, answers_decoderReady hready h⟩
  next hready =>
    have hact := active_of_decoderReady hready
    split at h
    next f u hd => exact ⟨[], u, decodeOne_raised_advances hact hd h⟩
    next u hd => exact ⟨[], u, decodeOne_ended_advances hact hd h⟩
    next x u hd => exact ⟨[x], emit x u, emit_decoded_advances hact hd, answers_ok h⟩

theorem decodeRun_advances {left cnt : Nat} (hact : s.rstate = .active) (h : decodeRun left cnt s = .next t) :
    ∃ xs u, Advances xs s u ∧ Answers u t := by
  induction left generalizing cnt s with
  | zero => exact ⟨[], s, advances_refl s, answers_ok h⟩
  | succ left ih =>
    obtain ⟨f, u, hd, hrun⟩ | ⟨u, hd, hrun⟩ | ⟨x, u, hd, hrun⟩ := decodeRun_succ left cnt s <;> rw [hrun] at h
    · exact ⟨[], u, decodeOne_raised_advances hact hd h⟩
    · exact ⟨[], u, decodeOne_ended_advances hact hd h⟩
    · have hread : SameButReading s u := by simpa [hd, Run.state] using decodeOne_sameButReading s
      obtain ⟨xs, v, hadv, hans⟩ := ih (s := emit x u) ((reading_rstate hread).trans hact) h
      exact ⟨_, v, advances_trans (emit_decoded_advances hact hd) hadv, hans⟩

theorem decRun_advances {quota : Word56} (h : exec (.decRun quota) s = .next t) :
    ∃ xs u, Advances xs s u ∧ Answers u t := by
  simp only [exec, execDecRun] at h
  split at h
  next code hready => exact ⟨[], s, advances_refl s, answers_decoderReady hready h⟩
  next hready => exact decodeRun_advances (active_of_decoderReady hready) h

theorem rdreg_answers {reg : BitVec 4} (h : exec (.rdreg reg) s = .next t) : Answers s t := by
  simp only [exec, execRdreg] at h
  split at h
  · exact answers_ok h
  · exact answers_refuse h

theorem tblRd_answers {handle : Handle} {idx : BitVec 8} (h : exec (.tblRd handle idx) s = .next t) :
    Answers s t := by
  simp only [exec, execTblRd] at h
  split at h
  · exact answers_refuse h
  · split at h
    · exact answers_refuse h
    · exact answers_ok h

theorem codeClr_advances {nsym : BitVec 21} (h : exec (.codeClr nsym) s = .next t) :
    ∃ u, Advances [] s u ∧ Answers u t := by
  simp only [exec, execCodeClr] at h
  split at h
  next => exact ⟨s, advances_refl s, answers_refuse h⟩
  next hle =>
    refine ⟨_, ?_, answers_ok h⟩
    refine advances_of_tables ⟨_, _, _, _, _, _, _, rfl⟩ (fun _ => ?_) (fun _ => ⟨rfl, rfl, rfl⟩)
    exact ⟨not_lt.1 hle, wf_nil, nofun, nofun⟩

/-- CODE_WR keeps the Code legal: the operands it accepts are a legal element below NSYM (spec/41_table_build.md R171). -/
theorem codeWrite_inv {sym : Sym} {len : BitVec 5} {value : BitVec 20} (h : CodeInv s)
    (hok : codeWrBad sym len value s = false) :
    CodeInv { s with code := codeWrite s.code sym.toNat ⟨value, len⟩ } := by
  simp only [codeWrBad, Bool.or_eq_false_iff, decide_eq_false_iff_not, not_le, not_lt, ge_iff_le, gt_iff_lt] at hok
  obtain ⟨⟨hsym, hlen⟩, hvalue⟩ := hok
  refine ⟨h.nsym_le, codeWrite_wf h.wf _ _, fun c hc => ?_, fun c hc => ?_⟩ <;>
    obtain hc | ⟨rfl, -⟩ := write_keys hc
  · exact h.below c hc
  · exact hsym
  · exact h.legal c hc
  · exact ⟨hlen, hvalue⟩

theorem codeWr_advances {sym : Sym} {len : BitVec 5} {value : BitVec 20}
    (h : exec (.codeWr sym len value) s = .next t) : ∃ u, Advances [] s u ∧ Answers u t := by
  simp only [exec, execCodeWr] at h
  split at h
  next => exact ⟨s, advances_refl s, answers_refuse h⟩
  next hbuilt =>
    split at h
    next => exact ⟨s, advances_refl s, answers_refuse h⟩
    next hok =>
      refine ⟨_, ?_, answers_ok h⟩
      refine advances_of_tables ⟨_, _, _, _, _, _, _, rfl⟩ (fun hs => ?_) (fun hs => ?_)
      · exact codeWrite_inv hs.code (by simpa using hok)
      · have htab := hs.tables
        simp only [TableInv, not_not.1 hbuilt] at htab ⊢
        exact htab

/-- NTAB after a failed build is in its range (spec/10_state.md R35). -/
theorem failedNtab_range (s : State) : 1 ≤ (failedNtab s).toNat ∧ (failedNtab s).toNat ≤ ntabMax s := by
  have hmod := Nat.mod_lt (freeNtab s.draws) (show 0 < s.tablesBeyondRoot.val + 1 by omega)
  have hmax := s.tablesBeyondRoot.isLt
  unfold failedNtab ntabMax
  rw [BitVec.toNat_ofNat, Nat.mod_eq_of_lt (by omega)]
  omega

theorem builtTable_inv {a : Arena} (hs : Inv s) (hbuilt : s.tstate = .notBuilt)
    (ha : ArenaLegal s.nsym.toNat (ntabMax s) a) :
    TableInv { s with table := a.table, ntab := BitVec.ofNat 18 a.ntab, tstate := .valid } := by
  have htab := hs.tables
  simp only [TableInv, hbuilt] at htab
  obtain ⟨hpos, hle, ht⟩ := ha
  have hmax := s.tablesBeyondRoot.isLt
  have hntab : (BitVec.ofNat 18 a.ntab).toNat = a.ntab := Nat.mod_eq_of_lt (by unfold ntabMax at hle; omega)
  simp only [TableInv, hntab]
  exact ⟨htab.1, hpos, hle, ht⟩

theorem tblBuild_advances (h : exec .tblBuild s = .next t) : ∃ u, Advances [] s u ∧ Answers u t := by
  simp only [exec, execTblBuild] at h
  split at h
  next => exact ⟨s, advances_refl s, answers_refuse h⟩
  next hbuilt =>
    have hmax := s.tablesBeyondRoot.isLt
    split at h
    next f sym hb =>
      refine ⟨_, ?_, answers_buildFault h⟩
      refine advances_of_tables ⟨_, _, _, _, _, _, _, rfl⟩ (fun hs => { hs.code with }) (fun _ => ?_)
      obtain ⟨hpos, hle⟩ := failedNtab_range s
      exact ⟨by cases f <;> simp [buildFaultCode], hpos, hle, rfl⟩
    next a hb =>
      refine ⟨_, ?_, answers_ok h⟩
      refine advances_of_tables ⟨_, _, _, _, _, _, _, rfl⟩ (fun hs => { hs.code with }) (fun hs => ?_)
      exact builtTable_inv hs (not_not.1 hbuilt)
        (buildTables_legal (by unfold ntabMax; omega) (by unfold ntabMax; omega) hs.code.nsym_le hb)

/-- A command's whole effect: it moves the machine on, appending to OUT only if it is a decode command, and answers. -/
def Performs (i : Instr) (s t : State) : Prop :=
  ∃ xs u, Advances xs s u ∧ Answers u t ∧ (i ≠ .decSym → (∀ quota, i ≠ .decRun quota) → xs = [])

theorem performs_of_silent {i : Instr} (h : ∃ u, Advances [] s u ∧ Answers u t) : Performs i s t := by
  obtain ⟨u, hadv, hans⟩ := h
  exact ⟨[], u, hadv, hans, fun _ _ => rfl⟩

/-- What every command but RESET and BR_INIT does. -/
theorem exec_performs {i : Instr} (hreset : i ≠ .reset) (hinit : ∀ budget, i ≠ .brInit budget)
    (h : exec i s = .next t) : Performs i s t := by
  cases i with
  | reset => exact absurd rfl hreset
  | brInit budget => exact absurd rfl (hinit budget)
  | rdreg reg => exact performs_of_silent ⟨s, advances_refl s, rdreg_answers h⟩
  | tblRd handle idx => exact performs_of_silent ⟨s, advances_refl s, tblRd_answers h⟩
  | codeClr nsym => exact performs_of_silent (codeClr_advances h)
  | codeWr sym len value => exact performs_of_silent (codeWr_advances h)
  | tblBuild => exact performs_of_silent (tblBuild_advances h)
  | readbits n => exact performs_of_silent (readbits_advances h)
  | peek => exact performs_of_silent (peek_advances h)
  | decSym =>
    obtain ⟨xs, u, hadv, hans⟩ := decSym_advances h
    exact ⟨xs, u, hadv, hans, fun hno => absurd rfl hno⟩
  | decRun quota =>
    obtain ⟨xs, u, hadv, hans⟩ := decRun_advances h
    exact ⟨xs, u, hadv, hans, fun _ hno => absurd rfl (hno quota)⟩

end Commands

/-! ### BR_INIT and RESET -/

theorem startReader_bound (budget : Word56) (s : State) : Bound (startReader budget s) :=
  ⟨⟨by simp, by simp, by simp, by simp, by simp, by simp, by simp⟩, by simp, by simp⟩

theorem leaveReaderFault_inv_of_bound {s : State} (hact : s.rstate = .active) (hb : Bound s) (hcode : CodeInv s)
    (htab : TableInv s) : Inv (leaveReaderFault s) where
  reader :=
    { bounds := fun _ => { hb.1 with }
      stream := fun _ => { hb.2 with }
      atReset := fun hunb => by rw [leaveReaderFault_rstate, hact] at hunb; cases hunb
      latch := .inl rfl }
  code := { hcode with }
  tables := htab

theorem bindSource_tables {s : State} (h : Inv s) : CodeInv (bindSource s) ∧ TableInv (bindSource s) := by
  unfold bindSource
  split <;> exact ⟨{ h.code with }, h.tables⟩

theorem brInit_inv {budget : Word56} {s t : State} (h : exec (.brInit budget) s = .next t) (hs : Inv s) : Inv t := by
  obtain ⟨hcode, htab⟩ := bindSource_tables hs
  rw [eq_of_respond h]
  exact inv_response (leaveReaderFault_inv_of_bound rfl (startReader_bound _ _) { hcode with } htab) _

theorem brInit_clears {budget : Word56} {s t : State} (h : exec (.brInit budget) s = .next t) :
    t.rerr = 0 ∧ t.response = some (responseWord okCode 0) := by
  rw [eq_of_respond h]; exact ⟨rfl, rfl⟩

theorem brInit_out {budget : Word56} {s t : State} (h : exec (.brInit budget) s = .next t) : t.out = s.out := by
  rw [eq_of_respond h, leaveReaderFault_out, startReader_out, bindSource_out]

theorem reset_inv {s t : State} (h : exec .reset s = .next t) : Inv t :=
  eq_of_respond h ▸ inv_response (resetKeepingEnvironment_inv s) _

theorem reset_clears {s t : State} (h : exec .reset s = .next t) :
    t.rerr = 0 ∧ t.response = some (responseWord okCode 0) := by
  rw [eq_of_respond h]; exact ⟨rfl, rfl⟩

end Sys2Proof.Machine
end

section
/-! The proofs of O50, O41, O43, O7, O49 and O11. -/

namespace Sys2Proof.Machine

/-! ### The invariant (O50) -/

theorem exec_inv {i : Instr} {s t : State} (h : exec i s = .next t) (hs : Inv s) : Inv t := by
  by_cases hreset : i = .reset
  · subst hreset; exact reset_inv h
  by_cases hinit : ∃ budget, i = .brInit budget
  · obtain ⟨budget, rfl⟩ := hinit; exact brInit_inv h hs
  · obtain ⟨xs, u, hadv, hans, -⟩ := exec_performs hreset (not_exists.1 hinit) h
    exact answers_inv hans (hadv.inv hs)

theorem answer_inv {w : Word} {s t : State} (h : answer w s = .next t) (hs : Inv s) : Inv t := by
  unfold answer at h
  split at h
  next => exact exec_inv h hs
  next => exact answers_inv (answers_refuse h) hs

/-- Settles O50: a step idles, or takes its word from the host's list and answers it. -/
theorem stepKeepsTheInvariant : Obligations.StepKeepsTheInvariant := by
  intro s t hs h
  unfold step at h
  split at h
  next => cases h; exact hs
  next w rest _ => exact answer_inv h (inv_port hs s.response rest)

/-! ### The latch (O41) -/

/-- A response word tells its code. -/
theorem code_eq_of_responseWord_eq {c c' : BitVec 8} {r r' : Word56} (h : responseWord c r = responseWord c' r') :
    c = c' := by
  have hfield := congrArg (fun w : Word => field w 56 8) h
  rwa [show field (responseWord c r) 56 8 = c from (Laws.EncodeFields.fields_of_append c r).1,
    show field (responseWord c' r') 56 8 = c' from (Laws.EncodeFields.fields_of_append c' r').1] at hfield
section Latch

variable {u t : State}

theorem answers_rerr_kept (h : Answers u t) (hlatched : u.rerr ≠ 0) : t.rerr = u.rerr := by
  obtain ⟨code, result, -, ht⟩ | ⟨f, result, -, ht⟩ := h
  · rw [eq_of_respond ht]
  · rw [eq_of_respond ht]; exact (latch_rerr f u).trans (if_neg hlatched)

/-- With nothing latched, the fault that is answered is the fault that is latched (spec/60_exceptions.md R254). -/
theorem answers_rerr_unlatched (h : Answers u t) (hfree : u.rerr = 0) :
    (t.rerr = 0 ∧ ∃ code result, code ∉ [0x40, 0x41, 0x42] ∧ t.response = some (responseWord code result)) ∨
    (∃ f result, t.rerr = readerFaultCode f ∧ t.response = some (responseWord (readerFaultCode f) result)) := by
  obtain ⟨code, result, hcode, ht⟩ | ⟨f, result, -, ht⟩ := h <;> rw [eq_of_respond ht]
  · refine .inl ⟨hfree, code, result, fun hmem => ?_, rfl⟩
    rw [← hcode hmem, hfree] at hmem
    exact absurd hmem (by decide)
  · exact .inr ⟨f, result, (latch_rerr f u).trans (if_pos hfree), rfl⟩

theorem answers_rerrLegal (h : Answers u t) (hlegal : rerrLegal u.rerr) : rerrLegal t.rerr := by
  by_cases hfree : u.rerr = 0
  · obtain ⟨ht, -⟩ | ⟨f, -, ht, -⟩ := answers_rerr_unlatched h hfree <;> rw [ht]
    · exact .inl rfl
    · exact rerrLegal_readerFaultCode f
  · rw [answers_rerr_kept h hfree]; exact hlegal

end Latch

/-- Settles O41: BR_INIT and RESET clear RERR and answer OK; any other command comes to a state with RERR as it was,
and only its answer latches a fault. -/
theorem firstReaderFaultWins : Obligations.FirstReaderFaultWins := by
  intro i s t h
  by_cases hclears : i = .reset ∨ ∃ budget, i = .brInit budget
  · have hcleared : t.rerr = 0 ∧ t.response = some (responseWord okCode 0) := by
      obtain rfl | ⟨budget, rfl⟩ := hclears
      · exact reset_clears h
      · exact brInit_clears h
    obtain ⟨hrerr, hresponse⟩ := hcleared
    refine ⟨fun _ hreset hinit => absurd hclears (by simp [hreset, hinit]), fun _ hne => absurd hrerr hne,
      fun _ code result hmem hcode => ?_, fun _ => hrerr, fun _ _ => hrerr, fun _ => .inl hrerr⟩
    rw [hresponse, Option.some_inj] at hcode
    rw [← code_eq_of_responseWord_eq hcode] at hmem
    exact absurd hmem (by decide)
  · obtain ⟨hreset, hinit⟩ := not_or.1 hclears
    have hinit := not_exists.1 hinit
    obtain ⟨xs, u, hadv, hans, -⟩ := exec_performs hreset hinit h
    rw [← hadv.rerr]
    refine ⟨fun hne _ _ => answers_rerr_kept hans hne, fun hfree hne => ?_, fun hfree code result hmem hcode => ?_,
      fun hi => absurd hi hreset, fun budget hi => absurd hi (hinit budget), answers_rerrLegal hans⟩
    · obtain ⟨hzero, -⟩ | ⟨f, result, hrerr, hresponse⟩ := answers_rerr_unlatched hans hfree
      · exact absurd hzero hne
      · exact ⟨result, hrerr ▸ hresponse⟩
    · obtain ⟨-, code', result', hnot, hresponse⟩ | ⟨f, result', hrerr, hresponse⟩ :=
        answers_rerr_unlatched hans hfree <;>
        rw [hresponse, Option.some_inj] at hcode <;> have hsame := code_eq_of_responseWord_eq hcode
      · exact absurd (hsame ▸ hmem) hnot
      · exact hrerr.trans hsame

/-! ### OUT (O43) -/

/-- Settles O43: BR_INIT leaves OUT, and any other command but RESET appends what it has emitted. -/
theorem outIsAppendOnly : Obligations.OutIsAppendOnly := by
  intro i s t h hreset
  by_cases hinit : ∃ budget, i = .brInit budget
  · obtain ⟨budget, rfl⟩ := hinit
    exact ⟨⟨[], by rw [brInit_out h, List.append_nil]⟩, fun _ _ => brInit_out h⟩
  · obtain ⟨xs, u, hadv, hans, hnone⟩ := exec_performs hreset (not_exists.1 hinit) h
    have hout : t.out = s.out ++ xs := (answers_out hans).trans hadv.out
    exact ⟨⟨xs, hout⟩, fun hsym hrun => by rw [hout, hnone hsym hrun, List.append_nil]⟩

/-! ### Reset (O7, O49) and STATUS (O11) -/

/-- Settles O7: power-on reset is RESET in front of the environment of power-on. -/
theorem powerOnResetValues : Obligations.PowerOnResetValues := resetKeepingEnvironment_resetValues State.reset

/-- Settles O49: the invariant holds of the reset values, and no table is VALID. -/
theorem resetMeetsTheInvariant : Obligations.ResetMeetsTheInvariant :=
  ⟨inv_of_resetValues powerOnResetValues rfl rfl, nofun, nofun⟩

/-- The flags of STATUS, bit 0 first (spec/10_state.md R31). -/
def statusFlags (s : State) : List Bool :=
  [flagRactive s, flagReof s, flagRfault s, flagTvalid s, flagTfault s]

theorem status_bit (s : State) (i : Nat) : (status s).getLsbD i = (statusFlags s).getD i false := by
  simp only [status, statusFlags, BitVec.getLsbD_append]
  match i with
  | 0 | 1 | 2 | 3 | 4 => simp
  | i + 5 => simp

/-- A build has failed exactly where TERR holds its fault (spec/10_state.md R33). -/
theorem failed_iff_terr_ne_zero {s : State} (h : TableInv s) : s.tstate = .failed ↔ s.terr ≠ 0 := by
  unfold TableInv at h
  cases hk : s.tstate <;> simp only [hk] at h
  case notBuilt => simp [h.1]
  case valid => simp [h.1]
  case failed => obtain ⟨hterr | hterr, -⟩ := h <;> simp [hterr]

/-- Settles O11: bit by bit. -/
theorem statusBitsAreTheirFunctions : Obligations.StatusBitsAreTheirFunctions := by
  intro s
  simp only [status_bit]
  have hfailed : (statusFlags s).getD 4 false = true ↔ s.tstate = .failed := by simp [statusFlags, flagTfault]
  refine ⟨?_, ?_, ?_, ?_, hfailed, fun i hi => List.getD_eq_default _ _ hi,
    fun h => hfailed.trans (failed_iff_terr_ne_zero h.tables)⟩
  · simp [statusFlags, flagRactive]
  · simp [statusFlags, flagReof]
  · simp [statusFlags, flagRfault]
  · simp [statusFlags, flagTvalid]

end Sys2Proof.Machine
end

section
/-! SUPPORT. The tables of a build as a tree: the table a path of slots leads to, and what the descent and the fill add
to the paths (spec/41_table_build.md R173 to R175, R179, spec/30_encoding.md R115). -/

namespace Sys2Proof.Machine

open Sys2Proof.Config

/-! ### Paths -/

/-- The table the entry at slot `i` of table `h` leads on to, where it is a CONT entry (spec/30_encoding.md R115). -/
def childOf (t : Memory Entry) (h i : Nat) : Option Nat :=
  if i < tableSize ∧ (tableRead t h i).kind = .cont then some (tableRead t h i).payload.toNat else none

/-- The table reached from the root by following CONT entries along a path of slots; none where one is no CONT. -/
def tableAt (t : Memory Entry) (p : List Nat) : Option Nat := p.foldlM (childOf t) 0

/-- A path resolves: it leads to a table whose slot `i` holds the SYMBOL entry `e`. -/
def ResolvesTo (t : Memory Entry) (p : List Nat) (i : Nat) (e : Entry) : Prop :=
  ∃ h, tableAt t p = some h ∧ i < tableSize ∧ tableRead t h i = e ∧ e.kind = .symbol

section

variable {t t' : Memory Entry} {p q : List Nat} {h i n : Nat} {e : Entry}

theorem childOf_eq_some :
    childOf t h i = some n ↔ i < tableSize ∧ (tableRead t h i).kind = .cont ∧ (tableRead t h i).payload.toNat = n := by
  simp [childOf, and_assoc]

theorem childOf_eq_none (hk : (tableRead t h i).kind ≠ .cont) : childOf t h i = none :=
  if_neg fun hc => hk hc.2

@[simp] theorem tableAt_nil (t : Memory Entry) : tableAt t [] = some 0 := rfl

theorem tableAt_append : tableAt t (p ++ q) = (tableAt t p).bind fun h => q.foldlM (childOf t) h :=
  List.foldlM_append ..

theorem tableAt_snoc : tableAt t (p ++ [i]) = (tableAt t p).bind fun h => childOf t h i := by
  simp [tableAt_append]

theorem tableAt_snoc_of (hp : tableAt t p = some h) : tableAt t (p ++ [i]) = childOf t h i := by
  rw [tableAt_snoc, hp]; rfl

/-- Every shorter path leads to a table too. -/
theorem tableAt_of_prefix (hp : tableAt t p = some h) (hq : q <+: p) : (tableAt t q).isSome := by
  obtain ⟨r, rfl⟩ := hq
  cases hqt : tableAt t q with
  | none => rw [tableAt_append, hqt] at hp; cases hp
  | some _ => rfl

theorem tableAt_congr (hc : ∀ h i, childOf t' h i = childOf t h i) (p : List Nat) : tableAt t' p = tableAt t p := by
  rw [tableAt, tableAt, show childOf t' = childOf t from funext₂ hc]

/-- The spec's way of following a path is the table reached by all of it but its last slot, and the entry there. -/
theorem entryAt_snoc (hp : ∀ j ∈ p, j < tableSize) (h i : Nat) :
    entryAt t h (p ++ [i]) = (p.foldlM (childOf t) h).map fun h' => tableRead t h' i := by
  induction p generalizing h with
  | nil => rfl
  | cons j p ih =>
    have hj : j < tableSize := hp j List.mem_cons_self
    obtain ⟨k, rest, hrest⟩ : ∃ k rest, p ++ [i] = k :: rest := List.exists_cons_of_ne_nil (by simp)
    rw [List.foldlM_cons, List.cons_append, hrest, entryAt, ← hrest]
    cases hk : (tableRead t h j).kind with
    | cont => simp [childOf, hj, hk, ih fun j' hj' => hp j' (List.mem_cons_of_mem j hj')]
    | symbol => simp [childOf, hk]
    | empty => simp [childOf, hk]

theorem entryAt_eq_some (hp : ∀ j ∈ p, j < tableSize) :
    entryAt t 0 (p ++ [i]) = some e ↔ ∃ h, tableAt t p = some h ∧ tableRead t h i = e := by
  rw [entryAt_snoc hp, Option.map_eq_some_iff]; rfl

end

/-! ### The tree -/

/-- The arena of a build: legal, and no two CONT entries lead to one table (spec/30_encoding.md R115). -/
structure ArenaTree (nsym ntabmax : Nat) (a : Arena) : Prop extends ArenaLegal nsym ntabmax a where
  once : ∀ h i h' i' n, childOf a.table h i = some n → childOf a.table h' i' = some n → h = h' ∧ i = i'

section

variable {nsym m : Nat} {a : Arena} {p q : List Nat} {h b i n : Nat} {e : Entry}

theorem childOf_range (ha : ArenaLegal nsym m a) (hc : childOf a.table h i = some n) : 1 ≤ n ∧ n < a.ntab := by
  obtain ⟨-, hk, rfl⟩ := childOf_eq_some.1 hc
  obtain he | he := read_listed_or_default (d := Entry.empty) a.table (tableAddr h i)
  · rw [tableRead, he] at hk; cases hk
  · have hlegal := ha.tables.legal _ he
    rw [tableRead] at hk ⊢
    simp only [tableEntryLegal, hk] at hlegal
    exact ⟨hlegal.2.1, hlegal.2.2.1⟩

/-- A path that ends in a slot leads to a table only through the CONT entry there. -/
theorem tableAt_snoc_eq_some {t : Memory Entry} (hp : tableAt t (p ++ [i]) = some n) :
    ∃ h, tableAt t p = some h ∧ childOf t h i = some n := by
  rwa [tableAt_snoc, Option.bind_eq_some_iff] at hp

/-- A path leads to the root only where it is empty, and else to an allocated table other than it. -/
theorem tableAt_range (ha : ArenaLegal nsym m a) (hp : tableAt a.table p = some h) :
    h < a.ntab ∧ (h = 0 ↔ p = []) := by
  induction p using List.reverseRecOn with
  | nil => cases hp; exact ⟨ha.ntab_pos, by simp⟩
  | append_singleton p i _ =>
    obtain ⟨h', -, hc⟩ := tableAt_snoc_eq_some hp
    obtain ⟨hpos, hlt⟩ := childOf_range ha hc
    exact ⟨hlt, by simp; omega⟩

/-- Every table is reached by at most one path. -/
theorem tableAt_inj (ha : ArenaTree nsym m a) (hp : tableAt a.table p = some h) (hq : tableAt a.table q = some h) :
    p = q := by
  have hroot := (tableAt_range ha.toArenaLegal hp).2.symm.trans (tableAt_range ha.toArenaLegal hq).2
  induction p using List.reverseRecOn generalizing q h with
  | nil => exact (hroot.1 rfl).symm
  | append_singleton p i ih =>
    cases q using List.reverseRecOn with
    | nil => exact hroot.2 rfl
    | append_singleton q j =>
      obtain ⟨hp', hpt, hpc⟩ := tableAt_snoc_eq_some hp
      obtain ⟨hq', hqt, hqc⟩ := tableAt_snoc_eq_some hq
      obtain ⟨rfl, rfl⟩ := ha.once _ _ _ _ _ hpc hqc
      rw [ih hpt hqt ((tableAt_range ha.toArenaLegal hpt).2.symm.trans (tableAt_range ha.toArenaLegal hqt).2)]

theorem childOf_root (h i : Nat) : childOf rootArena.table h i = none := childOf_eq_none nofun

theorem rootArena_tree (hm : 1 ≤ m) : ArenaTree nsym m rootArena where
  toArenaLegal := rootArena_legal hm
  once h i h' i' n hc := by rw [childOf_root] at hc; cases hc

/-- In the root alone only the empty path leads to a table. -/
theorem tableAt_root : (tableAt rootArena.table p).isSome ↔ p = [] := by
  cases p using List.reverseRecOn with
  | nil => simp
  | append_singleton p i =>
    cases hp : tableAt rootArena.table p <;> simp [tableAt_snoc, hp, childOf_root]

/-! ### The descent -/

/-- The tables after the descent allocates one more and leads slot `b` of table `h` on to it
(spec/41_table_build.md R173). -/
def growAt (h b : Nat) (a : Arena) : Arena :=
  ⟨tableWrite (Memory.clear a.table (tableAddr a.ntab 0) tableSize) h b (contEntry a.ntab), a.ntab + 1⟩

theorem tableRead_growAt (ha : ArenaLegal nsym m a) (hb : b < tableSize) (h' : Nat) (hi : i < tableSize) :
    tableRead (growAt h b a).table h' i
      = if h' = h ∧ i = b then contEntry a.ntab else if h' = a.ntab then Entry.empty else tableRead a.table h' i := by
  rw [growAt, tableRead_tableWrite (clear_wf ha.tables.wf _ _) hb hi, tableRead_clear ha.tables.wf hi]

theorem childOf_growAt (ha : ArenaLegal nsym m a) (hb : b < tableSize) (hm : m < 2 ^ 20) (h' i : Nat) :
    childOf (growAt h b a).table h' i
      = if h' = h ∧ i = b then some a.ntab else if h' = a.ntab then none else childOf a.table h' i := by
  have hn : (BitVec.ofNat 20 a.ntab).toNat = a.ntab := Nat.mod_eq_of_lt (ha.ntab_le.trans_lt hm)
  by_cases hi : i < tableSize
  · rw [childOf, tableRead_growAt ha hb h' hi]
    split
    · simp [hi, contEntry, hn]
    · split
      · simp [Entry.empty]
      · rfl
  · have hib : i ≠ b := by rintro rfl; exact hi hb
    simp [childOf, hi, hib]

/-- Growing at an EMPTY slot adds one path, which leads to the new table. -/
theorem tableAt_growAt (ha : ArenaTree nsym m a) (hb : b < tableSize) (hm : m < 2 ^ 20)
    (hp : tableAt a.table p = some h) (hempty : childOf a.table h b = none) (q : List Nat) :
    tableAt (growAt h b a).table q = if q = p ++ [b] then some a.ntab else tableAt a.table q := by
  have hchild := childOf_growAt (h := h) ha.toArenaLegal hb hm
  have hown := (tableAt_range ha.toArenaLegal hp).1
  induction q using List.reverseRecOn with
  | nil => simp
  | append_singleton q i ih =>
    rw [tableAt_snoc, ih]
    by_cases hnew : q = p ++ [b]
    · subst hnew
      rw [if_pos rfl, if_neg (by simp), tableAt_snoc, tableAt_snoc_of hp, hempty]
      simp [hchild, hown.ne']
    · rw [if_neg hnew, tableAt_snoc]
      cases hq : tableAt a.table q with
      | none =>
        have hne : q ≠ p := by rintro rfl; rw [hq] at hp; cases hp
        simp [hne]
      | some h' =>
        have hpath : q = p ↔ h' = h :=
          ⟨fun e => by subst e; exact Option.some.inj (hq.symm.trans hp), fun e => tableAt_inj ha (e ▸ hq) hp⟩
        have hlt := (tableAt_range ha.toArenaLegal hq).1
        simp [hchild, hpath, hlt.ne]

theorem growAt_tree (ha : ArenaTree nsym m a) (hb : b < tableSize) (hm : m < 2 ^ 20)
    (hlegal : ArenaLegal nsym m (growAt h b a)) : ArenaTree nsym m (growAt h b a) where
  toArenaLegal := hlegal
  once h1 i1 h2 i2 n hc1 hc2 := by
    have hcases : ∀ {h' i'}, childOf (growAt h b a).table h' i' = some n →
        (h' = h ∧ i' = b ∧ n = a.ntab) ∨ (childOf a.table h' i' = some n ∧ n < a.ntab) := fun hc => by
      rw [childOf_growAt ha.toArenaLegal hb hm] at hc
      split at hc
      next hnew => cases hc; exact .inl ⟨hnew.1, hnew.2, rfl⟩
      next =>
        have hold := ((ite_eq_iff.1 hc).resolve_left nofun).2
        exact .inr ⟨hold, (childOf_range ha.toArenaLegal hold).2⟩
    obtain ⟨rfl, rfl, rfl⟩ | ⟨hc1, hn1⟩ := hcases hc1 <;> obtain ⟨h2, i2, hn2⟩ | ⟨hc2, hn2⟩ := hcases hc2
    · exact ⟨h2.symm, i2.symm⟩
    · omega
    · omega
    · exact ha.once _ _ _ _ _ hc1 hc2

/-- Growing at an EMPTY slot writes and clears no SYMBOL entry. -/
theorem symbol_growAt (ha : ArenaLegal nsym m a) (hb : b < tableSize) (hk : (tableRead a.table h b).kind = .empty)
    (hi : i < tableSize) (h' : Nat) (hsym : e.kind = .symbol) :
    tableRead (growAt h b a).table h' i = e ↔ h' ≠ a.ntab ∧ tableRead a.table h' i = e := by
  rw [tableRead_growAt ha hb h' hi]
  split
  next hnew =>
    obtain ⟨rfl, rfl⟩ := hnew
    exact iff_of_false (by rintro rfl; cases hsym) (by rintro ⟨-, rfl⟩; rw [hk] at hsym; cases hsym)
  next =>
    split
    next hown => exact iff_of_false (by rintro rfl; cases hsym) fun hne => hne.1 hown
    next hne => exact (and_iff_right hne).symm

theorem resolvesTo_growAt (ha : ArenaTree nsym m a) (hb : b < tableSize) (hm : m < 2 ^ 20)
    (hp : tableAt a.table p = some h) (hk : (tableRead a.table h b).kind = .empty) (q : List Nat) (i : Nat)
    (e : Entry) :
    ResolvesTo (growAt h b a).table q i e ↔ ResolvesTo a.table q i e := by
  have hempty : childOf a.table h b = none := childOf_eq_none (by simp [hk])
  refine exists_congr fun h' => ?_
  rw [tableAt_growAt ha hb hm hp hempty]
  constructor
  · rintro ⟨hq, hi, hread, hsym⟩
    obtain ⟨hne, hread⟩ := (symbol_growAt ha.toArenaLegal hb hk hi h' hsym).1 hread
    exact ⟨((ite_eq_iff.1 hq).resolve_left fun hnew => hne (Option.some.inj hnew.2).symm).2, hi, hread, hsym⟩
  · rintro ⟨hq, hi, hread, hsym⟩
    have hnew : q ≠ p ++ [b] := by rintro rfl; rw [tableAt_snoc_of hp, hempty] at hq; cases hq
    have hlt := (tableAt_range ha.toArenaLegal hq).1
    exact ⟨(if_neg hnew).trans hq, hi, (symbol_growAt ha.toArenaLegal hb hk hi h' hsym).2 ⟨hlt.ne, hread⟩, hsym⟩

end

end Sys2Proof.Machine
end

section
/-! SUPPORT. A build that succeeds builds the table of its Code (spec/41_table_build.md R173 to R175, R179). -/

namespace Sys2Proof.Machine

open Sys2Proof.Config

section

variable {nsym m : Nat} {a a2 : Arena} {p q : List Nat} {h h2 b i : Nat} {e : Entry}

/-- A turn of the descent that succeeds follows a CONT entry or grows at an EMPTY slot (spec/41_table_build.md R174). -/
theorem descendOnce_ok (hb : b < tableSize) (hd : descendOnce m h b a = .ok (h2, a2)) :
    (childOf a.table h b = some h2 ∧ a2 = a) ∨
    ((tableRead a.table h b).kind = .empty ∧ h2 = a.ntab ∧ a2 = growAt h b a) := by
  obtain ⟨-, h1⟩ | ⟨hk, h1⟩ | ⟨-, -, h1⟩ | ⟨hk, -, h1⟩ := descendOnce_cases m h b a <;> rw [h1] at hd <;> cases hd
  · exact .inl ⟨childOf_eq_some.2 ⟨hb, hk, rfl⟩, rfl⟩
  · exact .inr ⟨hk, rfl, rfl⟩

/-- One turn of the descent: the path through its slot leads to the table it goes on in; no other path changes, and
the same paths resolve. -/
theorem descendOnce_adds (ha : ArenaTree nsym m a) (hm : m < 2 ^ 20) (hb : b < tableSize)
    (hp : tableAt a.table p = some h) (hd : descendOnce m h b a = .ok (h2, a2)) :
    ArenaTree nsym m a2 ∧ (∀ q, tableAt a2.table q = if q = p ++ [b] then some h2 else tableAt a.table q) ∧
      ∀ q i e, ResolvesTo a2.table q i e ↔ ResolvesTo a.table q i e := by
  obtain ⟨hlegal, -⟩ := descendOnce_legal ha.toArenaLegal hm (tableAt_range ha.toArenaLegal hp).1 hb hd
  obtain ⟨hc, rfl⟩ | ⟨hk, rfl, rfl⟩ := descendOnce_ok hb hd
  · refine ⟨ha, fun q => ?_, fun _ _ _ => Iff.rfl⟩
    split
    next hq => rw [hq, tableAt_snoc_of hp, hc]
    next => rfl
  · exact ⟨growAt_tree ha hb hm hlegal, tableAt_growAt ha hb hm hp (childOf_eq_none (by simp [hk])),
      resolvesTo_growAt ha hb hm hp hk⟩

/-- The next `k` chunks of a code of which `rem` bits are left (spec/30_encoding.md R119). -/
def chunksFrom (value k rem : Nat) : List Nat := (List.range k).map fun j => chunk value (rem - 8 * j)

theorem chunksFrom_succ (value k rem : Nat) :
    chunksFrom value (k + 1) rem = chunk value rem :: chunksFrom value k (rem - 8) := by
  simp only [chunksFrom, List.range_succ_eq_map, List.map_cons, List.map_map]
  refine congrArg₂ _ rfl (List.map_congr_left fun j _ => ?_)
  simp only [Function.comp_apply, Nat.succ_eq_add_one]
  congr 1; omega

/-- The descent: the path through its chunks leads to the table it ends in, and just that path and those before it are
added; the same paths resolve (spec/41_table_build.md R174). -/
theorem descend_adds {value k rem : Nat} (ha : ArenaTree nsym m a) (hm : m < 2 ^ 20)
    (hp : tableAt a.table p = some h) (hd : descend m value k rem h a = .ok (h2, a2)) :
    ArenaTree nsym m a2 ∧ tableAt a2.table (p ++ chunksFrom value k rem) = some h2 ∧
      (∀ q, (tableAt a2.table q).isSome ↔ (tableAt a.table q).isSome ∨ q <+: p ++ chunksFrom value k rem) ∧
      ∀ q i e, ResolvesTo a2.table q i e ↔ ResolvesTo a.table q i e := by
  induction k generalizing rem h a p with
  | zero =>
    cases hd
    have hnil : p ++ chunksFrom value 0 rem = p := List.append_nil p
    rw [hnil]
    exact ⟨ha, hp, fun q => (or_iff_left_of_imp (tableAt_of_prefix hp)).symm, fun _ _ _ => Iff.rfl⟩
  | succ k ih =>
    rw [descend] at hd
    split at hd
    next => cases hd
    next h' a' honce =>
      obtain ⟨ha', hpaths', hres'⟩ := descendOnce_adds ha hm (chunk_lt value rem) hp honce
      have hp' := (hpaths' (p ++ [chunk value rem])).trans (if_pos rfl)
      obtain ⟨ha2, hend, hpaths, hres⟩ := ih ha' hp' hd
      have hsplit : p ++ [chunk value rem] ++ chunksFrom value k (rem - 8) = p ++ chunksFrom value (k + 1) rem := by
        rw [chunksFrom_succ, List.append_assoc, List.singleton_append]
      rw [hsplit] at hend
      refine ⟨ha2, hend, fun q => ?_, fun q i e => (hres q i e).trans (hres' q i e)⟩
      rw [hpaths, hpaths', hsplit]
      split
      next hq => exact iff_of_true (.inl rfl) (.inr (hq ▸ hsplit ▸ List.prefix_append _ _))
      next => rfl

/-! ### The fill -/

/-- A fill with a SYMBOL entry: no path changes, and just the slots filled now resolve to it
(spec/41_table_build.md R175). -/
theorem fillSlots_adds {n : Nat} (ha : ArenaTree nsym m a) (hlegal : ArenaLegal nsym m a2)
    (hp : tableAt a.table p = some h) (hi : i + n ≤ 256) (hsym : e.kind = .symbol)
    (hf : fillSlots h e n i a = .ok a2) :
    ArenaTree nsym m a2 ∧ (∀ q, tableAt a2.table q = tableAt a.table q) ∧
      ∀ q j e', ResolvesTo a2.table q j e' ↔
        ResolvesTo a.table q j e' ∨ (q = p ∧ (i ≤ j ∧ j < i + n) ∧ e' = e) := by
  obtain ⟨-, -, hempty, hread⟩ := fillSlots_ok ha.tables.wf hi hf
  have hchild : ∀ h' j, childOf a2.table h' j = childOf a.table h' j := fun h' j => by
    by_cases hj : j < tableSize
    · rw [childOf, childOf, hread h' j hj]
      split
      next hnew => obtain ⟨rfl, hlo, hhi⟩ := hnew; simp [hsym, hempty j hlo hhi]
      next => rfl
    · simp [childOf, hj]
  have hpaths := tableAt_congr hchild
  refine ⟨⟨hlegal, fun h1 i1 h2 i2 n hc1 hc2 => ha.once _ _ _ _ n (hchild h1 i1 ▸ hc1) (hchild h2 i2 ▸ hc2)⟩, hpaths,
    fun q j e' => ?_⟩
  constructor
  · rintro ⟨h', hq, hj, he', hsym'⟩
    rw [hpaths] at hq
    rw [hread h' j hj] at he'
    split at he'
    next hnew =>
      obtain ⟨rfl, hrange⟩ := hnew
      exact .inr ⟨tableAt_inj ha hq hp, hrange, he'.symm⟩
    next => exact .inl ⟨h', hq, hj, he', hsym'⟩
  · rintro (⟨h', hq, hj, rfl, hsym'⟩ | ⟨rfl, hrange, rfl⟩)
    · have hold : ¬ (h' = h ∧ i ≤ j ∧ j < i + n) := by
        rintro ⟨rfl, hlo, hhi⟩; rw [hempty j hlo hhi] at hsym'; cases hsym'
      exact ⟨h', (hpaths q).trans hq, hj, (hread h' j hj).trans (if_neg hold), hsym'⟩
    · have hj : j < tableSize := hrange.2.trans_le hi
      exact ⟨h, (hpaths q).trans hp, hj, (hread h j hj).trans (if_pos ⟨rfl, hrange⟩), hsym⟩

/-! ### Inserting -/

/-- Inserting a used code adds the path through its chunks, and resolves the slots it fills there to its symbol
(spec/41_table_build.md R173). -/
theorem insertCode_adds {sym : Nat} {c : CodeEntry} (ha : ArenaTree nsym m a) (hm : m < 2 ^ 20) (hsym : sym < nsym)
    (hnsym : nsym ≤ maxSym) (hlen : c.len ≠ 0) (hi : insertCode m sym c a = .ok a2) :
    ArenaTree nsym m a2 ∧
      (∀ q, (tableAt a2.table q).isSome ↔ (tableAt a.table q).isSome ∨ q <+: codeChunks c) ∧
      ∀ q i e, ResolvesTo a2.table q i e ↔
        ResolvesTo a.table q i e ∨ (q = codeChunks c ∧ fillsSlot c i ∧ e = symbolEntry (lastBits c) sym) := by
  have hlegal := insertCode_legal ha.toArenaLegal hm hsym hnsym hi
  rw [insertCode, if_neg hlen] at hi
  simp only at hi
  split at hi
  next => cases hi
  next h a' hd =>
    obtain ⟨h1, h8⟩ := lastBits_range hlen
    obtain ⟨ha', hend, hpaths', hres'⟩ := descend_adds ha hm (tableAt_nil a.table) hd
    obtain ⟨ha2, hpaths, hres⟩ := fillSlots_adds ha' hlegal hend (fill_below h1 h8) rfl hi
    refine ⟨ha2, fun q => by rw [hpaths, hpaths']; rfl, fun q i e => ?_⟩
    rw [hres, hres', fill_range]; rfl

/-- Inserting one symbol more. -/
theorem insertAll_append_singleton (l : List (Nat × CodeEntry)) (sym : Nat) (c : CodeEntry)
    (hi : insertAll m (l ++ [(sym, c)]) a = .ok a2) :
    ∃ a1, insertAll m l a = .ok a1 ∧ insertCode m sym c a1 = .ok a2 := by
  induction l generalizing a with
  | nil =>
    rw [List.nil_append, insertAll] at hi
    split at hi
    next => cases hi
    next a' hone => cases hi; exact ⟨a, rfl, hone⟩
  | cons x l ih =>
    rw [List.cons_append, insertAll] at hi
    rw [insertAll]
    split at hi
    next => cases hi
    next a' hone => simpa only [hone] using ih hi

/-! ### The table of the Code -/

/-- The tables of the Code of the symbols below `n`: the paths through the chunks of its codes, and no others, and each
slot a code fills, and no other, resolved to its symbol (spec/41_table_build.md R179 (a), (b)). -/
structure PathsOfCode (code : Nat → CodeEntry) (n : Nat) (t : Memory Entry) : Prop where
  reached : ∀ q, (tableAt t q).isSome ↔ q = [] ∨ ∃ sym, sym < n ∧ (code sym).len ≠ 0 ∧ q <+: codeChunks (code sym)
  resolved : ∀ q i e, ResolvesTo t q i e ↔ ∃ sym, sym < n ∧ (code sym).len ≠ 0 ∧ q = codeChunks (code sym) ∧
    fillsSlot (code sym) i ∧ e = symbolEntry (lastBits (code sym)) sym

end

section

variable {nsym m n : Nat} {a : Arena} {code : Nat → CodeEntry} {t : Memory Entry}

/-- A build that succeeds has the paths of the symbols it has inserted (spec/41_table_build.md R173, R179). -/
theorem insertAll_range_paths (h1 : 1 ≤ m) (hm : m < 2 ^ 20) (hnsym : nsym ≤ maxSym) (hn : n ≤ nsym)
    (hi : insertAll m ((List.range n).map fun sym => (sym, code sym)) rootArena = .ok a) :
    ArenaTree nsym m a ∧ PathsOfCode code n a.table := by
  induction n generalizing a with
  | zero =>
    cases hi
    have hres : ∀ q i e, ¬ ResolvesTo rootArena.table q i e := by
      rintro q i e ⟨h, -, -, rfl, hsym⟩; cases hsym
    exact ⟨rootArena_tree h1, fun q => by simp [tableAt_root], fun q i e => by simp [hres]⟩
  | succ n ih =>
    rw [List.range_succ, List.map_append] at hi
    obtain ⟨a1, hi1, hone⟩ := insertAll_append_singleton _ _ _ hi
    obtain ⟨ha1, hreach1, hres1⟩ := ih (Nat.le_of_succ_le hn) hi1
    by_cases hlen : (code n).len = 0
    · rw [insertCode_unused m n hlen] at hone
      cases hone
      exact ⟨ha1, fun q => by rw [Nat.exists_lt_succ_right]; simp [hreach1, hlen],
        fun q i e => by rw [Nat.exists_lt_succ_right]; simp [hres1, hlen]⟩
    · obtain ⟨ha, hreach, hres⟩ := insertCode_adds ha1 hm hn hnsym hlen hone
      exact ⟨ha, fun q => by rw [hreach, hreach1, or_assoc, Nat.exists_lt_succ_right, and_iff_right hlen],
        fun q i e => by rw [hres, hres1, Nat.exists_lt_succ_right, and_iff_right hlen]⟩

theorem codeChunks_lt (c : CodeEntry) : ∀ j ∈ codeChunks c, j < tableSize := by
  simp only [codeChunks, List.mem_map]
  rintro _ ⟨k, -, rfl⟩
  exact chunk_lt _ _

/-- Said by entries and not by paths, it is the table of the Code in the spec's terms. -/
theorem tableOfCode_of_paths (ht : PathsOfCode code n t) : TableOfCode code n t where
  resolves sym i hsym hlen _ hfill := by
    obtain ⟨h, hp, -, hread, -⟩ := (ht.resolved _ _ _).2 ⟨sym, hsym, hlen, rfl, hfill, rfl⟩
    exact (entryAt_eq_some (codeChunks_lt _)).2 ⟨h, hp, hread⟩
  symbolOnly path i e hpath hi he hk := by
    obtain ⟨h, hp, hread⟩ := (entryAt_eq_some hpath).1 he
    obtain ⟨sym, hsym, hlen, rfl, hfill, rfl⟩ := (ht.resolved path i e).1 ⟨h, hp, hi, hread, hk⟩
    exact ⟨sym, hsym, hlen, rfl, hfill, rfl⟩
  contOnly path i e hpath hi he hk := by
    obtain ⟨h, hp, rfl⟩ := (entryAt_eq_some hpath).1 he
    have hnext : (tableAt t (path ++ [i])).isSome := by
      rw [tableAt_snoc_of hp, childOf_eq_some.2 ⟨hi, hk, rfl⟩]; rfl
    exact ((ht.reached _).1 hnext).resolve_left (by simp)
  contMade sym path hsym hlen hne hpre := by
    obtain ⟨p, i, rfl⟩ := (List.eq_nil_or_concat' path).resolve_left hne
    have hvalid : ∀ j ∈ p, j < tableSize := fun j hj =>
      codeChunks_lt _ j (hpre.subset (List.mem_append_left _ hj))
    obtain ⟨h', hnext⟩ := Option.isSome_iff_exists.1 ((ht.reached _).2 (.inr ⟨sym, hsym, hlen, hpre⟩))
    obtain ⟨h, hp, hc⟩ := tableAt_snoc_eq_some hnext
    exact ⟨_, (entryAt_eq_some hvalid).2 ⟨h, hp, rfl⟩, (childOf_eq_some.1 hc).2.1⟩

/-- A build that succeeds leaves a tree of tables that is the table of the Code (spec/30_encoding.md R115,
spec/41_table_build.md R179 (a), (b)). -/
theorem buildTables_tableOfCode {c : Memory CodeEntry} (hc : Memory.wf CodeEntry.unused c) (h1 : 1 ≤ m)
    (hm : m < 2 ^ 20) (hnsym : nsym ≤ maxSym) (hb : buildTables m nsym c = .ok a) :
    ArenaTree nsym m a ∧ TableOfCode (codeRead c) nsym a.table := by
  rw [build_eq_all_symbols m nsym hc] at hb
  obtain ⟨ha, ht⟩ := insertAll_range_paths h1 hm hnsym le_rfl hb
  exact ⟨ha, tableOfCode_of_paths ht⟩

end

end Sys2Proof.Machine
end

section
/-! SUPPORT. In a Code that has a table no code starts another (spec/41_table_build.md R172, R177): where one did,
some path would have to both resolve to the one and go on to the other, or resolve to both. -/

namespace Sys2Proof.Machine

open Sys2Proof.Config

section

variable {a b : CodeEntry} {n : Nat} {code : Nat → CodeEntry} {t : Memory Entry}

/-- The high `r` of the low `r + s` bits. -/
theorem lowBits_add_shiftRight (r s v : Nat) : lowBits (r + s) v >>> s = lowBits r (v >>> s) := by
  rw [lowBits, lowBits, Nat.shiftRight_eq_div_pow, Nat.shiftRight_eq_div_pow, Nat.add_comm, pow_add,
    Nat.mod_mul_right_div_self]

/-- The first `len_a` bits of code `b` are code `a`: one half of `collide`. -/
def StartsWith (b a : CodeEntry) : Prop :=
  a.len.toNat ≤ b.len.toNat ∧ b.value.toNat >>> (b.len.toNat - a.len.toNat) = a.value.toNat

/-- A code that starts with another goes through its chunks first. -/
theorem codeChunks_take (h : StartsWith b a) :
    (codeChunks b).take (chunksBefore a.len.toNat) = codeChunks a := by
  obtain ⟨hlen, hvalue⟩ := h
  have hmin : min (chunksBefore a.len.toNat) (chunksBefore b.len.toNat) = chunksBefore a.len.toNat := by
    unfold chunksBefore; omega
  rw [codeChunks, codeChunks, ← List.map_take, List.take_range, hmin]
  refine List.map_congr_left fun j hj => ?_
  have hj : 8 * j + 8 ≤ a.len.toNat := by
    have := List.mem_range.1 hj
    unfold chunksBefore at this; omega
  rw [chunk, chunk, ← hvalue, ← Nat.shiftRight_add]
  congr 2; omega

theorem codeChunks_take_succ {k : Nat} (hk : k < chunksBefore b.len.toNat) :
    (codeChunks b).take (k + 1) = (codeChunks b).take k ++ [chunk b.value.toNat (b.len.toNat - 8 * k)] := by
  rw [List.take_succ_eq_append_getElem (by simpa [codeChunks] using hk)]
  simp [codeChunks]

theorem fillBase_fillsSlot (h : a.len ≠ 0) :
    fillBase a.value.toNat (lastBits a) < tableSize ∧ fillsSlot a (fillBase a.value.toNat (lastBits a)) := by
  obtain ⟨h1, h8⟩ := lastBits_range h
  have hpos : 0 < fillCount (lastBits a) := Nat.two_pow_pos _
  exact ⟨(Nat.lt_add_of_pos_right hpos).trans_le (fill_below h1 h8),
    fill_range.1 ⟨le_rfl, Nat.lt_add_of_pos_right hpos⟩⟩

/-- Where code `b` starts with code `a`, a slot that `a` fills is on `b`'s path, or both fill it. -/
theorem startsWith_meets (h : StartsWith b a) (hlen : a.len ≠ 0) :
    ∃ i, i < tableSize ∧ fillsSlot a i ∧
      (codeChunks a ++ [i] <+: codeChunks b ∨ (codeChunks a = codeChunks b ∧ fillsSlot b i)) := by
  have htake := codeChunks_take h
  obtain ⟨hle, hvalue⟩ := h
  obtain ⟨h1, h8⟩ := lastBits_range hlen
  obtain hlt | heq : chunksBefore a.len.toNat < chunksBefore b.len.toNat ∨
      chunksBefore a.len.toNat = chunksBefore b.len.toNat := by unfold chunksBefore; omega
  · refine ⟨chunk b.value.toNat (b.len.toNat - 8 * chunksBefore a.len.toNat), chunk_lt _ _, ?_, .inl ?_⟩
    · have hsplit := lowBits_add_shiftRight (lastBits a) (8 - lastBits a)
      rw [show lastBits a + (8 - lastBits a) = 8 by omega] at hsplit
      rw [fillsSlot, chunk, hsplit, ← Nat.shiftRight_add, ← hvalue]
      congr 2
      unfold lastBits chunksBefore at *; omega
    · rw [← htake, ← codeChunks_take_succ hlt]
      exact List.take_prefix _ _
  · have hr : lastBits b = lastBits a + (b.len.toNat - a.len.toNat) := by unfold lastBits chunksBefore at *; omega
    have hblen : b.len ≠ 0 := fun h0 => by rw [h0] at hle; simp at hle; unfold lastBits at h1; omega
    obtain ⟨hslot, hfill⟩ := fillBase_fillsSlot hblen
    refine ⟨fillBase b.value.toNat (lastBits b), hslot, ?_, .inr ⟨?_, hfill⟩⟩
    · have hb8 := (lastBits_range hblen).2
      rw [fillsSlot, show 8 - lastBits a = (8 - lastBits b) + (b.len.toNat - a.len.toNat) by omega, Nat.shiftRight_add,
        hfill, hr, lowBits_add_shiftRight, hvalue]
    · rw [← htake, heq]
      exact List.take_of_length_le (by simp [codeChunks])

/-- In a Code that has a table no code starts with another's. -/
theorem not_startsWith_of_tableOfCode {x y : Nat} (ht : TableOfCode code n t) (hn : n ≤ maxSym) (hx : x < n)
    (hy : y < n) (hne : x ≠ y) (hxlen : (code x).len ≠ 0) (hylen : (code y).len ≠ 0) : ¬ StartsWith (code y) (code x) := by
  intro h
  obtain ⟨i, hi, hfill, hpre | ⟨hsame, hfill'⟩⟩ := startsWith_meets h hxlen
  · obtain ⟨e, he, hk⟩ := ht.contMade y _ hy hylen (by simp) hpre
    rw [ht.resolves x i hx hxlen hi hfill] at he
    cases he; cases hk
  · have he := ht.resolves x i hx hxlen hi hfill
    rw [hsame, ht.resolves y i hy hylen hi hfill', Option.some_inj] at he
    have hp := congrArg (fun e : Entry => e.payload.toNat) he
    simp only [symbolEntry, BitVec.toNat_ofNat] at hp
    rw [Nat.mod_eq_of_lt (hy.trans_le hn), Nat.mod_eq_of_lt (hx.trans_le hn)] at hp
    exact hne hp.symm

theorem prefixFreeBelow_of_tableOfCode (ht : TableOfCode code n t) (hn : n ≤ maxSym) : PrefixFreeBelow code n := by
  rintro x y hxy hy hxlen hylen (h | h)
  · exact not_startsWith_of_tableOfCode ht hn (hxy.trans hy) hy hxy.ne hxlen hylen h
  · exact not_startsWith_of_tableOfCode ht hn hy (hxy.trans hy) hxy.ne' hylen hxlen h

end
end Sys2Proof.Machine
end

section
/-! SUPPORT, and the proof of O51. What each command does to the Code and its table: it keeps both, or leaves no VALID
table, or builds the table anew (spec/20_memory.md R73). -/

namespace Sys2Proof.Machine

open Sys2Proof.Config

/-- The Code, its table and the registers of the build are as they were. -/
structure TablesKept (s t : State) : Prop where
  nsym : t.nsym = s.nsym
  code : t.code = s.code
  tstate : t.tstate = s.tstate
  ntab : t.ntab = s.ntab
  terr : t.terr = s.terr
  table : t.table = s.table

section

variable {s t u : State}

theorem tablesKept_trans (h1 : TablesKept s u) (h2 : TablesKept u t) : TablesKept s t :=
  ⟨h2.nsym.trans h1.nsym, h2.code.trans h1.code, h2.tstate.trans h1.tstate, h2.ntab.trans h1.ntab,
    h2.terr.trans h1.terr, h2.table.trans h1.table⟩

theorem tablesKept_reading (h : SameButReading s u) : TablesKept s u :=
  ⟨reading_nsym h, reading_code h, reading_tstate h, reading_ntab h, reading_terr h, reading_table h⟩

theorem tablesKept_same (h : SameButChunking s u) : TablesKept s u := tablesKept_reading (sameButReading_of_same h)

theorem tablesKept_emit (x : Sym) (s : State) : TablesKept s (emit x s) := ⟨rfl, rfl, rfl, rfl, rfl, rfl⟩

theorem tablesKept_respond {code : BitVec 8} {result : Word56} (h : respond code result s = .next t) :
    TablesKept s t := by
  rw [eq_of_respond h]; exact ⟨rfl, rfl, rfl, rfl, rfl, rfl⟩

theorem tablesKept_raise {f : ReaderFault} {result : Word56} (h : raiseReader f result s = .next t) :
    TablesKept s t :=
  tablesKept_trans ⟨latch_nsym f s, latch_code f s, latch_tstate f s, latch_ntab f s, latch_terr f s, latch_table f s⟩
    (tablesKept_respond h)

theorem tablesKept_answers (h : Answers u t) : TablesKept u t := by
  obtain ⟨_, _, -, ht⟩ | ⟨_, _, -, ht⟩ := h
  · exact tablesKept_respond ht
  · exact tablesKept_raise ht

/-- Keeping the Code and its table keeps them matching. -/
theorem tableMatchesCode_kept (h : TablesKept s t) (hs : TableMatchesCode s) : TableMatchesCode t := by
  unfold TableMatchesCode codeOf at *
  rw [h.tstate, h.code, h.nsym, h.table]; exact hs

/-! ### The commands that keep the Code and its table -/

theorem readbits_tablesKept {n : BitVec 4} (h : exec (.readbits n) s = .next t) : TablesKept s t := by
  simp only [exec, execReadbits] at h
  split at h
  next => exact tablesKept_respond h
  next =>
    split at h
    next => exact tablesKept_respond h
    next =>
      split at h
      next => exact tablesKept_raise h
      next =>
        split at h
        next f s' hr => exact tablesKept_trans (tablesKept_same (refill_raised_same hr)) (tablesKept_raise h)
        next s' hr =>
          exact tablesKept_trans (tablesKept_same (refill_same hr))
            (tablesKept_trans (tablesKept_reading (consume_sameButReading _ _)) (tablesKept_respond h))

theorem peek_tablesKept (h : exec .peek s = .next t) : TablesKept s t := by
  simp only [exec, execPeek] at h
  split at h
  next => exact tablesKept_respond h
  next =>
    split at h
    next => exact tablesKept_respond h
    next =>
      split at h
      next f s' hr => exact tablesKept_trans (tablesKept_same (refill_raised_same hr)) (tablesKept_raise h)
      next s' hr => exact tablesKept_trans (tablesKept_same (refill_same hr)) (tablesKept_respond h)

theorem decodeOne_tablesKept {r : Run Decoded} (h : decodeOne s = r) : TablesKept s r.state :=
  h ▸ tablesKept_reading (decodeOne_sameButReading s)

theorem decSym_tablesKept (h : exec .decSym s = .next t) : TablesKept s t := by
  simp only [exec, execDecSym] at h
  split at h
  next => exact tablesKept_respond h
  next =>
    split at h
    next hd => exact tablesKept_trans (decodeOne_tablesKept hd) (tablesKept_raise h)
    next hd => exact tablesKept_trans (decodeOne_tablesKept hd) (tablesKept_respond h)
    next hd =>
      exact tablesKept_trans (decodeOne_tablesKept hd) (tablesKept_trans (tablesKept_emit _ _) (tablesKept_respond h))

theorem decodeRun_tablesKept {left cnt : Nat} (h : decodeRun left cnt s = .next t) : TablesKept s t := by
  induction left generalizing cnt s with
  | zero => exact tablesKept_respond h
  | succ left ih =>
    obtain ⟨f, u, hd, hrun⟩ | ⟨u, hd, hrun⟩ | ⟨x, u, hd, hrun⟩ := decodeRun_succ left cnt s <;> rw [hrun] at h
    · exact tablesKept_trans (decodeOne_tablesKept hd) (tablesKept_raise h)
    · exact tablesKept_trans (decodeOne_tablesKept hd) (tablesKept_respond h)
    · exact tablesKept_trans (decodeOne_tablesKept hd) (tablesKept_trans (tablesKept_emit x u) (ih h))

theorem decRun_tablesKept {quota : Word56} (h : exec (.decRun quota) s = .next t) : TablesKept s t := by
  simp only [exec, execDecRun] at h
  split at h
  next => exact tablesKept_respond h
  next => exact decodeRun_tablesKept h

theorem brInit_tablesKept {budget : Word56} (h : exec (.brInit budget) s = .next t) : TablesKept s t := by
  have hinit : TablesKept s (leaveReaderFault (startReader budget (bindSource s))) :=
    ⟨bindSource_nsym s, bindSource_code s, bindSource_tstate s, bindSource_ntab s, bindSource_terr s, bindSource_table s⟩
  exact tablesKept_trans hinit (tablesKept_respond h)

/-! ### The commands that load the Code and build its table -/

theorem codeClr_kept_or_notBuilt {nsym : BitVec 21} (h : exec (.codeClr nsym) s = .next t) :
    TablesKept s t ∨ t.tstate = .notBuilt := by
  simp only [exec, execCodeClr] at h
  split at h
  next => exact .inl (tablesKept_respond h)
  next => exact .inr (tablesKept_respond h).tstate

theorem codeWr_kept_or_notBuilt {sym : Sym} {len : BitVec 5} {value : BitVec 20}
    (h : exec (.codeWr sym len value) s = .next t) : TablesKept s t ∨ t.tstate = .notBuilt := by
  simp only [exec, execCodeWr] at h
  split at h
  next => exact .inl (tablesKept_respond h)
  next hbuilt =>
    split at h
    next => exact .inl (tablesKept_respond h)
    next => exact .inr ((tablesKept_respond h).tstate.trans (not_not.1 hbuilt))

/-- TBL_BUILD is refused, or fails, or leaves the tables it builds of the Code (spec/41_table_build.md R173). -/
theorem tblBuild_cases (h : exec .tblBuild s = .next t) :
    (s.tstate ≠ .notBuilt ∧ TablesKept s t) ∨ t.tstate = .failed ∨
    (∃ a, buildTables (ntabMax s) s.nsym.toNat s.code = .ok a ∧
      TablesKept { s with table := a.table, ntab := BitVec.ofNat 18 a.ntab, tstate := .valid } t) := by
  simp only [exec, execTblBuild] at h
  split at h
  next hbuilt => exact .inl ⟨hbuilt, tablesKept_respond h⟩
  next =>
    split at h
    next => exact .inr (.inl (tablesKept_respond h).tstate)
    next a hb => exact .inr (.inr ⟨a, hb, tablesKept_respond h⟩)

theorem tableMatchesCode_of_kept_or_notBuilt (hs : TableMatchesCode s) (h : TablesKept s t ∨ t.tstate = .notBuilt) :
    TableMatchesCode t := by
  obtain hkept | hnot := h
  · exact tableMatchesCode_kept hkept hs
  · exact fun hvalid => by rw [hnot] at hvalid; cases hvalid

/-- A build that succeeds leaves the table of its Code (spec/41_table_build.md R179). -/
theorem tblBuild_matches (h : exec .tblBuild s = .next t) (hcode : CodeInv s) (hs : TableMatchesCode s) :
    TableMatchesCode t := by
  obtain ⟨-, hkept⟩ | hfailed | ⟨a, hb, hkept⟩ := tblBuild_cases h
  · exact tableMatchesCode_kept hkept hs
  · exact fun hvalid => by rw [hfailed] at hvalid; cases hvalid
  · have hmax := s.tablesBeyondRoot.isLt
    obtain ⟨-, ht⟩ := buildTables_tableOfCode hcode.wf (by unfold ntabMax; omega) (by unfold ntabMax; omega)
      hcode.nsym_le hb
    exact tableMatchesCode_kept hkept fun _ => ht

/-! ### Every step (O51) -/

theorem exec_matches {i : Instr} (h : exec i s = .next t) (hcode : CodeInv s) (hs : TableMatchesCode s) :
    TableMatchesCode t := by
  cases i with
  | reset => exact tableMatchesCode_of_kept_or_notBuilt hs (.inr (tablesKept_respond h).tstate)
  | rdreg reg => exact tableMatchesCode_kept (tablesKept_answers (rdreg_answers h)) hs
  | codeClr nsym => exact tableMatchesCode_of_kept_or_notBuilt hs (codeClr_kept_or_notBuilt h)
  | codeWr sym len value => exact tableMatchesCode_of_kept_or_notBuilt hs (codeWr_kept_or_notBuilt h)
  | tblBuild => exact tblBuild_matches h hcode hs
  | tblRd handle idx => exact tableMatchesCode_kept (tablesKept_answers (tblRd_answers h)) hs
  | brInit budget => exact tableMatchesCode_kept (brInit_tablesKept h) hs
  | readbits n => exact tableMatchesCode_kept (readbits_tablesKept h) hs
  | peek => exact tableMatchesCode_kept (peek_tablesKept h) hs
  | decSym => exact tableMatchesCode_kept (decSym_tablesKept h) hs
  | decRun quota => exact tableMatchesCode_kept (decRun_tablesKept h) hs

theorem answer_matches {w : Word} (h : answer w s = .next t) (hcode : CodeInv s) (hs : TableMatchesCode s) :
    TableMatchesCode t := by
  unfold answer at h
  split at h
  next => exact exec_matches h hcode hs
  next => exact tableMatchesCode_kept (tablesKept_respond h) hs

theorem step_matches (h : step s = .next t) (hs : Inv s) (hmatch : TableMatchesCode s) : TableMatchesCode t := by
  unfold step at h
  split at h
  next => cases h; exact hmatch
  next w rest _ => exact answer_matches h { hs.code with } hmatch

end

/-- Settles O51: only a build that succeeds makes a table VALID, and it leaves the table of its Code; that no code
starts another follows from the Code having a table. -/
theorem stepKeepsTheTableOfTheCode : Obligations.StepKeepsTheTableOfTheCode := by
  intro s t hs hmatch _ h
  have hmatch' := step_matches h hs hmatch
  have hnsym := (stepKeepsTheInvariant s t hs h).code.nsym_le
  exact ⟨hmatch', fun hvalid => prefixFreeBelow_of_tableOfCode (hmatch' hvalid) hnsym⟩

end Sys2Proof.Machine
end

section
/-! SUPPORT, and the proof of O30. What READBITS answers when the bits it asks for exist (spec/40_bitreader.md R143,
spec/20_memory.md R63). -/

namespace Sys2Proof.Machine

open Sys2Proof.Config

/-- The next `n` bits can be read: a reader is bound, no fault is latched, and the budget and the source have them. -/
structure CanRead (n : Nat) (s : State) : Prop where
  active : s.rstate = .active
  unlatched : s.rerr = 0
  budget : n ≤ s.remaining.toNat
  source : bitpos s + n ≤ 8 * s.src.bytes.length

/-- READBITS of `n` bits has been answered: its result is the next `n` stream bits, first bit in bit 0, and just those
are consumed. -/
structure HasRead (n : Nat) (s t : State) : Prop where
  result_bit : ∀ i, (responseResult t).getLsbD i = (decide (i < n) && streamBit s.src.bytes (bitpos s + i))
  remaining : t.remaining.toNat = s.remaining.toNat - n
  bitpos : bitpos t = bitpos s + n
  bytes : t.src.bytes = s.src.bytes
  rstate : t.rstate = s.rstate
  rerr : t.rerr = s.rerr

section

variable {s t u : State} {n : BitVec 4} {k l : Nat}

theorem readerReady_of_canRead (h : CanRead k s) : readerReady s = none := by
  simp [readerReady, h.active, h.unlatched]

/-- A Refill for bits that the budget and the source have meets no end of the source (spec/40_bitreader.md R145). -/
theorem refill_of_canRead (hb : Bound s) (h : CanRead k s) : ∃ u, refill k s = .done () u := by
  cases hr : refill k s with
  | done _ u => exact ⟨u, rfl⟩
  | raised f u =>
    obtain ⟨-, -, hshort, hend⟩ := refill_raised h.budget hr
    have hfetched := hb.1.fetched
    have hsource := h.source
    unfold bitpos at hsource
    omega

theorem bitpos_consume (hb : ReaderBounds u) (h : k ≤ u.remaining.toNat) : bitpos (consume k u) = bitpos u + k := by
  have hle := hb.remaining_le
  rw [bitpos, bitpos, consume_remaining_toNat h, consume_budget0]
  omega

theorem responseResult_of_respond {code : BitVec 8} {result : Word56} (h : respond code result s = .next t) :
    responseResult t = result := by
  rw [eq_of_respond h]
  exact (Laws.EncodeFields.fields_of_append code result).2

/-- READBITS of bits that exist (spec/40_bitreader.md R143): it refills, answers the low bits of ACC and consumes
them. -/
theorem exec_readbits_of_canRead (hb : Bound s) (h : CanRead n.toNat s) (h1 : 1 ≤ n.toNat) (h8 : n.toNat ≤ 8) :
    ∃ u, SameButChunking s u ∧ Bound u ∧ n.toNat ≤ u.nacc.toNat ∧
      exec (.readbits n) s
        = respond okCode (BitVec.ofNat 56 (lowBits n.toNat u.acc.toNat)) (consume n.toNat u) := by
  obtain ⟨u, hr⟩ := refill_of_canRead hb h
  refine ⟨u, refill_same hr, refill_bound hb h.budget h8 hr, refill_enough h.budget h8 hr, ?_⟩
  have hlegal : widthLegal n = true := by simp [widthLegal, h1, h8]
  rw [exec, execReadbits, if_neg (by simp [hlegal]), readerReady_of_canRead h]
  simp only [Nat.not_lt.2 h.budget, if_false, hr]

/-- READBITS of bits that exist answers them and moves on past them (spec/20_memory.md R63). -/
theorem hasRead_of_canRead (hb : Bound s) (h : CanRead n.toNat s) (h1 : 1 ≤ n.toNat) (h8 : n.toNat ≤ 8)
    (ht : exec (.readbits n) s = .next t) : HasRead n.toNat s t := by
  obtain ⟨u, hsame, hbu, hacc, hexec⟩ := exec_readbits_of_canRead hb h h1 h8
  rw [hexec] at ht
  have hrem := same_remaining hsame
  have hpos := same_bitpos hsame
  have hbytes := same_bytes hsame
  have hbudget : n.toNat ≤ u.remaining.toNat := hrem ▸ h.budget
  refine ⟨fun i => ?_, ?_, ?_, ?_, ?_, ?_⟩
  · rw [responseResult_of_respond ht, BitVec.getLsbD_ofNat, lowBits_acc hbu hacc, hbytes, hpos]
    by_cases hi : i < n.toNat
    · simp [hi, show i < 56 by omega]
    · simp [hi]
  all_goals rw [eq_of_respond ht]
  · exact (consume_remaining_toNat hbudget).trans (by rw [hrem])
  · exact (bitpos_consume hbu.1 hbudget).trans (by rw [hpos])
  · exact hbytes
  · exact (same_rstate hsame :)
  · exact (same_rerr hsame :)

/-- What is left of a longer read can be read next. -/
theorem canRead_after (h : CanRead (k + l) s) (ht : HasRead k s t) : CanRead l t := by
  obtain ⟨hact, hunl, hbudget, hsource⟩ := h
  refine ⟨ht.rstate.trans hact, ht.rerr.trans hunl, ?_, ?_⟩
  · rw [ht.remaining]; omega
  · rw [ht.bitpos, ht.bytes]; omega

theorem canRead_mono (hkl : k ≤ l) (h : CanRead l s) : CanRead k s :=
  ⟨h.active, h.unlatched, hkl.trans h.budget, (Nat.add_le_add_left hkl _).trans h.source⟩

end

/-- Settles O30: bit by bit, the two results side by side are the stream bits of the one read. -/
theorem twoReadsAreOneRead : Obligations.TwoReadsAreOneRead := by
  intro s t1 t2 t n1 n2 n hs hact hunl h1 h2 hn h8 hbudget hsource hr1 hr2 hr
  have hcan : CanRead n.toNat s := ⟨hact, hunl, hbudget, hsource⟩
  have hb := bound_of_inv hs hact
  have hread := hasRead_of_canRead hb hcan (by omega) h8 hr
  have hread1 := hasRead_of_canRead hb (canRead_mono (by omega) hcan) h1 (by omega) hr1
  have hcan2 : CanRead n2.toNat t1 := canRead_after (hn ▸ hcan) hread1
  have hread2 := hasRead_of_canRead (bound_of_inv (exec_inv hr1 hs) hcan2.active) hcan2 h2 (by omega) hr2
  refine ⟨BitVec.eq_of_getLsbD_eq fun i hi => ?_, BitVec.eq_of_toNat_eq ?_⟩
  · rw [BitVec.getLsbD_or, BitVec.getLsbD_shiftLeft, hread.result_bit, hread1.result_bit, hread2.result_bit,
      hread1.bytes, hread1.bitpos, hn]
    by_cases hlow : i < n1.toNat
    · simp [hlow, Nat.lt_add_right n2.toNat hlow]
    · have hle := Nat.not_lt.1 hlow
      rw [Nat.add_assoc, Nat.add_sub_cancel' hle]
      simp [hlow, hi, Nat.sub_lt_iff_lt_add' hle]
  · rw [hread.remaining, hread2.remaining, hread1.remaining]; omega

end Sys2Proof.Machine
end

section
/-! SUPPORT, and the proofs of O1, O2, O3, O4 and O10. A command's word and back, field by field
(spec/30_encoding.md R102 to R105, R108). -/

namespace Sys2Proof

open Sys2Proof.Machine

/-! ### Fields -/

section Fields

variable {k n lo : Nat}

theorem field_self (x : BitVec n) : field x 0 n = x := BitVec.extractLsb'_eq_self

theorem field_append_low (x : BitVec k) (y : BitVec n) : field (x ++ y) 0 n = y := BitVec.extractLsb'_append_eq_right

theorem field_append_high (x : BitVec k) (y : BitVec n) (lo m : Nat) :
    field (x ++ y) (lo + n) m = field x lo m :=
  (BitVec.extractLsb'_append_eq_of_le (Nat.le_add_left n lo)).trans (by rw [Nat.add_sub_cancel]; rfl)

/-- Two fields that meet are one. -/
theorem field_append_field (u : BitVec k) (lo m n : Nat) : field u (lo + n) m ++ field u lo n = field u lo (m + n) :=
  BitVec.extractLsb'_append_extractLsb'_eq_extractLsb' rfl

theorem toNat_field_low (u : BitVec k) (n : Nat) : (field u 0 n).toNat = u.toNat % 2 ^ n := by simp [field]

/-- The zero bits a format has above its fields are a field of the operand (spec/30_encoding.md R103). -/
theorem zero_append_field {u : BitVec k} (m : Nat) (h : u.toNat < 2 ^ (lo + n)) :
    (0 : BitVec m) ++ field u lo n = field u lo (m + n) := by
  have hzero : field u (lo + n) m = 0 := by
    apply BitVec.eq_of_toNat_eq
    simp [field, Nat.shiftRight_eq_div_pow, Nat.div_eq_of_lt h]
  rw [← field_append_field, hzero]

theorem toNat_append_lt {x : BitVec k} (h : x.toNat < 2 ^ lo) (y : BitVec n) : (x ++ y).toNat < 2 ^ (lo + n) := by
  rw [BitVec.toNat_append]
  exact Nat.or_lt_two_pow (Nat.shiftLeft_lt h) (y.isLt.trans_le (Nat.pow_le_pow_right (by decide) (Nat.le_add_left n lo)))

theorem toNat_zero_append_lt (m : Nat) (y : BitVec n) : ((0 : BitVec m) ++ y).toNat < 2 ^ n := by
  simp [BitVec.toNat_append, y.isLt]

theorem ushiftRight_eq_zero_iff {u : BitVec k} : u >>> n = 0 ↔ u.toNat < 2 ^ n := by
  rw [← BitVec.toNat_inj]
  simp [Nat.shiftRight_eq_div_pow, Nat.div_eq_zero_iff]

end Fields

/-! ### The checks of the decoder -/

section Checks

variable {i j : Instr} {u : Word56} {n : Nat}

theorem ifZeroFrom_eq_ok_iff : ifZeroFrom n u i = .ok j ↔ u.toNat < 2 ^ n ∧ i = j := by
  rw [ifZeroFrom, ← ushiftRight_eq_zero_iff]
  split
  next hzero => simp [hzero]
  next hone => exact iff_of_false nofun fun h => hone h.1

theorem ifLegal_eq_ok_iff {r : Illegal} {e : Except Illegal Instr} :
    ifLegal r e = .ok j ↔ e = .ok j ∧ j.wf = true := by
  cases e with
  | error _ => exact iff_of_false nofun nofun
  | ok i =>
    rw [ifLegal]
    split
    next hwf => exact ⟨fun h => ⟨h, Except.ok.inj h ▸ hwf⟩, And.left⟩
    next hwf => exact iff_of_false nofun fun h => hwf (Except.ok.inj h.1 ▸ h.2)

end Checks

/-! ### Words and commands (O1, O2) -/

theorem decode_encode (i : Instr) : decode (encode i) = decodeOperand (opcodeOf i) (operandOf i) := by
  obtain ⟨hop, hu⟩ := Laws.EncodeFields.fields_of_append (opcodeOf i) (operandOf i)
  rw [decode, encode, hop, hu]

/-- Settles O1: a command's operand sets no bit above its fields, and each field of it reads back. -/
theorem decodeOfEncodeIsTheCommand : Obligations.DecodeOfEncodeIsTheCommand := by
  intro i hwf
  rw [decode_encode]
  cases i with
  | reset | tblBuild | peek | decSym | brInit _ | decRun _ => rfl
  | rdreg reg =>
    exact ifLegal_eq_ok_iff.2 ⟨ifZeroFrom_eq_ok_iff.2
      ⟨toNat_zero_append_lt 52 reg, by rw [operandOf, field_append_low]⟩, hwf⟩
  | readbits n =>
    exact ifLegal_eq_ok_iff.2 ⟨ifZeroFrom_eq_ok_iff.2
      ⟨toNat_zero_append_lt 52 n, by rw [operandOf, field_append_low]⟩, hwf⟩
  | codeClr nsym =>
    exact ifZeroFrom_eq_ok_iff.2 ⟨toNat_zero_append_lt 35 nsym, by rw [operandOf, field_append_low]⟩
  | codeWr sym len value =>
    refine ifZeroFrom_eq_ok_iff.2
      ⟨toNat_append_lt (toNat_append_lt (toNat_zero_append_lt 11 sym) len) value, ?_⟩
    rw [operandOf, field_append_low, field_append_high _ value 0, field_append_low,
      field_append_high _ value 5, field_append_high _ len 0, field_append_low]
  | tblRd handle idx =>
    refine ifZeroFrom_eq_ok_iff.2 ⟨toNat_append_lt (toNat_zero_append_lt 31 handle) idx, ?_⟩
    rw [operandOf, field_append_low, field_append_high _ idx 0, field_append_low]

/-- The operand of CODE_WR, put together again from its fields. -/
theorem codeWr_fields {u : Word56} (h : u.toNat < 2 ^ 45) :
    operandOf (.codeWr (field u 25 20) (field u 20 5) (field u 0 20)) = u := by
  calc (0 : BitVec 11) ++ field u 25 20 ++ field u 20 5 ++ field u 0 20
      = field u 25 31 ++ field u 20 5 ++ field u 0 20 := by rw [zero_append_field 11 h]
    _ = field u 20 36 ++ field u 0 20 := congrArg (· ++ field u 0 20) (field_append_field u 20 31 5)
    _ = u := (field_append_field u 0 36 20).trans (field_self u)

/-- The operand of TBL_RD, put together again from its fields. -/
theorem tblRd_fields {u : Word56} (h : u.toNat < 2 ^ 25) : operandOf (.tblRd (field u 8 17) (field u 0 8)) = u := by
  calc (0 : BitVec 31) ++ field u 8 17 ++ field u 0 8
      = field u 8 48 ++ field u 0 8 := by rw [zero_append_field 31 h]
    _ = u := (field_append_field u 0 48 8).trans (field_self u)

theorem zero_eq_of_toNat_lt {k : Nat} {u : BitVec k} (h : u.toNat < 2 ^ 0) : 0 = u :=
  (BitVec.eq_of_toNat_eq (by simpa using h)).symm

/-- What decodes under an opcode is the operand of a well-formed command with that opcode: no format drops a bit. -/
theorem decodeOperand_ok {op : BitVec 8} {u : Word56} {i : Instr} (h : decodeOperand op u = .ok i) :
    opcodeOf i = op ∧ operandOf i = u ∧ i.wf = true := by
  have hop : ∀ n : Nat, op.toNat = n → BitVec.ofNat 8 n = op := fun n hn => by
    rw [← hn, BitVec.ofNat_toNat, BitVec.setWidth_eq]
  rw [decodeOperand] at h
  split at h <;> simp only [ifLegal_eq_ok_iff, ifZeroFrom_eq_ok_iff, Except.ok.injEq, reduceCtorEq] at h
  next heq => obtain ⟨hu, rfl⟩ := h; exact ⟨hop _ heq, zero_eq_of_toNat_lt hu, rfl⟩
  next heq => obtain ⟨⟨hu, rfl⟩, hwf⟩ := h; exact ⟨hop _ heq, (zero_append_field 52 hu).trans (field_self u), hwf⟩
  next heq => obtain ⟨hu, rfl⟩ := h; exact ⟨hop _ heq, (zero_append_field 35 hu).trans (field_self u), rfl⟩
  next heq => obtain ⟨hu, rfl⟩ := h; exact ⟨hop _ heq, codeWr_fields hu, rfl⟩
  next heq => obtain ⟨hu, rfl⟩ := h; exact ⟨hop _ heq, zero_eq_of_toNat_lt hu, rfl⟩
  next heq => obtain ⟨hu, rfl⟩ := h; exact ⟨hop _ heq, tblRd_fields hu, rfl⟩
  next heq => obtain rfl := h; exact ⟨hop _ heq, rfl, rfl⟩
  next heq => obtain ⟨⟨hu, rfl⟩, hwf⟩ := h; exact ⟨hop _ heq, (zero_append_field 52 hu).trans (field_self u), hwf⟩
  next heq => obtain ⟨hu, rfl⟩ := h; exact ⟨hop _ heq, zero_eq_of_toNat_lt hu, rfl⟩
  next heq => obtain ⟨hu, rfl⟩ := h; exact ⟨hop _ heq, zero_eq_of_toNat_lt hu, rfl⟩
  next heq => obtain rfl := h; exact ⟨hop _ heq, rfl, rfl⟩

/-- Settles O2: a word is its opcode over its operand, and these are the command's. -/
theorem encodeOfDecodeIsTheWord : Obligations.EncodeOfDecodeIsTheWord := by
  intro w i h
  obtain ⟨hop, hu, hwf⟩ := decodeOperand_ok h
  refine ⟨?_, hwf⟩
  rw [encode, hop, hu]
  exact (field_append_field w 0 8 56).trans (field_self w)

/-! ### Illegal words (O3) -/

theorem toNat_opcode (w : Word) : (field w 56 8).toNat = w.toNat / 2 ^ 56 := by
  have := w.isLt
  rw [field, BitVec.extractLsb'_toNat, Nat.shiftRight_eq_div_pow]
  omega

/-- The register numbers RDREG takes, said of its whole operand (spec/30_encoding.md R105, R108). -/
theorem wf_rdreg_field (u : Word56) :
    (Instr.rdreg (field u 0 4)).wf = true ↔ (9 ≤ u.toNat % 2 ^ 4 → 14 < u.toNat % 2 ^ 4) := by
  simp only [Instr.wf, regLegal, Bool.or_eq_true, decide_eq_true_eq, toNat_field_low]
  omega

/-- The widths READBITS takes, said of its whole operand (spec/30_encoding.md R105, R108). -/
theorem wf_readbits_field (u : Word56) :
    (Instr.readbits (field u 0 4)).wf = true ↔ u.toNat % 2 ^ 4 ≠ 0 ∧ u.toNat % 2 ^ 4 < 9 := by
  simp only [Instr.wf, widthLegal, Bool.and_eq_true, decide_eq_true_eq, toNat_field_low]
  omega

/-- The decoder takes exactly the words that are not illegal (spec/30_encoding.md R108). -/
theorem exists_decode_iff (w : Word) : (∃ i, decode w = .ok i) ↔ ¬ IllegalWord w := by
  rw [decode, decodeOperand, IllegalWord, ← toNat_opcode, ← toNat_field_low w 56]
  split
  case h_2 heq => simp [heq, ifLegal_eq_ok_iff, ifZeroFrom_eq_ok_iff, and_assoc, wf_rdreg_field]
  case h_8 heq => simp [heq, ifLegal_eq_ok_iff, ifZeroFrom_eq_ok_iff, and_assoc, wf_readbits_field]
  case h_12 =>
    refine iff_of_false nofun fun hlegal => hlegal (.inl ?_)
    simp only [List.mem_cons, List.not_mem_nil, or_false, not_or]
    tauto
  all_goals simp [*, ifZeroFrom_eq_ok_iff]

/-- Settles O3: the step refuses what does not decode, and that is what is illegal by its bits. -/
theorem illegalWordsAreRefused : Obligations.IllegalWordsAreRefused := by
  constructor
  · intro s w rest hw hill
    cases hd : decode w with
    | ok i => exact absurd hill ((exists_decode_iff w).1 ⟨i, hd⟩)
    | error e => rw [step, hw]; simp only [answer, hd]; rfl
  · intro w hlegal
    obtain ⟨i, hd⟩ := (exists_decode_iff w).2 hlegal
    exact ⟨i, hd, (encodeOfDecodeIsTheWord w i hd).2⟩

/-! ### The step and the refused fields (O4, O10) -/

/-- Settles O4: the word is taken from the list and answered by its command. -/
theorem stepRunsTheDecodedCommand : Obligations.StepRunsTheDecodedCommand := by
  intro s w rest i hw hd
  rw [step, hw]
  simp only [answer, hd]

/-- Settles O10: no register has a reserved number, and the width check comes first. -/
theorem illegalFieldsAreRefused : Obligations.IllegalFieldsAreRefused := by
  constructor
  · intro s reg h9 h14
    have hnone : readRegister reg s = none := by
      interval_cases hreg : reg.toNat <;> simp [readRegister, hreg]
    rw [exec, execRdreg, hnone]; rfl
  · intro s n hn
    have hwidth : widthLegal n = false := by
      simp only [widthLegal, Bool.and_eq_false_iff, decide_eq_false_iff_not]
      omega
    rw [exec, execReadbits, if_pos hwidth]; rfl

end Sys2Proof
end

section
/-! SUPPORT, and the proof of O17. Every table of a build is reached from the root, so that some CONT entry leads to it
(spec/30_encoding.md R115, spec/41_table_build.md R173). -/

namespace Sys2Proof.Machine

open Sys2Proof.Config

/-- Every allocated table is reached from the root. -/
def AllReached (a : Arena) : Prop := ∀ n, n < a.ntab → ∃ p, tableAt a.table p = some n

section

variable {nsym m : Nat} {a a2 : Arena} {p : List Nat} {h h2 b : Nat}

theorem rootArena_allReached : AllReached rootArena := fun n hn => ⟨[], by rw [tableAt_nil, Nat.lt_one_iff.1 hn]⟩

/-- Growing at an EMPTY slot reaches the new table through it, and every other table as before. -/
theorem growAt_allReached (ha : ArenaTree nsym m a) (hm : m < 2 ^ 20) (hb : b < tableSize)
    (hp : tableAt a.table p = some h) (hk : (tableRead a.table h b).kind = .empty) (hall : AllReached a) :
    AllReached (growAt h b a) := by
  have hempty : childOf a.table h b = none := childOf_eq_none (by simp [hk])
  intro n hn
  obtain hold | rfl := Nat.lt_succ_iff_lt_or_eq.1 hn
  · obtain ⟨q, hq⟩ := hall n hold
    have hnew : q ≠ p ++ [b] := by rintro rfl; rw [tableAt_snoc_of hp, hempty] at hq; cases hq
    exact ⟨q, by rw [tableAt_growAt ha hb hm hp hempty, if_neg hnew, hq]⟩
  · exact ⟨p ++ [b], by rw [tableAt_growAt ha hb hm hp hempty, if_pos rfl]⟩

theorem descendOnce_allReached (ha : ArenaTree nsym m a) (hm : m < 2 ^ 20) (hb : b < tableSize)
    (hp : tableAt a.table p = some h) (hd : descendOnce m h b a = .ok (h2, a2)) (hall : AllReached a) :
    AllReached a2 := by
  obtain ⟨-, rfl⟩ | ⟨hk, -, rfl⟩ := descendOnce_ok hb hd
  · exact hall
  · exact growAt_allReached ha hm hb hp hk hall

theorem descend_allReached {value k rem : Nat} (ha : ArenaTree nsym m a) (hm : m < 2 ^ 20)
    (hp : tableAt a.table p = some h) (hd : descend m value k rem h a = .ok (h2, a2)) (hall : AllReached a) :
    AllReached a2 := by
  induction k generalizing rem h a p with
  | zero => cases hd; exact hall
  | succ k ih =>
    rw [descend] at hd
    split at hd
    next => cases hd
    next h' a' honce =>
      obtain ⟨ha', hpaths, -⟩ := descendOnce_adds ha hm (chunk_lt value rem) hp honce
      exact ih ha' ((hpaths (p ++ [chunk value rem])).trans (if_pos rfl)) hd
        (descendOnce_allReached ha hm (chunk_lt value rem) hp honce hall)

/-- Inserting a code keeps the arena a tree whose every table is reached: the descent does, and the fill changes no
path. -/
theorem insertCode_allReached {sym : Nat} {c : CodeEntry} (ha : ArenaTree nsym m a) (hm : m < 2 ^ 20) (hsym : sym < nsym)
    (hnsym : nsym ≤ maxSym) (hi : insertCode m sym c a = .ok a2) (hall : AllReached a) :
    ArenaTree nsym m a2 ∧ AllReached a2 := by
  by_cases hlen : c.len = 0
  · rw [insertCode_unused m sym hlen] at hi; cases hi; exact ⟨ha, hall⟩
  refine ⟨(insertCode_adds ha hm hsym hnsym hlen hi).1, ?_⟩
  have hlegal := insertCode_legal ha.toArenaLegal hm hsym hnsym hi
  rw [insertCode, if_neg hlen] at hi
  simp only at hi
  split at hi
  next => cases hi
  next h a' hd =>
    obtain ⟨h1, h8⟩ := lastBits_range hlen
    obtain ⟨ha', hend, -⟩ := descend_adds ha hm (tableAt_nil a.table) hd
    obtain ⟨-, hpaths, -⟩ := fillSlots_adds ha' hlegal hend (fill_below h1 h8) rfl hi
    obtain ⟨hntab, -⟩ := fillSlots_ok ha'.tables.wf (fill_below h1 h8) hi
    intro n hn
    obtain ⟨q, hq⟩ := descend_allReached ha hm (tableAt_nil a.table) hd hall n (hntab ▸ hn)
    exact ⟨q, (hpaths q).trans hq⟩

theorem insertAll_allReached {l : List (Nat × CodeEntry)} (ha : ArenaTree nsym m a) (hm : m < 2 ^ 20)
    (hl : ∀ x ∈ l, x.1 < nsym) (hnsym : nsym ≤ maxSym) (hi : insertAll m l a = .ok a2) (hall : AllReached a) :
    ArenaTree nsym m a2 ∧ AllReached a2 := by
  induction l generalizing a with
  | nil => cases hi; exact ⟨ha, hall⟩
  | cons x l ih =>
    rw [insertAll] at hi
    split at hi
    next => cases hi
    next a' hone =>
      obtain ⟨ha', hall'⟩ := insertCode_allReached ha hm (hl x List.mem_cons_self) hnsym hone hall
      exact ih ha' (fun y hy => hl y (List.mem_cons_of_mem x hy)) hi hall'

/-- A build that succeeds leaves a tree of tables: legal entries only, no table with two CONT entries to it, and every
table reached from the root. -/
theorem buildTables_allReached {c : Memory CodeEntry} (h1 : 1 ≤ m) (hm : m < 2 ^ 20) (hnsym : nsym ≤ maxSym)
    (hb : buildTables m nsym c = .ok a) : ArenaTree nsym m a ∧ AllReached a :=
  insertAll_allReached (rootArena_tree h1) hm (fun x hx => by simpa using (List.mem_filter.1 hx).2) hnsym hb
    rootArena_allReached

/-! ### CONT entries by element address -/

/-- An element address is a slot of a table (spec/20_memory.md R61). -/
theorem childOf_of_cont {t : Memory Entry} {x : Nat} (hk : (Memory.read Entry.empty t x).kind = .cont) :
    childOf t (x / tableSize) (x % tableSize) = some (Memory.read Entry.empty t x).payload.toNat := by
  have hread : tableRead t (x / tableSize) (x % tableSize) = Memory.read Entry.empty t x := by
    rw [tableRead, tableAddr, Nat.div_add_mod]
  rw [childOf, hread, if_pos ⟨Nat.mod_lt _ (by decide), hk⟩]

/-- Each table but the root has exactly one CONT entry to it (spec/30_encoding.md R115). -/
theorem exists_unique_cont {n : Nat} (ha : ArenaTree nsym m a) (hall : AllReached a) (h1 : 1 ≤ n) (hn : n < a.ntab) :
    ∃ x, (Memory.read Entry.empty a.table x).kind = .cont ∧ (Memory.read Entry.empty a.table x).payload.toNat = n ∧
      ∀ y, (Memory.read Entry.empty a.table y).kind = .cont →
        (Memory.read Entry.empty a.table y).payload.toNat = n → y = x := by
  obtain ⟨p, hp⟩ := hall n hn
  obtain ⟨q, i, rfl⟩ := (List.eq_nil_or_concat' p).resolve_left fun hnil =>
    (Nat.ne_of_gt h1) ((tableAt_range ha.toArenaLegal hp).2.2 hnil)
  obtain ⟨h, -, hc⟩ := tableAt_snoc_eq_some hp
  obtain ⟨-, hk, hpay⟩ := childOf_eq_some.1 hc
  refine ⟨tableAddr h i, hk, hpay, fun y hyk hyn => ?_⟩
  obtain ⟨hh, hi⟩ := ha.once _ _ _ _ n (hyn ▸ childOf_of_cont hyk) hc
  rw [tableAddr, ← hh, ← hi, Nat.div_add_mod]

end

/-- Settles O17: the build leaves a tree of tables, and its NTAB fits the register. -/
theorem builtTablesAreATree : Obligations.BuiltTablesAreATree := by
  intro s t hcode hnot h hvalid
  obtain ⟨hbuilt, -⟩ | hfailed | ⟨a, hb, hkept⟩ := tblBuild_cases h
  · exact absurd hnot hbuilt
  · rw [hfailed] at hvalid; cases hvalid
  have hmax := s.tablesBeyondRoot.isLt
  obtain ⟨ha, hall⟩ := buildTables_allReached (by unfold ntabMax; omega) (by unfold ntabMax; omega) hcode.nsym_le hb
  have hle := ha.ntab_le
  have hntab : t.ntab.toNat = a.ntab := by
    rw [hkept.ntab]
    exact Nat.mod_eq_of_lt (by unfold ntabMax at hle; omega)
  rw [hntab, hkept.table]
  exact ⟨ha.ntab_pos, hle, ha.tables, fun n h1 hn => exists_unique_cont ha hall h1 hn⟩

end Sys2Proof.Machine
end

section
/-! SUPPORT, and the proof of O38. A symbol that is decoded comes from a SYMBOL entry of a table reached from the root,
and the table of the Code has none for an unused symbol (spec/30_encoding.md R121, spec/41_table_build.md R179). -/

namespace Sys2Proof.Machine

open Sys2Proof.Config

/-! ### The SYMBOL entries of the table of a Code -/

/-- The symbol is one of the Code's and has a codeword (spec/30_encoding.md R121). -/
def UsedSymbol (s : State) (x : Sym) : Prop := x.toNat < s.nsym.toNat ∧ (codeOf s x.toNat).len ≠ 0

/-- The tables are legal, their handles fit CUR, and they are the table of the Code. -/
structure OnItsTable (s : State) : Prop where
  nsym_le : s.nsym.toNat ≤ maxSym
  ntab_le : s.ntab.toNat ≤ 2 ^ 17
  legal : TablesLegal s.nsym.toNat s.ntab.toNat s.table
  ofCode : TableOfCode (codeOf s) s.nsym.toNat s.table

section

variable {s t u : State} {p : List Nat} {h i n : Nat}

theorem tableAt_slots_lt {t : Memory Entry} (hp : tableAt t p = some h) : ∀ j ∈ p, j < tableSize := by
  induction p using List.reverseRecOn generalizing h with
  | nil => nofun
  | append_singleton p i ih =>
    obtain ⟨h', hp', hc⟩ := tableAt_snoc_eq_some hp
    intro j hj
    obtain hj | hj := List.mem_append.1 hj
    · exact ih hp' j hj
    · exact List.mem_singleton.1 hj ▸ (childOf_eq_some.1 hc).1

theorem usedSymbol_kept (h : TablesKept s t) (x : Sym) : UsedSymbol t x ↔ UsedSymbol s x := by
  rw [UsedSymbol, UsedSymbol, codeOf, codeOf, h.nsym, h.code]

theorem onItsTable_kept (h : TablesKept s t) (hs : OnItsTable s) : OnItsTable t := by
  obtain ⟨hnsym, hntab, hlegal, hcode⟩ := hs
  have hsame : codeOf t = codeOf s := by unfold codeOf; rw [h.code]
  rw [← h.nsym] at hnsym hlegal hcode
  rw [← h.ntab] at hntab hlegal
  rw [← h.table] at hlegal hcode
  exact ⟨hnsym, hntab, hlegal, hsame ▸ hcode⟩

theorem onItsTable_of_inv (hs : Inv s) (hmatch : TableMatchesCode s) (hvalid : s.tstate = .valid) : OnItsTable s where
  nsym_le := hs.code.nsym_le
  ntab_le := by
    have htab := hs.tables
    have hmax := s.tablesBeyondRoot.isLt
    simp only [TableInv, hvalid, ntabMax] at htab
    omega
  legal := tableInv_tablesLegal hs.tables
  ofCode := hmatch hvalid

/-- A SYMBOL entry of a table that is reached is for a used symbol (spec/41_table_build.md R179 (b)). -/
theorem usedSymbol_of_entry (hs : OnItsTable s) (hp : tableAt s.table p = some h) (hi : i < tableSize)
    (hk : (tableRead s.table h i).kind = .symbol) : UsedSymbol s (tableRead s.table h i).payload := by
  have hslots := tableAt_slots_lt hp
  obtain ⟨sym, hsym, hlen, -, -, he⟩ :=
    hs.ofCode.symbolOnly p i _ hslots hi ((entryAt_eq_some hslots).2 ⟨h, hp, rfl⟩) hk
  have hpay : (tableRead s.table h i).payload.toNat = sym := by
    rw [he]; exact Nat.mod_eq_of_lt (hsym.trans_le hs.nsym_le)
  exact ⟨hpay.symm ▸ hsym, hpay.symm ▸ hlen⟩

/-! ### The decode loop -/

/-- A CONT entry that is met leads CUR to a table that is reached (spec/42_decode.md R204). -/
theorem followCont_reached (hs : OnItsTable s) (hp : tableAt s.table p = some s.cur.toNat) (hi : i < tableSize)
    (hk : (tableRead s.table s.cur.toNat i).kind = .cont) :
    tableAt s.table (p ++ [i]) = some (followCont (tableRead s.table s.cur.toNat i) s).cur.toNat := by
  have hlt := cont_payload_lt hs.legal hk
  have hcur : (followCont (tableRead s.table s.cur.toNat i) s).cur.toNat
      = (tableRead s.table s.cur.toNat i).payload.toNat := by
    rw [followCont_cur, BitVec.toNat_setWidth]
    exact Nat.mod_eq_of_lt (hlt.trans_le hs.ntab_le)
  rw [hcur, tableAt_snoc_of hp]
  exact childOf_eq_some.2 ⟨hi, hk, rfl⟩

/-- From a table that is reached, the loop of DecodeOne resolves to used symbols only. -/
theorem decodeLoop_usedSymbol {x : Sym} (hs : OnItsTable s) (hp : tableAt s.table p = some s.cur.toNat)
    (hd : decodeLoop n s = .done (.sym x) t) : UsedSymbol s x := by
  induction n generalizing s p with
  | zero => cases hd
  | succ n ih =>
    by_cases h0 : s.remaining = 0
    · rw [decodeLoop_exhausted h0] at hd
      split at hd <;> cases hd
    obtain ⟨f, u, -, hturn⟩ | ⟨u, hr, hturn⟩ := decodeLoop_turn h0 n
    · rw [hturn] at hd; cases hd
    have hsame := refill_same hr
    have hkept := tablesKept_same hsame
    have hu := onItsTable_kept hkept hs
    have hslot : (rev8 (lookahead (availBits s) u)).toNat < tableSize := BitVec.isLt _
    rw [← same_table hsame, ← same_cur hsame] at hp
    rw [← usedSymbol_kept hkept]
    obtain ⟨-, hturn⟩ | ⟨-, ⟨hk, hturn⟩ | ⟨hk, hturn⟩ | ⟨-, hturn⟩⟩ := hturn <;> rw [hturn] at hd
    · cases hd
    · cases hd; exact usedSymbol_of_entry hu hp hslot hk
    · have hfollow := tablesKept_reading (followCont_sameButReading (probe (availBits s) u) u)
      rw [← usedSymbol_kept hfollow]
      exact ih (onItsTable_kept hfollow hu) (followCont_reached hu hp hslot hk) hd
    · cases hd

theorem decodeOne_usedSymbol {x : Sym} (hs : OnItsTable s) (hd : decodeOne s = .done (.sym x) t) : UsedSymbol s x := by
  have hstart := tablesKept_reading (startSymbol_sameButReading s)
  rw [← usedSymbol_kept hstart]
  exact decodeLoop_usedSymbol (onItsTable_kept hstart hs) (tableAt_nil _) hd

/-! ### The decode commands -/

/-- What a command appends to OUT is used symbols of the Code it starts with. -/
def EmitsUsed (s t : State) : Prop := ∃ l : List Sym, t.out = s.out ++ l ∧ ∀ x ∈ l, UsedSymbol s x

theorem emitsUsed_of_out_eq (h : t.out = s.out) : EmitsUsed s t := ⟨[], by rw [h, List.append_nil], nofun⟩

/-- One symbol more in front. -/
theorem emitsUsed_emit {x : Sym} (hs : OnItsTable s) (hd : decodeOne s = .done (.sym x) u)
    (h : EmitsUsed (emit x u) t) : EmitsUsed s t := by
  obtain ⟨l, hout, hl⟩ := h
  have hread : SameButReading s u := by simpa [hd, Run.state] using decodeOne_sameButReading s
  have hkept := tablesKept_trans (tablesKept_reading hread) (tablesKept_emit x u)
  refine ⟨x :: l, by rw [hout, emit, reading_out hread, List.append_assoc, List.singleton_append], fun y hy => ?_⟩
  obtain rfl | hy := List.mem_cons.1 hy
  · exact decodeOne_usedSymbol hs hd
  · exact (usedSymbol_kept hkept y).1 (hl y hy)

/-- DecodeOne that resolves no symbol emits none, however the command is then answered. -/
theorem emitsUsed_of_decodeOne {r : Run Decoded} (hd : decodeOne s = r) (h : t.out = r.state.out) : EmitsUsed s t :=
  emitsUsed_of_out_eq (h.trans (reading_out (hd ▸ decodeOne_sameButReading s)))

theorem out_of_respond {code : BitVec 8} {result : Word56} (h : respond code result s = .next t) : t.out = s.out := by
  rw [eq_of_respond h]

theorem out_of_raiseReader {f : ReaderFault} {result : Word56} (h : raiseReader f result s = .next t) :
    t.out = s.out :=
  (out_of_respond h).trans (latch_out f s)

theorem onItsTable_of_decoderReady (hs : Inv s) (hmatch : TableMatchesCode s) (hready : decoderReady s = none) :
    OnItsTable s := by
  unfold decoderReady at hready
  split at hready
  next => cases hready
  next hvalid => exact onItsTable_of_inv hs hmatch (not_not.1 hvalid)

theorem decSym_emitsUsed (hs : Inv s) (hmatch : TableMatchesCode s) (h : exec .decSym s = .next t) :
    EmitsUsed s t := by
  simp only [exec, execDecSym] at h
  split at h
  next => exact emitsUsed_of_out_eq (out_of_respond h)
  next hready =>
    split at h
    next hd => exact emitsUsed_of_decodeOne hd (out_of_raiseReader h)
    next hd => exact emitsUsed_of_decodeOne hd (out_of_respond h)
    next hd =>
      exact emitsUsed_emit (onItsTable_of_decoderReady hs hmatch hready) hd (emitsUsed_of_out_eq (out_of_respond h))

theorem decodeRun_emitsUsed {left cnt : Nat} (hs : OnItsTable s) (h : decodeRun left cnt s = .next t) :
    EmitsUsed s t := by
  induction left generalizing cnt s with
  | zero => exact emitsUsed_of_out_eq (out_of_respond h)
  | succ left ih =>
    obtain ⟨f, u, hd, hrun⟩ | ⟨u, hd, hrun⟩ | ⟨x, u, hd, hrun⟩ := decodeRun_succ left cnt s <;> rw [hrun] at h
    · exact emitsUsed_of_decodeOne hd (out_of_raiseReader h)
    · exact emitsUsed_of_decodeOne hd (out_of_respond h)
    · have hkept := tablesKept_trans (decodeOne_tablesKept hd) (tablesKept_emit x u)
      exact emitsUsed_emit hs hd (ih (onItsTable_kept hkept hs) h)

theorem decRun_emitsUsed {quota : Word56} (hs : Inv s) (hmatch : TableMatchesCode s)
    (h : exec (.decRun quota) s = .next t) : EmitsUsed s t := by
  simp only [exec, execDecRun] at h
  split at h
  next => exact emitsUsed_of_out_eq (out_of_respond h)
  next hready => exact decodeRun_emitsUsed (onItsTable_of_decoderReady hs hmatch hready) h

end

/-- Settles O38: the decode commands emit used symbols only, and no other command but RESET changes OUT. -/
theorem onlyUsedSymbolsAreEmitted : Obligations.OnlyUsedSymbolsAreEmitted := by
  intro s t i hs hmatch hreset h
  change EmitsUsed s t
  by_cases hsym : i = .decSym
  · subst hsym; exact decSym_emitsUsed hs hmatch h
  by_cases hrun : ∃ quota, i = .decRun quota
  · obtain ⟨quota, rfl⟩ := hrun; exact decRun_emitsUsed hs hmatch h
  · exact emitsUsed_of_out_eq ((outIsAppendOnly i s t h hreset).2 hsym (not_exists.1 hrun))

end Sys2Proof.Machine
end

section
/-! SUPPORT, and the proof of O54. CODE_LOAD: CODE_CLR leaves every symbol unused, and each CODE_WR after it is accepted
and sets its own symbol (spec/30_encoding.md R126, spec/41_table_build.md R170, R171). -/

namespace Sys2Proof.Machine

open Sys2Proof.Config

/-- The canonical (value, length) of a symbol, as CODE holds it (spec/00_scope.md R9). -/
def canonicalEntry (lens : List Nat) (sym : Nat) : CodeEntry :=
  ⟨BitVec.ofNat 20 (canonicalValue lens sym), BitVec.ofNat 5 (lens.getD sym 0)⟩

/-- The machine takes CODE_WR of any symbol below `n`. -/
structure TakesCode (n : Nat) (s : State) : Prop where
  nsym : s.nsym.toNat = n
  tstate : s.tstate = .notBuilt
  wf : Memory.wf CodeEntry.unused s.code

section

variable {s : State} {lens : List Nat} {n sym : Nat}

/-- CODE_WR of a legal element below NSYM writes it (spec/41_table_build.md R171). -/
theorem exec_codeWr_of_legal {x : Sym} {e : CodeEntry} (hnot : s.tstate = .notBuilt) (hx : x.toNat < s.nsym.toNat)
    (he : codeEntryLegal e) :
    exec (.codeWr x e.len e.value) s = respond okCode 0 { s with code := codeWrite s.code x.toNat e } := by
  have hok : codeWrBad x e.len e.value s = false := by simp [codeWrBad, hx, he.1, he.2]
  rw [exec, execCodeWr, if_neg (not_not.2 hnot), hok]
  rfl

theorem canonicalEntry_len (hlen : lens.getD sym 0 ≤ 20) : (canonicalEntry lens sym).len.toNat = lens.getD sym 0 :=
  Nat.mod_eq_of_lt (by omega)

theorem canonicalEntry_value (hlen : lens.getD sym 0 ≤ 20) (hfit : canonicalValue lens sym < 2 ^ lens.getD sym 0) :
    (canonicalEntry lens sym).value.toNat = canonicalValue lens sym :=
  Nat.mod_eq_of_lt (hfit.trans_le (Nat.pow_le_pow_right (by decide) hlen))

theorem canonicalEntry_legal (hlen : lens.getD sym 0 ≤ 20) (hfit : canonicalValue lens sym < 2 ^ lens.getD sym 0) :
    codeEntryLegal (canonicalEntry lens sym) := by
  rw [codeEntryLegal, canonicalEntry_len hlen, canonicalEntry_value hlen hfit]
  exact ⟨hlen, hfit⟩

/-- A symbol without a codeword has the canonical (0, 0). -/
theorem canonicalEntry_unused (h : lens.getD sym 0 = 0) : canonicalEntry lens sym = CodeEntry.unused := by
  rw [canonicalEntry, canonicalValue, h]; rfl

/-- The CODE_WR of one symbol of CODE_LOAD is accepted, and sets just that symbol. -/
theorem exec_codeLoadOne (hs : TakesCode n s) (hn : n ≤ 2 ^ 20) (hsym : sym < n)
    (hlegal : codeEntryLegal (canonicalEntry lens sym)) :
    ∃ t, exec (codeLoadOne lens sym) s = .next t ∧ TakesCode n t ∧
      ∀ y, codeOf t y = if y = sym then canonicalEntry lens sym else codeOf s y := by
  have hx : (BitVec.ofNat 20 sym).toNat = sym := Nat.mod_eq_of_lt (hsym.trans_le hn)
  have hbelow : (BitVec.ofNat 20 sym).toNat < s.nsym.toNat := by rwa [hx, hs.nsym]
  refine ⟨_, exec_codeWr_of_legal hs.tstate hbelow hlegal, ⟨hs.nsym, hs.tstate, codeWrite_wf hs.wf _ _⟩, fun y => ?_⟩
  exact (codeRead_codeWrite hs.wf _ y _).trans (by rw [hx]; rfl)

/-- The CODE_WRs of CODE_LOAD for the symbols of `l` are all accepted, and set just those symbols. -/
theorem issueAll_codeLoadOne {l : List Nat} (hs : TakesCode n s) (hn : n ≤ 2 ^ 20) (hl : ∀ sym ∈ l, sym < n)
    (hlegal : ∀ sym ∈ l, codeEntryLegal (canonicalEntry lens sym)) :
    ∃ t, issueAll (l.map (codeLoadOne lens)) s = .next t ∧ TakesCode n t ∧
      ∀ sym, codeOf t sym = if sym ∈ l then canonicalEntry lens sym else codeOf s sym := by
  induction l generalizing s with
  | nil => exact ⟨s, rfl, hs, fun sym => rfl⟩
  | cons x l ih =>
    rw [List.forall_mem_cons] at hl hlegal
    obtain ⟨u, hexec, hu, hone⟩ := exec_codeLoadOne hs hn hl.1 hlegal.1
    obtain ⟨t, ht, htakes, hcode⟩ := ih hu hl.2 hlegal.2
    refine ⟨t, by rw [List.map_cons, issueAll, hexec]; exact ht, htakes, fun sym => ?_⟩
    rw [hcode, hone]
    by_cases hmem : sym ∈ l
    · simp [hmem]
    · by_cases hsx : sym = x <;> simp [hmem, hsx]

/-- CODE_CLR of an alphabet size that is allowed leaves every symbol unused, and takes CODE_WR
(spec/41_table_build.md R170). -/
theorem exec_codeClr_takesCode {nsym : BitVec 21} (h : nsym.toNat ≤ maxSym) :
    ∃ t, exec (.codeClr nsym) s = .next t ∧ TakesCode nsym.toNat t ∧ ∀ sym, codeOf t sym = CodeEntry.unused := by
  refine ⟨{ leaveBuild { s with nsym := nsym, code := [] } with response := some (responseWord okCode 0) }, ?_,
    ⟨rfl, rfl, wf_nil⟩, fun _ => rfl⟩
  rw [exec, execCodeClr, if_neg (not_lt.2 h)]; rfl

end

/-- Settles O54: after the CODE_CLR the symbols with a codeword are written, and the others are unused already. -/
theorem codeLoadLoadsTheCanonicalCode : Obligations.CodeLoadLoadsTheCanonicalCode := by
  intro s lens hn hlens hfit
  have hlen : ∀ sym, sym < lens.length → lens.getD sym 0 ≤ 20 := fun sym hsym => by
    rw [List.getD_eq_getElem _ _ hsym]; exact hlens _ (List.getElem_mem hsym)
  have hnsym : (BitVec.ofNat 21 lens.length).toNat = lens.length := Nat.mod_eq_of_lt (by omega)
  obtain ⟨s', hclr, htakes, hunused⟩ := exec_codeClr_takesCode (s := s) (hnsym.le.trans hn)
  rw [hnsym] at htakes
  have hlt : ∀ sym ∈ (List.range lens.length).filter fun sym => decide (lens.getD sym 0 ≠ 0), sym < lens.length :=
    fun sym hmem => List.mem_range.1 (List.mem_of_mem_filter hmem)
  obtain ⟨t, hload, ht, hcode⟩ := issueAll_codeLoadOne (lens := lens) htakes hn hlt fun sym hmem =>
    canonicalEntry_legal (hlen sym (hlt sym hmem)) (hfit sym (hlt sym hmem))
  refine ⟨t, ?_, ht.nsym, ht.tstate, fun sym hsym => ?_⟩
  · rw [codeLoad, issueAll, hclr]; exact hload
  have hentry : codeOf t sym = canonicalEntry lens sym := by
    rw [hcode, hunused]
    split
    next => rfl
    next hmem =>
      refine (canonicalEntry_unused (not_not.1 fun hne => hmem ?_)).symm
      exact List.mem_filter.2 ⟨List.mem_range.2 hsym, decide_eq_true hne⟩
  rw [hentry]
  exact ⟨canonicalEntry_len (hlen sym hsym), canonicalEntry_value (hlen sym hsym) (hfit sym hsym)⟩

end Sys2Proof.Machine
end

section
/-! SUPPORT, and the proofs of O23, O25 and O29. Each way the commands of the reader and decoder can go, as an equation
(spec/40_bitreader.md R141 to R144, R150, spec/42_decode.md R201, R203, R208, R209). -/

namespace Sys2Proof.Machine

open Sys2Proof.Config

section

variable {s u : State} {n : BitVec 4} {quota : Word56} {code : BitVec 8} {f : ReaderFault} {x : Sym}

/-! ### The entry checks -/

theorem widthLegal_of_range (h1 : 1 ≤ n.toNat) (h8 : n.toNat ≤ 8) : widthLegal n = true := by
  simp [widthLegal, h1, h8]

theorem range_of_widthLegal (h : widthLegal n = true) : 1 ≤ n.toNat ∧ n.toNat ≤ 8 := by
  simpa [widthLegal] using h

theorem readerReady_of_unbound (hunb : s.rstate = .unbound) : readerReady s = some 0x7E := by
  simp [readerReady, hunb, refusalCode]

theorem readerReady_of_latched (hact : s.rstate = .active) (hlatched : s.rerr ≠ 0) : readerReady s = some s.rerr := by
  rw [readerReady, if_neg (by simp [hact]), if_pos hlatched]

theorem readerReady_of_unlatched (hact : s.rstate = .active) (hfree : s.rerr = 0) : readerReady s = none := by
  simp [readerReady, hact, hfree]

theorem decoderReady_of_valid (hvalid : s.tstate = .valid) : decoderReady s = readerReady s :=
  if_neg (not_not.2 hvalid)

/-- With no reader bound the decoder is refused whether or not there is a table (spec/42_decode.md R201). -/
theorem decoderReady_of_unbound (hunb : s.rstate = .unbound) : decoderReady s = some 0x7E := by
  rw [decoderReady, readerReady_of_unbound hunb]
  split <;> rfl

/-- `raise F` with no fault latched latches F. -/
theorem raiseReader_of_unlatched (hfree : s.rerr = 0) (result : Word56) :
    raiseReader f result s
      = .next { s with rerr := readerFaultCode f, response := some (responseWord (readerFaultCode f) result) } := by
  rw [raiseReader, latch, if_pos hfree]; rfl

/-! ### READBITS and PEEK -/

theorem exec_readbits_illegal (h : widthLegal n = false) : exec (.readbits n) s = refuse .illegalCommand s := by
  simp [exec, execReadbits, h]

theorem exec_readbits_of_not_ready (h1 : 1 ≤ n.toNat) (h8 : n.toNat ≤ 8) (hready : readerReady s = some code) :
    exec (.readbits n) s = respond code 0 s := by
  simp [exec, execReadbits, widthLegal_of_range h1 h8, hready]

theorem exec_readbits_over_budget (h1 : 1 ≤ n.toNat) (h8 : n.toNat ≤ 8) (hready : readerReady s = none)
    (hover : s.remaining.toNat < n.toNat) : exec (.readbits n) s = raiseReader .unexpectedEOF 0 s := by
  simp [exec, execReadbits, widthLegal_of_range h1 h8, hready, hover]

theorem exec_readbits_of_raised (h1 : 1 ≤ n.toNat) (h8 : n.toNat ≤ 8) (hready : readerReady s = none)
    (hbudget : n.toNat ≤ s.remaining.toNat) (hr : refill n.toNat s = .raised f u) :
    exec (.readbits n) s = raiseReader f 0 u := by
  simp [exec, execReadbits, widthLegal_of_range h1 h8, hready, Nat.not_lt.2 hbudget, hr]

theorem exec_readbits_of_refilled (h1 : 1 ≤ n.toNat) (h8 : n.toNat ≤ 8) (hready : readerReady s = none)
    (hbudget : n.toNat ≤ s.remaining.toNat) (hr : refill n.toNat s = .done () u) :
    exec (.readbits n) s = respond okCode (BitVec.ofNat 56 (lowBits n.toNat u.acc.toNat)) (consume n.toNat u) := by
  simp [exec, execReadbits, widthLegal_of_range h1 h8, hready, Nat.not_lt.2 hbudget, hr]

theorem exec_peek_of_not_ready (hready : readerReady s = some code) : exec .peek s = respond code 0 s := by
  simp [exec, execPeek, hready]

theorem exec_peek_exhausted (hready : readerReady s = none) (hrem : s.remaining = 0) :
    exec .peek s = respond eofCode 0 s := by
  simp [exec, execPeek, hready, hrem]

theorem exec_peek_of_raised (hready : readerReady s = none) (hrem : s.remaining ≠ 0)
    (hr : refill (availBits s) s = .raised f u) : exec .peek s = raiseReader f 0 u := by
  simp only [exec, execPeek, hready, if_neg hrem, hr]

theorem exec_peek_of_refilled (hready : readerReady s = none) (hrem : s.remaining ≠ 0)
    (hr : refill (availBits s) s = .done () u) :
    exec .peek s = respond okCode (peekResult (availBits s) (lookahead (availBits s) u)) u := by
  simp only [exec, execPeek, hready, if_neg hrem, hr]

/-! ### DEC_SYM and DEC_RUN -/

theorem exec_decSym_of_not_ready (hready : decoderReady s = some code) : exec .decSym s = respond code 0 s := by
  simp [exec, execDecSym, hready]

theorem exec_decRun_of_not_ready (hready : decoderReady s = some code) :
    exec (.decRun quota) s = respond code 0 s := by
  simp [exec, execDecRun, hready]

theorem exec_decRun_of_ready (hready : decoderReady s = none) :
    exec (.decRun quota) s = decodeRun quota.toNat 0 s := by
  simp [exec, execDecRun, hready]

theorem exec_decSym_of_sym (hready : decoderReady s = none) (hd : decodeOne s = .done (.sym x) u) :
    exec .decSym s = respond okCode (x.setWidth 56) (emit x u) := by
  simp [exec, execDecSym, hready, hd]

/-- A symbol that DecodeOne faults at ends DEC_SYM, and DEC_RUN with a quota, alike (spec/60_exceptions.md R254). -/
theorem exec_decodes_of_raised (hready : decoderReady s = none) (hd : decodeOne s = .raised f u) :
    exec .decSym s = raiseReader f 0 u ∧
      ∀ quota : Word56, quota ≠ 0 → exec (.decRun quota) s = raiseReader f 0 u := by
  refine ⟨by simp [exec, execDecSym, hready, hd], fun quota hquota => ?_⟩
  obtain ⟨left, hleft⟩ := Nat.exists_eq_succ_of_ne_zero (toNat_ne_zero hquota)
  simp [exec_decRun_of_ready hready, hleft, decodeRun, hd]

/-- So does the clean end of the budget (spec/42_decode.md R208, R209). -/
theorem exec_decodes_of_ended (hready : decoderReady s = none) (hd : decodeOne s = .done .ended u) :
    exec .decSym s = respond eofCode 0 u ∧
      ∀ quota : Word56, quota ≠ 0 → exec (.decRun quota) s = respond eofCode 0 u := by
  refine ⟨by simp [exec, execDecSym, hready, hd], fun quota hquota => ?_⟩
  obtain ⟨left, hleft⟩ := Nat.exists_eq_succ_of_ne_zero (toNat_ne_zero hquota)
  simp [exec_decRun_of_ready hready, hleft, decodeRun, hd]

end

/-- Settles O23: the registers are written whether the source is one supplied or a free one. -/
theorem brInitBindsAReader : Obligations.BrInitBindsAReader := by
  intro s budget
  refine ⟨_, rfl, rfl, rfl, rfl, rfl, rfl, rfl, rfl, rfl, rfl, rfl, rfl, fun src rest hsources => ?_, ?_⟩
  · simp [startReader, leaveReaderFault, bindSource, hsources]
  · cases hsources : s.sources <;> simp [startReader, leaveReaderFault, bindSource, hsources]

/-- Settles O25: the entry checks, then the budget, both before the Refill. -/
theorem readbitsOverBudgetTouchesNothing : Obligations.ReadbitsOverBudgetTouchesNothing := by
  intro s n h1 h8 hover
  refine ⟨fun hunb => ?_, fun hact hlatched => ?_, fun hact hfree => ?_⟩
  · exact exec_readbits_of_not_ready h1 h8 (readerReady_of_unbound hunb)
  · exact exec_readbits_of_not_ready h1 h8 (readerReady_of_latched hact hlatched)
  · rw [exec_readbits_over_budget h1 h8 (readerReady_of_unlatched hact hfree) hover]
    exact raiseReader_of_unlatched hfree 0

/-- Settles O29: all four commands answer what the entry checks answer. -/
theorem latchedFaultMakesReadsNoOps : Obligations.LatchedFaultMakesReadsNoOps := by
  intro s
  refine ⟨fun hunb n h1 h8 => ?_, fun hact hlatched n h1 h8 => ?_⟩
  · have hready := readerReady_of_unbound hunb
    have hdec := decoderReady_of_unbound hunb
    exact ⟨exec_readbits_of_not_ready h1 h8 hready, exec_peek_of_not_ready hready, exec_decSym_of_not_ready hdec,
      fun _ => exec_decRun_of_not_ready hdec⟩
  · have hready := readerReady_of_latched hact hlatched
    refine ⟨exec_readbits_of_not_ready h1 h8 hready, exec_peek_of_not_ready hready, fun hvalid => ?_⟩
    have hdec := (decoderReady_of_valid hvalid).trans hready
    exact ⟨exec_decSym_of_not_ready hdec, fun _ => exec_decRun_of_not_ready hdec⟩

end Sys2Proof.Machine
end

section
/-! SUPPORT, and the proofs of O24, O26, O27, O28 and O45. Whether a Refill succeeds is a matter of the source's length
only, and what READBITS, PEEK and the first probe of a symbol make of it (spec/40_bitreader.md R143 to R145, R150, R154,
spec/42_decode.md R203). -/

namespace Sys2Proof.Machine

open Sys2Proof.Config

/-! ### The refill and the length of the source -/

section

variable {s u t : State} {k n : Nat} {f : ReaderFault}

/-- The pending bits are bits the source has. -/
theorem bitpos_add_nacc_le (hb : Bound s) : bitpos s + s.nacc.toNat ≤ 8 * s.src.bytes.length := by
  have hfetched := hb.1.fetched
  have htaken := hb.2.taken_le
  have hle := hb.1.remaining_le
  unfold bitpos; omega

/-- A Refill leaves the bits asked for pending where the source has them, and else raises the fault of the source's end
with nothing changed (spec/40_bitreader.md R145). -/
theorem refill_by_length (hb : Bound s) (hbudget : k ≤ s.remaining.toNat) (h8 : k ≤ 8) :
    (bitpos s + k ≤ 8 * s.src.bytes.length ∧
      ∃ u, refill k s = .done () u ∧ SameButChunking s u ∧ Bound u ∧ k ≤ u.nacc.toNat) ∨
    (8 * s.src.bytes.length < bitpos s + k ∧ refill k s = .raised (endFault s.src.ending) s) := by
  cases hr : refill k s with
  | done _ u =>
    have hsame := refill_same hr
    have hbu := refill_bound hb hbudget h8 hr
    have hacc := refill_enough hbudget h8 hr
    have hpending := bitpos_add_nacc_le hbu
    rw [same_bitpos hsame, same_bytes hsame] at hpending
    exact .inl ⟨(Nat.add_le_add_left hacc _).trans hpending, u, rfl, hsame, hbu, hacc⟩
  | raised f u =>
    obtain ⟨rfl, rfl, hshort, hend⟩ := refill_raised hbudget hr
    have hfetched := hb.1.fetched
    exact .inr ⟨by unfold bitpos; omega, rfl⟩

theorem refill_of_source (hb : Bound s) (hbudget : k ≤ s.remaining.toNat) (h8 : k ≤ 8)
    (hsource : bitpos s + k ≤ 8 * s.src.bytes.length) :
    ∃ u, refill k s = .done () u ∧ SameButChunking s u ∧ Bound u ∧ k ≤ u.nacc.toNat :=
  ((refill_by_length hb hbudget h8).resolve_right fun h => absurd hsource (Nat.not_le.2 h.1)).2

theorem refill_of_short_source (hb : Bound s) (hbudget : k ≤ s.remaining.toNat) (h8 : k ≤ 8)
    (hshort : 8 * s.src.bytes.length < bitpos s + k) : refill k s = .raised (endFault s.src.ending) s :=
  ((refill_by_length hb hbudget h8).resolve_left fun h => absurd h.1 (Nat.not_le.2 hshort)).2

/-- The lookahead byte is the next stream bits, and 0 above them (spec/40_bitreader.md R150). -/
theorem lookahead_bit (hb : Bound u) (hk : k ≤ u.nacc.toNat) (h8 : k ≤ 8) (i : Nat) :
    (lookahead k u).getLsbD i = (decide (i < k) && streamBit u.src.bytes (bitpos u + i)) := by
  rw [lookahead, BitVec.getLsbD_ofNat, lowBits_acc hb hk]
  by_cases hi : i < k
  · simp [hi, show i < 8 by omega]
  · simp [hi]

/-- PEEK's result as a number: avail above the lookahead byte (spec/30_encoding.md R107). -/
theorem peekResult_eq (hk : k ≤ 8) (p : BitVec 8) : peekResult k p = BitVec.ofNat 56 (256 * k + p.toNat) := by
  have hp := p.isLt
  have hword : (peekResult k p).toNat = k * 2 ^ 8 + p.toNat := by
    rw [peekResult, BitVec.toNat_append, ← Nat.shiftLeft_add_eq_or_of_lt hp, BitVec.toNat_ofNat,
      Nat.mod_eq_of_lt (by omega), Nat.shiftLeft_eq]
  apply BitVec.eq_of_toNat_eq
  rw [hword, BitVec.toNat_ofNat, Nat.mod_eq_of_lt (by omega)]
  omega

/-! ### The first probe of a symbol -/

theorem decodeLoop_of_raised (hrem : s.remaining ≠ 0) (hr : refill (availBits s) s = .raised f u) :
    decodeLoop (n + 1) s = .raised f u := by
  rw [decodeLoop, if_neg hrem, hr]

/-- On a source that has not the bits of the first probe DecodeOne moves nothing but CUR and LEVEL. -/
theorem decodeOne_of_short_source (hb : Bound s) (hrem : s.remaining ≠ 0)
    (hshort : 8 * s.src.bytes.length < bitpos s + availBits s) :
    decodeOne s = .raised (endFault s.src.ending) (startSymbol s) :=
  decodeLoop_of_raised hrem
    (refill_of_short_source (startSymbol_bound hb) (availBits_le s) (availBits_le_eight s) hshort)

theorem decodeOne_exhausted (hrem : s.remaining = 0) : decodeOne s = .done .ended (startSymbol s) :=
  (decodeLoop_exhausted (s := startSymbol s) hrem _).trans (if_pos rfl)

end

/-! ### Within the source -/

/-- Settles O24: the Refill succeeds, and the low bits of ACC are the next stream bits. -/
theorem readbitsReturnsTheNextStreamBits : Obligations.ReadbitsReturnsTheNextStreamBits := by
  intro s n hs hact hfree h1 h8 hbudget hsource
  have hcan : CanRead n.toNat s := ⟨hact, hfree, hbudget, hsource⟩
  have hb := bound_of_inv hs hact
  obtain ⟨u, hsame, -, -, hexec⟩ := exec_readbits_of_canRead hb hcan h1 h8
  obtain ⟨t, ht⟩ : ∃ t, exec (.readbits n) s = .next t := ⟨_, hexec⟩
  have hread := hasRead_of_canRead hb hcan h1 h8 ht
  rw [hexec] at ht
  refine ⟨t, _, hexec.trans ht, by rw [eq_of_respond ht]; rfl,
    fun i => responseResult_of_respond ht ▸ hread.result_bit i, hread.remaining, hread.bitpos, ?_⟩
  obtain ⟨_, _, _, _, _, rfl⟩ := hsame
  rw [eq_of_respond ht]; rfl

/-- Settles O27: the Refill succeeds, and the lookahead is the next stream bits. -/
theorem peekShowsTheNextStreamBits : Obligations.PeekShowsTheNextStreamBits := by
  intro s hs hact hfree hrem hsource
  have h8 := availBits_le_eight s
  obtain ⟨u, hr, hsame, hb, hacc⟩ := refill_of_source (bound_of_inv hs hact) (availBits_le s) h8 hsource
  have hexec := exec_peek_of_refilled (readerReady_of_unlatched hact hfree) hrem hr
  rw [peekResult_eq h8] at hexec
  refine ⟨_, lookahead (availBits s) u, hexec, rfl, fun i => ?_, (same_bitpos hsame :), ?_⟩
  · rw [lookahead_bit hb hacc h8, same_bytes hsame, same_bitpos hsame]; rfl
  · obtain ⟨_, _, _, _, _, rfl⟩ := hsame
    rfl

/-! ### Past the source, and past the budget -/

theorem readerFaultCode_endFault {code : BitVec 8} {ending : SourceEnd}
    (h : ending = .eos ∧ code = 0x40 ∨ ending = .err ∧ code = 0x41) : readerFaultCode (endFault ending) = code := by
  obtain ⟨rfl, rfl⟩ | ⟨rfl, rfl⟩ := h <;> rfl

/-- Settles O26: the Refill of each command meets the end of the source, with nothing changed. -/
theorem sourceEndingUnderBudgetFaults : Obligations.SourceEndingUnderBudgetFaults := by
  intro s code hs hact hfree hend
  have hcode := readerFaultCode_endFault hend
  have hb := bound_of_inv hs hact
  have hready := readerReady_of_unlatched hact hfree
  refine ⟨fun n h1 h8 hbudget hshort => ?_, fun hrem hshort => ⟨?_, fun hvalid => ?_⟩⟩
  · rw [exec_readbits_of_raised h1 h8 hready hbudget (refill_of_short_source hb hbudget h8 hshort),
      raiseReader_of_unlatched hfree, hcode]
  · rw [exec_peek_of_raised hready hrem (refill_of_short_source hb (availBits_le s) (availBits_le_eight s) hshort),
      raiseReader_of_unlatched hfree, hcode]
  · obtain ⟨hsym, hrun⟩ := exec_decodes_of_raised ((decoderReady_of_valid hvalid).trans hready)
      (decodeOne_of_short_source hb hrem hshort)
    rw [raiseReader_of_unlatched (s := startSymbol s) hfree, hcode] at hsym hrun
    exact ⟨_, hsym, hrun, rfl⟩

/-- Settles O28: every command checks the budget before it looks at ACC. -/
theorem afterTheBudgetIsExhausted : Obligations.AfterTheBudgetIsExhausted := by
  intro s hact hfree hrem
  have hready := readerReady_of_unlatched hact hfree
  refine ⟨exec_peek_exhausted hready hrem, fun hvalid => ?_, fun n h1 h8 => ?_, fun hs => ?_⟩
  · obtain ⟨hsym, hrun⟩ := exec_decodes_of_ended ((decoderReady_of_valid hvalid).trans hready)
      (decodeOne_exhausted hrem)
    exact ⟨_, hsym, hrun, rfl⟩
  · have hover : s.remaining.toNat < n.toNat := by rw [hrem]; exact h1
    exact (readbitsOverBudgetTouchesNothing s n h1 h8 hover).2.2 hact hfree
  · have hpending := (hs.reader.bounds hact).pending_le
    rwa [hrem] at hpending

/-! ### The frame of READBITS and PEEK -/

/-- Two states that agree in everything but the reader's registers, RERR, the source's choices and the response. -/
def SameButReader (s t : State) : Prop :=
  t = { s with acc := t.acc, nacc := t.nacc, remaining := t.remaining, srcpos := t.srcpos, rerr := t.rerr,
               src := { s.src with chunks := t.src.chunks }, draws := t.draws, response := t.response }

section

variable {s u t : State} {n : BitVec 4} {code : BitVec 8} {result : Word56} {f : ReaderFault}

theorem sameButReader_trans (h1 : SameButReader s u) (h2 : SameButReader u t) : SameButReader s t := by
  unfold SameButReader at h1 h2
  rw [h1] at h2
  exact h2

theorem sameButReader_same (h : SameButChunking s u) : SameButReader s u := by
  obtain ⟨_, _, _, _, _, rfl⟩ := h
  rfl

theorem sameButReader_respond (h : respond code result s = .next t) : SameButReader s t := by
  rw [eq_of_respond h]; rfl

theorem sameButReader_raise (h : raiseReader f result s = .next t) : SameButReader s t := by
  refine sameButReader_trans (u := latch f s) ?_ (sameButReader_respond h)
  unfold latch
  split <;> rfl

theorem readbits_sameButReader (h : exec (.readbits n) s = .next t) : SameButReader s t := by
  simp only [exec, execReadbits] at h
  split at h
  next => exact sameButReader_respond h
  next =>
    split at h
    next => exact sameButReader_respond h
    next =>
      split at h
      next => exact sameButReader_raise h
      next =>
        split at h
        next f u hr => exact sameButReader_trans (sameButReader_same (refill_raised_same hr)) (sameButReader_raise h)
        next u hr =>
          have hconsume : SameButReader u (consume n.toNat u) := rfl
          exact sameButReader_trans (sameButReader_same (refill_same hr))
            (sameButReader_trans hconsume (sameButReader_respond h))

/-- PEEK moves what a Refill moves, and latches what the Refill raises. -/
theorem peek_sameButReader (h : exec .peek s = .next t) : SameButReader s t ∧ t.remaining = s.remaining := by
  simp only [exec, execPeek] at h
  split at h
  next => exact ⟨sameButReader_respond h, by rw [eq_of_respond h]⟩
  next =>
    split at h
    next => exact ⟨sameButReader_respond h, by rw [eq_of_respond h]⟩
    next =>
      split at h
      next f u hr =>
        have hsame := refill_raised_same hr
        refine ⟨sameButReader_trans (sameButReader_same hsame) (sameButReader_raise h), ?_⟩
        rw [eq_of_respond h]
        exact (latch_remaining f u).trans (same_remaining hsame)
      next u hr =>
        have hsame := refill_same hr
        refine ⟨sameButReader_trans (sameButReader_same hsame) (sameButReader_respond h), ?_⟩
        rw [eq_of_respond h]
        exact (same_remaining hsame :)

end

/-- Settles O45: CODE and TABLE are among what the reader leaves. -/
theorem readsChangeOnlyTheReader : Obligations.ReadsChangeOnlyTheReader := by
  intro s t n
  refine ⟨fun h => ?_, fun h => (peek_sameButReader h).2⟩
  have hframe : SameButReader s t := h.elim readbits_sameButReader fun hpeek => (peek_sameButReader hpeek).1
  have hkept : TablesKept s t := h.elim readbits_tablesKept peek_tablesKept
  exact ⟨hframe, fun sym => by rw [codeOf, codeOf, hkept.code], fun h i => by rw [hkept.table]⟩

end Sys2Proof.Machine
end

section
/-! SUPPORT, and the proof of O52. Two runs side by side over one source that answers in different chunks: every refill
ends alike, and leaves the same bits at the bottom of ACC (spec/40_bitreader.md R149). -/

namespace Sys2Proof.Machine

open Sys2Proof.Config

/-- Two bound readers that differ at most in the chunking. -/
structure Alike (s t : State) : Prop where
  same : SameButChunking s t
  left : Bound s
  right : Bound t

/-- Two procedures end alike: in the same value or fault, in states that differ at most in the chunking. -/
inductive SameRun {α : Type} : Run α → Run α → Prop where
  | done (a : α) {s t : State} (h : SameButChunking s t) : SameRun (.done a s) (.done a t)
  | raised (f : ReaderFault) {s t : State} (h : SameButChunking s t) : SameRun (.raised f s) (.raised f t)

section

variable {s t u v s' t' : State} {k n : Nat} {f : ReaderFault} {code : BitVec 8} {result : Word56}

/-! ### The shared updates -/

theorem same_consume (n : Nat) (h : SameButChunking s t) : SameButChunking (consume n s) (consume n t) := by
  obtain ⟨_, _, srcpos, chunks, draws, rfl⟩ := h
  exact ⟨_, _, srcpos, chunks, draws, rfl⟩

theorem same_followCont (e : Entry) (h : SameButChunking s t) :
    SameButChunking (followCont e s) (followCont e t) := by
  obtain ⟨_, _, srcpos, chunks, draws, rfl⟩ := h
  exact ⟨_, _, srcpos, chunks, draws, rfl⟩

theorem same_startSymbol (h : SameButChunking s t) : SameButChunking (startSymbol s) (startSymbol t) := by
  obtain ⟨acc, nacc, srcpos, chunks, draws, rfl⟩ := h
  exact ⟨acc, nacc, srcpos, chunks, draws, rfl⟩

theorem same_emit (x : Sym) (h : SameButChunking s t) : SameButChunking (emit x s) (emit x t) := by
  obtain ⟨acc, nacc, srcpos, chunks, draws, rfl⟩ := h
  exact ⟨acc, nacc, srcpos, chunks, draws, rfl⟩

theorem same_respond (h : SameButChunking u v) (hs : respond code result u = .next s')
    (ht : respond code result v = .next t') : SameButChunking s' t' := by
  rw [eq_of_respond hs, eq_of_respond ht]
  obtain ⟨acc, nacc, srcpos, chunks, draws, rfl⟩ := h
  exact ⟨acc, nacc, srcpos, chunks, draws, rfl⟩

theorem same_raise (h : SameButChunking u v) (hs : raiseReader f result u = .next s')
    (ht : raiseReader f result v = .next t') : SameButChunking s' t' := by
  refine same_respond ?_ hs ht
  rw [latch, latch, same_rerr h]
  obtain ⟨acc, nacc, srcpos, chunks, draws, rfl⟩ := h
  split <;> exact ⟨acc, nacc, srcpos, chunks, draws, rfl⟩

theorem readerReady_same (h : SameButChunking s t) : readerReady t = readerReady s := by
  rw [readerReady, readerReady, same_rstate h, same_rerr h]

theorem decoderReady_same (h : SameButChunking s t) : decoderReady t = decoderReady s := by
  rw [decoderReady, decoderReady, same_tstate h, readerReady_same h]

theorem availBits_same (h : SameButChunking s t) : availBits t = availBits s := by
  rw [availBits, availBits, same_remaining h]

/-! ### Refill and the bits it leaves -/

/-- Whether a Refill succeeds does not depend on the chunking (spec/40_bitreader.md R149). -/
theorem refill_alike (h : Alike s t) (hbudget : k ≤ s.remaining.toNat) (h8 : k ≤ 8) :
    (∃ u v, refill k s = .done () u ∧ refill k t = .done () v ∧ Alike u v ∧ k ≤ u.nacc.toNat ∧ k ≤ v.nacc.toNat) ∨
    (∃ f, refill k s = .raised f s ∧ refill k t = .raised f t) := by
  obtain ⟨hsame, hbs, hbt⟩ := h
  have hbudget' : k ≤ t.remaining.toNat := by rwa [same_remaining hsame]
  have ht := refill_by_length hbt hbudget' h8
  rw [same_bitpos hsame, same_bytes hsame, same_ending hsame] at ht
  obtain ⟨hsource, u, hr, hsu, hbu, hu⟩ | ⟨hshort, hr⟩ := refill_by_length hbs hbudget h8
  · obtain ⟨-, v, hr', htv, hbv, hv⟩ := ht.resolve_right fun h => absurd hsource (Nat.not_le.2 h.1)
    have huv := sameButChunking_trans (sameButChunking_symm hsu) (sameButChunking_trans hsame htv)
    exact .inl ⟨u, v, hr, hr', ⟨huv, hbu, hbv⟩, hu, hv⟩
  · exact .inr ⟨_, hr, (ht.resolve_left fun h => absurd h.1 (Nat.not_le.2 hshort)).2⟩

/-- The pending bits are the same stream bits in both. -/
theorem lowBits_acc_alike (h : Alike u v) (hu : k ≤ u.nacc.toNat) (hv : k ≤ v.nacc.toNat) :
    lowBits k v.acc.toNat = lowBits k u.acc.toNat := by
  refine Nat.eq_of_testBit_eq fun i => ?_
  rw [lowBits_acc h.left hu, lowBits_acc h.right hv, same_bytes h.same, same_bitpos h.same]

theorem probe_alike (h : Alike u v) (hu : k ≤ u.nacc.toNat) (hv : k ≤ v.nacc.toNat) : probe k v = probe k u := by
  rw [probe, probe, lookahead, lookahead, lowBits_acc_alike h hu hv, same_table h.same, same_cur h.same]

theorem followCont_alike (e : Entry) (h : Alike u v) (hu : 8 ≤ u.nacc.toNat) (hv : 8 ≤ v.nacc.toNat)
    (hrem : 8 ≤ u.remaining.toNat) : Alike (followCont e u) (followCont e v) :=
  ⟨same_followCont e h.same, followCont_bound h.left hu hrem,
    followCont_bound h.right hv (by rwa [same_remaining h.same])⟩

/-! ### DecodeOne and DEC_RUN -/

/-- The two loops probe the same entries, turn by turn. -/
theorem decodeLoop_alike (h : Alike s t) : SameRun (decodeLoop n s) (decodeLoop n t) := by
  induction n generalizing s t with
  | zero => exact .raised _ h.same
  | succ n ih =>
    by_cases hrem : s.remaining = 0
    · have hrem' : t.remaining = 0 := (same_remaining h.same).trans hrem
      rw [decodeLoop_exhausted hrem, decodeLoop_exhausted hrem', same_level h.same]
      split
      · exact .done _ h.same
      · exact .raised _ h.same
    have hrem' : t.remaining ≠ 0 := by rwa [same_remaining h.same]
    rw [decodeLoop, decodeLoop, if_neg hrem, if_neg hrem', availBits_same h.same]
    obtain ⟨u, v, hs, ht, huv, hu, hv⟩ | ⟨f, hs, ht⟩ := refill_alike h (availBits_le s) (availBits_le_eight s)
    · simp only [hs, ht, probe_alike huv hu hv]
      cases hshort : shortProbeFails (availBits s) (probe (availBits s) u) with
      | true => exact .raised _ huv.same
      | false =>
        cases hk : (probe (availBits s) u).kind with
        | empty => exact .raised _ huv.same
        | symbol => exact .done _ (same_consume _ huv.same)
        | cont =>
          have h8 := cont_probe_full hshort hk
          have hbudget : 8 ≤ u.remaining.toNat := by
            have hsu : u.remaining = s.remaining := same_remaining (refill_same hs)
            rw [hsu]; exact h8.trans (availBits_le s)
          exact ih (followCont_alike _ huv (h8.trans hu) (h8.trans hv) hbudget)
    · rw [hs, ht]
      exact .raised _ h.same

theorem decodeOne_alike (h : Alike s t) : SameRun (decodeOne s) (decodeOne t) := by
  rw [decodeOne, decodeOne, same_remaining h.same]
  exact decodeLoop_alike ⟨same_startSymbol h.same, startSymbol_bound h.left, startSymbol_bound h.right⟩

/-- The two runs of DecodeOne raise the same fault, end the same, or resolve the same symbol. -/
theorem decodeOne_alike_cases (h : Alike s t) :
    (∃ f u v, decodeOne s = .raised f u ∧ decodeOne t = .raised f v ∧ SameButChunking u v) ∨
    (∃ u v, decodeOne s = .done .ended u ∧ decodeOne t = .done .ended v ∧ SameButChunking u v) ∨
    (∃ x u v, decodeOne s = .done (.sym x) u ∧ decodeOne t = .done (.sym x) v ∧ SameButChunking u v) := by
  have hone := decodeOne_alike h
  generalize decodeOne s = r, decodeOne t = r' at hone ⊢
  cases hone with
  | raised f huv => exact .inl ⟨f, _, _, rfl, rfl, huv⟩
  | done d huv =>
    cases d with
    | ended => exact .inr (.inl ⟨_, _, rfl, rfl, huv⟩)
    | sym x => exact .inr (.inr ⟨x, _, _, rfl, rfl, huv⟩)

theorem alike_of_inv (hs : Inv s) (ht : Inv t) (h : SameButChunking s t) (hact : s.rstate = .active) : Alike s t :=
  ⟨h, bound_of_inv hs hact, bound_of_inv ht ((same_rstate h).trans hact)⟩

/-- Symbol by symbol the two runs emit the same. -/
theorem decodeRun_alike {left cnt : Nat} (hs : Inv s) (ht : Inv t) (h : SameButChunking s t)
    (hact : s.rstate = .active) (hrs : decodeRun left cnt s = .next s') (hrt : decodeRun left cnt t = .next t') :
    SameButChunking s' t' := by
  induction left generalizing cnt s t with
  | zero => exact same_respond h hrs hrt
  | succ left ih =>
    have hact' : t.rstate = .active := (same_rstate h).trans hact
    obtain ⟨f, u, v, hds, hdt, huv⟩ | ⟨u, v, hds, hdt, huv⟩ | ⟨x, u, v, hds, hdt, huv⟩ :=
      decodeOne_alike_cases (alike_of_inv hs ht h hact) <;>
      simp only [decodeRun, hds, hdt] at hrs hrt
    · exact same_raise huv hrs hrt
    · exact same_respond huv hrs hrt
    · have hread : SameButReading s u := by simpa [hds, Run.state] using decodeOne_sameButReading s
      exact ih ((emit_decoded_advances hact hds).inv hs) ((emit_decoded_advances hact' hdt).inv ht) (same_emit x huv)
        ((reading_rstate hread).trans hact) hrs hrt

/-! ### The four commands -/

theorem readbits_alike {n : BitVec 4} (hs : Inv s) (ht : Inv t) (h : SameButChunking s t)
    (hes : exec (.readbits n) s = .next s') (het : exec (.readbits n) t = .next t') : SameButChunking s' t' := by
  cases hlegal : widthLegal n with
  | false =>
    rw [exec_readbits_illegal hlegal] at hes het
    exact same_respond h hes het
  | true =>
    obtain ⟨h1, h8⟩ := range_of_widthLegal hlegal
    have hready' := readerReady_same h
    cases hready : readerReady s with
    | some code =>
      rw [exec_readbits_of_not_ready h1 h8 hready] at hes
      rw [exec_readbits_of_not_ready h1 h8 (hready'.trans hready)] at het
      exact same_respond h hes het
    | none =>
      rw [hready] at hready'
      have hrem : t.remaining = s.remaining := same_remaining h
      obtain hover | hbudget := Nat.lt_or_ge s.remaining.toNat n.toNat
      · rw [exec_readbits_over_budget h1 h8 hready hover] at hes
        rw [exec_readbits_over_budget h1 h8 hready' (hrem ▸ hover)] at het
        exact same_raise h hes het
      · obtain ⟨u, v, hrs, hrt, huv, hu, hv⟩ | ⟨f, hrs, hrt⟩ :=
          refill_alike (alike_of_inv hs ht h (active_of_readerReady hready)) hbudget h8
        · rw [exec_readbits_of_refilled h1 h8 hready hbudget hrs] at hes
          rw [exec_readbits_of_refilled h1 h8 hready' (hrem ▸ hbudget) hrt, lowBits_acc_alike huv hu hv] at het
          exact same_respond (same_consume _ huv.same) hes het
        · rw [exec_readbits_of_raised h1 h8 hready hbudget hrs] at hes
          rw [exec_readbits_of_raised h1 h8 hready' (hrem ▸ hbudget) hrt] at het
          exact same_raise h hes het

theorem peek_alike (hs : Inv s) (ht : Inv t) (h : SameButChunking s t) (hes : exec .peek s = .next s')
    (het : exec .peek t = .next t') : SameButChunking s' t' := by
  have hready' := readerReady_same h
  cases hready : readerReady s with
  | some code =>
    rw [exec_peek_of_not_ready hready] at hes
    rw [exec_peek_of_not_ready (hready'.trans hready)] at het
    exact same_respond h hes het
  | none =>
    rw [hready] at hready'
    have hrem' : t.remaining = s.remaining := same_remaining h
    by_cases hrem : s.remaining = 0
    · rw [exec_peek_exhausted hready hrem] at hes
      rw [exec_peek_exhausted hready' (hrem'.trans hrem)] at het
      exact same_respond h hes het
    · obtain ⟨u, v, hrs, hrt, huv, hu, hv⟩ | ⟨f, hrs, hrt⟩ :=
        refill_alike (alike_of_inv hs ht h (active_of_readerReady hready)) (availBits_le s) (availBits_le_eight s)
      · rw [exec_peek_of_refilled hready hrem hrs] at hes
        rw [exec_peek_of_refilled hready' (hrem' ▸ hrem) (availBits_same h ▸ hrt), availBits_same h, lookahead,
          lowBits_acc_alike huv hu hv] at het
        exact same_respond huv.same hes het
      · rw [exec_peek_of_raised hready hrem hrs] at hes
        rw [exec_peek_of_raised hready' (hrem' ▸ hrem) (availBits_same h ▸ hrt)] at het
        exact same_raise h hes het

theorem decRun_alike {quota : Word56} (hs : Inv s) (ht : Inv t) (h : SameButChunking s t)
    (hes : exec (.decRun quota) s = .next s') (het : exec (.decRun quota) t = .next t') : SameButChunking s' t' := by
  have hready' := decoderReady_same h
  cases hready : decoderReady s with
  | some code =>
    rw [exec_decRun_of_not_ready hready] at hes
    rw [exec_decRun_of_not_ready (hready'.trans hready)] at het
    exact same_respond h hes het
  | none =>
    rw [exec_decRun_of_ready hready] at hes
    rw [exec_decRun_of_ready (hready'.trans hready)] at het
    exact decodeRun_alike hs ht h (active_of_decoderReady hready) hes het

theorem decSym_alike (hs : Inv s) (ht : Inv t) (h : SameButChunking s t) (hes : exec .decSym s = .next s')
    (het : exec .decSym t = .next t') : SameButChunking s' t' := by
  have hready' := decoderReady_same h
  cases hready : decoderReady s with
  | some code =>
    rw [exec_decSym_of_not_ready hready] at hes
    rw [exec_decSym_of_not_ready (hready'.trans hready)] at het
    exact same_respond h hes het
  | none =>
    rw [hready] at hready'
    obtain ⟨f, u, v, hds, hdt, huv⟩ | ⟨u, v, hds, hdt, huv⟩ | ⟨x, u, v, hds, hdt, huv⟩ :=
      decodeOne_alike_cases (alike_of_inv hs ht h (active_of_decoderReady hready))
    · rw [(exec_decodes_of_raised hready hds).1] at hes
      rw [(exec_decodes_of_raised hready' hdt).1] at het
      exact same_raise huv hes het
    · rw [(exec_decodes_of_ended hready hds).1] at hes
      rw [(exec_decodes_of_ended hready' hdt).1] at het
      exact same_respond huv hes het
    · rw [exec_decSym_of_sym hready hds] at hes
      rw [exec_decSym_of_sym hready' hdt] at het
      exact same_respond (same_emit x huv) hes het

end

/-- Settles O52: each command ends in states that differ at most in the chunking, and the response is no part of it. -/
theorem responsesIgnoreTheChunking : Obligations.ResponsesIgnoreTheChunking := by
  intro s t s' t' i hs ht h hi hes het
  have hsame : SameButChunking s' t' := by
    obtain ⟨n, rfl⟩ | rfl | rfl | ⟨quota, rfl⟩ := hi
    · exact readbits_alike hs ht h hes het
    · exact peek_alike hs ht h hes het
    · exact decSym_alike hs ht h hes het
    · exact decRun_alike hs ht h hes het
  exact ⟨hsame, (same_response hsame).symm, (same_remaining hsame).symm, (same_outcnt hsame).symm,
    (same_rerr hsame).symm, (same_out hsame).symm⟩

end Sys2Proof.Machine
end

section
/-! SUPPORT, and the proof of O31. What RDBITS_W composes out of READBITS, and the stream of values written least
significant bit first (spec/40_bitreader.md R152, R153, spec/20_memory.md R63). -/

namespace Sys2Proof.Machine

open Sys2Proof.Config

/-! ### Stream bits in pieces -/

theorem streamBits_length (bytes : List Byte) (k n : Nat) : (streamBits bytes k n).length = n := by
  simp [streamBits]

theorem streamBits_add (bytes : List Byte) (k m n : Nat) :
    streamBits bytes k (m + n) = streamBits bytes k m ++ streamBits bytes (k + m) n := by
  simp [streamBits, List.range_add, Nat.add_assoc]

/-- A value stands in the stream where its bits are the stream's. -/
theorem streamBits_eq_valueBits {bytes : List Byte} {k n value : Nat} (h : streamBits bytes k n = valueBits value n)
    {i : Nat} (hi : i < n) : streamBit bytes (k + i) = value.testBit i :=
  List.map_inj_left.1 h i (List.mem_range.2 hi)

/-- The `n` stream bits from position `k` on, laid out from bit `lo` up: bit `i` of the layout. -/
def bitsAt (bytes : List Byte) (k lo n i : Nat) : Bool :=
  decide (lo ≤ i) && (decide (i - lo < n) && streamBit bytes (k + (i - lo)))

/-- The next bits stand above the first ones. -/
theorem bitsAt_add (bytes : List Byte) (k lo m n i : Nat) :
    bitsAt bytes k lo (m + n) i = (bitsAt bytes k lo m i || bitsAt bytes (k + m) (lo + m) n i) := by
  unfold bitsAt
  obtain hbelow | hlo := Nat.lt_or_ge i lo
  · simp [Nat.not_le.2 hbelow, Nat.not_le.2 (Nat.lt_add_right m hbelow)]
  obtain ⟨j, rfl⟩ := Nat.exists_eq_add_of_le hlo
  obtain hlow | hge := Nat.lt_or_ge j m
  · simp [hlow, Nat.lt_add_right n hlow, Nat.not_le.2 hlow]
  · obtain ⟨l, rfl⟩ := Nat.exists_eq_add_of_le hge
    simp [Nat.add_sub_add_left, Nat.add_assoc]

/-! ### RDBITS_W -/

/-- The reader has moved on past the next `n` bits, and is otherwise as it was. -/
structure ReadPast (n : Nat) (s t : State) : Prop where
  inv : Inv t
  remaining : t.remaining.toNat = s.remaining.toNat - n
  bitpos : bitpos t = bitpos s + n
  bytes : t.src.bytes = s.src.bytes
  rstate : t.rstate = s.rstate
  rerr : t.rerr = s.rerr

section

variable {s t u : State} {k l n : Nat}

theorem readPast_refl (hs : Inv s) : ReadPast 0 s s := ⟨hs, rfl, rfl, rfl, rfl, rfl⟩

theorem readPast_trans (h1 : ReadPast k s u) (h2 : ReadPast l u t) : ReadPast (k + l) s t where
  inv := h2.inv
  remaining := by rw [h2.remaining, h1.remaining, Nat.sub_sub]
  bitpos := by rw [h2.bitpos, h1.bitpos, Nat.add_assoc]
  bytes := h2.bytes.trans h1.bytes
  rstate := h2.rstate.trans h1.rstate
  rerr := h2.rerr.trans h1.rerr

theorem readPast_of_hasRead (ht : Inv t) (h : HasRead n s t) : ReadPast n s t :=
  ⟨ht, h.remaining, h.bitpos, h.bytes, h.rstate, h.rerr⟩

/-- What is left of a longer read can be read next. -/
theorem canRead_of_readPast (h : CanRead (k + l) s) (ht : ReadPast k s t) : CanRead l t := by
  obtain ⟨hact, hfree, hbudget, hsource⟩ := h
  refine ⟨ht.rstate.trans hact, ht.rerr.trans hfree, ?_, ?_⟩
  · rw [ht.remaining]; omega
  · rw [ht.bitpos, ht.bytes]; omega

/-- READBITS of 1 to 8 bits that exist, as a command of a host's composition. -/
theorem exec_readbits_chunk (hs : Inv s) (h : CanRead n s) (h1 : 1 ≤ n) (h8 : n ≤ 8) :
    ∃ t, exec (.readbits (BitVec.ofNat 4 n)) s = .next t ∧ responseCode t = okCode ∧ HasRead n s t ∧
      ReadPast n s t := by
  have hn : (BitVec.ofNat 4 n).toNat = n := Nat.mod_eq_of_lt (by omega)
  have hb := bound_of_inv hs h.active
  rw [← hn] at h h1 h8
  obtain ⟨u, -, -, -, hexec⟩ := exec_readbits_of_canRead hb h h1 h8
  obtain ⟨t, ht⟩ : ∃ t, exec (.readbits (BitVec.ofNat 4 n)) s = .next t := ⟨_, hexec⟩
  have hread := hasRead_of_canRead hb h h1 h8 ht
  rw [hn] at hread
  refine ⟨t, ht, ?_, hread, readPast_of_hasRead (exec_inv ht hs) hread⟩
  rw [hexec] at ht
  rw [eq_of_respond ht]
  exact (Laws.EncodeFields.fields_of_append okCode _).1

/-- The loop of RDBITS_W adds the next stream bits above those it has (spec/40_bitreader.md R152). -/
theorem rdbitsLoop_of_canRead {turns left got v : Nat} (hs : Inv s) (h : CanRead left s) (hturns : left < turns) :
    ∃ t w, rdbitsLoop turns left got v s = .next ⟨okCode, w, t⟩ ∧ ReadPast left s t ∧
      ∀ i, w.testBit i = (v.testBit i || bitsAt s.src.bytes (bitpos s) got left i) := by
  induction turns generalizing left got v s with
  | zero => omega
  | succ turns ih =>
    by_cases h0 : left = 0
    · subst h0
      exact ⟨s, v, by rw [rdbitsLoop, if_pos rfl], readPast_refl hs, fun i => by simp [bitsAt]⟩
    · have hsplit : min 8 left + (left - min 8 left) = left := by omega
      obtain ⟨u, hexec, hok, hread, hpast⟩ :=
        exec_readbits_chunk hs (canRead_mono (Nat.min_le_right 8 left) h) (by omega) (Nat.min_le_left 8 left)
      rw [← hsplit] at h
      obtain ⟨t, w, hloop, hrest, hbits⟩ := ih (got := got + min 8 left)
        (v := v ||| ((responseResult u).toNat <<< got)) hpast.inv (canRead_of_readPast h hpast) (by omega)
      refine ⟨t, w, ?_, hsplit ▸ readPast_trans hpast hrest, fun i => ?_⟩
      · rw [rdbitsLoop, if_neg h0, hexec]
        simp only [hok, ne_eq, not_true_eq_false, if_false]
        exact hloop
      · have hshift : ((responseResult u).toNat <<< got).testBit i
            = bitsAt s.src.bytes (bitpos s) got (min 8 left) i := by
          rw [Nat.testBit_shiftLeft, BitVec.testBit_toNat, hread.result_bit, bitsAt]
        rw [hbits, Nat.testBit_or, hshift, hpast.bytes, hpast.bitpos, Bool.or_assoc, ← bitsAt_add, hsplit]

/-- RDBITS_W reads back a value that stands next in the stream (spec/40_bitreader.md R153). -/
theorem rdbitsW_of_valueBits {value : Nat} (hs : Inv s) (h : CanRead n s) (hvalue : value < 2 ^ n)
    (hbits : streamBits s.src.bytes (bitpos s) n = valueBits value n) :
    ∃ t, rdbitsW n s = .next ⟨okCode, value, t⟩ ∧ ReadPast n s t := by
  obtain ⟨t, w, hloop, hpast, hw⟩ := rdbitsLoop_of_canRead (got := 0) (v := 0) hs h (Nat.lt_succ_self n)
  suffices hvw : w = value from ⟨t, hvw ▸ hloop, hpast⟩
  refine Nat.eq_of_testBit_eq fun i => ?_
  obtain hi | hi := Nat.lt_or_ge i n
  · simp [hw, bitsAt, hi, ← streamBits_eq_valueBits hbits hi]
  · have hzero : value.testBit i = false :=
      Nat.testBit_lt_two_pow (hvalue.trans_le (Nat.pow_le_pow_right (by decide) hi))
    simp [hw, bitsAt, hzero, Nat.not_lt.2 hi]

/-- RDBITS_W of each width reads back the values that make up the next `n` stream bits, and leaves just those behind. -/
theorem rdbitsAll_of_valueBits {pairs : List (Nat × Nat)} (hs : Inv s) (h : CanRead n s)
    (hvalues : ∀ p ∈ pairs, p.1 < 2 ^ p.2)
    (hbits : streamBits s.src.bytes (bitpos s) n = (pairs.map fun p => valueBits p.1 p.2).flatten) :
    ∃ t, rdbitsAll (pairs.map fun p => p.2) s = .next (pairs.map fun p => (0x00, p.1), t) ∧ ReadPast n s t := by
  induction pairs generalizing s n with
  | nil =>
    have hn : n = 0 := by simpa [streamBits] using hbits
    exact ⟨s, rfl, hn ▸ readPast_refl hs⟩
  | cons p pairs ih =>
    rw [List.forall_mem_cons] at hvalues
    rw [List.map_cons, List.flatten_cons] at hbits
    have hlen : n = p.2 + (pairs.map fun p => valueBits p.1 p.2).flatten.length := by
      have hlength := congrArg List.length hbits
      rwa [streamBits_length, List.length_append, valueBits, List.length_map, List.length_range] at hlength
    rw [hlen] at h hbits ⊢
    rw [streamBits_add] at hbits
    obtain ⟨hfirst, hrest⟩ := List.append_inj hbits (by simp [streamBits, valueBits])
    obtain ⟨u, hone, hpast⟩ := rdbitsW_of_valueBits hs (canRead_mono (Nat.le_add_right _ _) h) hvalues.1 hfirst
    rw [← hpast.bytes, ← hpast.bitpos] at hrest
    obtain ⟨t, hall, htail⟩ := ih hpast.inv (canRead_of_readPast h hpast) hvalues.2 hrest
    refine ⟨t, ?_, readPast_trans hpast htail⟩
    simp only [List.map_cons, rdbitsAll, hone, hall]
    rfl

end

/-- Settles O31: value by value, and then the budget is used up. -/
theorem writtenValuesReadBack : Obligations.WrittenValuesReadBack := by
  intro s pairs hs hact hfree hvalues hbits hsource
  have hle := (hs.reader.bounds hact).remaining_le
  have hcan : CanRead s.remaining.toNat s := ⟨hact, hfree, le_rfl, by unfold bitpos; omega⟩
  obtain ⟨t, hall, hpast⟩ := rdbitsAll_of_valueBits hs hcan (fun p hp => (hvalues p hp).2.2) hbits
  have hrem : t.remaining = 0 := BitVec.eq_of_toNat_eq (hpast.remaining.trans (Nat.sub_self _))
  have hact' : t.rstate = .active := hpast.rstate.trans hact
  have hfree' : t.rerr = 0 := hpast.rerr.trans hfree
  exact ⟨t, hall, hrem, hfree', (afterTheBudgetIsExhausted t hact' hfree' hrem).2.2.1⟩

end Sys2Proof.Machine
end

section
/-! SUPPORT. The bit-by-bit walk of spec/42_decode.md R211 against one probe of the table of a Code: where the walk goes
over the bits that index a slot, the entry in that slot says (spec/41_table_build.md R179). -/

namespace Sys2Proof.Machine

open Sys2Proof.Config

/-! ### The walk over a run of bits -/

/-- The value the walk has after more bits, from the value `w` it had (spec/42_decode.md R211). -/
def afterBits (w : Nat) (bs : List Bool) : Nat := bs.foldl (fun w b => 2 * w + b.toNat) w

section

variable {code : Nat → CodeEntry} {nsym w l x : Nat} {bs rest : List Bool}

/-- No code ends within the given bits, taken after the `l` bits with value `w`. -/
def NoneEndsIn (code : Nat → CodeEntry) (nsym w l : Nat) (bs : List Bool) : Prop :=
  ∀ j, 1 ≤ j → j ≤ bs.length → symbolWith code nsym (afterBits w (bs.take j)) (l + j) = none

theorem noneEndsIn_cons {b : Bool} :
    NoneEndsIn code nsym w l (b :: bs) ↔
      symbolWith code nsym (2 * w + b.toNat) (l + 1) = none ∧ NoneEndsIn code nsym (2 * w + b.toNat) (l + 1) bs := by
  constructor
  · intro h
    refine ⟨h 1 le_rfl (by simp), fun j h1 hj => ?_⟩
    rw [Nat.add_assoc, Nat.add_comm 1 j]
    exact h (j + 1) (by omega) (by simpa using hj)
  · rintro ⟨hfirst, hrest⟩ j h1 hj
    obtain ⟨j, rfl⟩ := Nat.exists_eq_add_of_le' h1
    cases j with
    | zero => exact hfirst
    | succ j =>
      rw [show l + (j + 1 + 1) = l + 1 + (j + 1) by omega]
      exact hrest (j + 1) (by omega) (by simpa using hj)

/-- Everything the walk can do over a run of bits: no code ends in it and some code goes on past it; a code ends in it;
or at some bit no code goes on and none has ended (spec/42_decode.md R211). -/
theorem walkFrom_append_cases (code : Nat → CodeEntry) (nsym w l : Nat) (bs rest : List Bool) :
    (NoneEndsIn code nsym w l bs ∧ (bs ≠ [] → someCodeStarts code nsym (afterBits w bs) (l + bs.length) = true) ∧
      walkFrom code nsym (bs ++ rest) w l = walkFrom code nsym rest (afterBits w bs) (l + bs.length)) ∨
    (∃ j x, 1 ≤ j ∧ j ≤ bs.length ∧ symbolWith code nsym (afterBits w (bs.take j)) (l + j) = some x ∧
      walkFrom code nsym (bs ++ rest) w l = .sym x (l + j)) ∨
    (∃ j, 1 ≤ j ∧ j ≤ bs.length ∧ NoneEndsIn code nsym w l (bs.take j) ∧
      someCodeStarts code nsym (afterBits w (bs.take j)) (l + j) = false ∧
      walkFrom code nsym (bs ++ rest) w l = .invalidCode (l + j)) := by
  induction bs generalizing w l with
  | nil => exact .inl ⟨fun j h1 hj => absurd (h1.trans hj) (by simp), fun h => absurd rfl h, rfl⟩
  | cons b bs ih =>
    have hlen : ∀ j, l + 1 + j = l + (j + 1) := fun j => by omega
    rw [List.cons_append, walkFrom]
    cases hsym : symbolWith code nsym (2 * w + b.toNat) (l + 1) with
    | some x => exact .inr (.inl ⟨1, x, le_rfl, by simp, hsym, rfl⟩)
    | none =>
      cases hstarts : someCodeStarts code nsym (2 * w + b.toNat) (l + 1) with
      | false =>
        refine .inr (.inr ⟨1, le_rfl, by simp, noneEndsIn_cons.2 ⟨hsym, ?_⟩, hstarts, rfl⟩)
        exact fun j h1 hj => absurd (h1.trans hj) (by simp)
      | true =>
        simp only [if_true]
        obtain ⟨hnone, hgo, hwalk⟩ | ⟨j, x, h1, hj, hend, hwalk⟩ | ⟨j, h1, hj, hnone, hdead, hwalk⟩ :=
          ih (w := 2 * w + b.toNat) (l := l + 1)
        · refine .inl ⟨noneEndsIn_cons.2 ⟨hsym, hnone⟩, fun _ => ?_, by rw [hwalk, hlen]; rfl⟩
          by_cases hbs : bs = []
          · subst hbs; exact hstarts
          · rw [List.length_cons, ← hlen]; exact hgo hbs
        · exact .inr (.inl ⟨j + 1, x, by omega, by simpa using hj, by rw [← hlen]; exact hend, by rw [hwalk, hlen]⟩)
        · refine .inr (.inr ⟨j + 1, by omega, by simpa using hj, ?_, by rw [← hlen]; exact hdead, by rw [hwalk, hlen]⟩)
          rw [List.take_succ_cons]
          exact noneEndsIn_cons.2 ⟨hsym, hnone⟩

/-! ### Codes that start with a value -/

theorem someCodeStarts_iff :
    someCodeStarts code nsym w l = true ↔
      ∃ x, x < nsym ∧ l ≤ (code x).len.toNat ∧ (code x).value.toNat >>> ((code x).len.toNat - l) = w := by
  simp [someCodeStarts]

theorem symbolWith_some (h : symbolWith code nsym w l = some x) :
    x < nsym ∧ (code x).len.toNat = l ∧ (code x).value.toNat = w := by
  refine ⟨List.mem_range.1 (List.mem_of_find?_eq_some h), ?_⟩
  simpa using List.find?_some h

theorem symbolWith_ne_none (hx : x < nsym) (hlen : (code x).len.toNat = l) (hvalue : (code x).value.toNat = w) :
    symbolWith code nsym w l ≠ none := by
  intro h
  simpa [hlen, hvalue] using List.find?_eq_none.1 h x (List.mem_range.2 hx)

end

/-! ### The chunks of a value -/

section

variable {c : CodeEntry} {k v v' : Nat}

theorem chunksFrom_length (v k rem : Nat) : (chunksFrom v k rem).length = k := by simp [chunksFrom]

/-- The last chunk is the low 8 bits. -/
theorem chunksFrom_snoc (v k : Nat) :
    chunksFrom v (k + 1) (8 * (k + 1)) = chunksFrom (v >>> 8) k (8 * k) ++ [v % 256] := by
  rw [chunksFrom, List.range_succ, List.map_append]
  congr 1
  · refine List.map_congr_left fun j hj => ?_
    have hj := List.mem_range.1 hj
    rw [chunk, chunk, ← Nat.shiftRight_add]
    congr 2; omega
  · simp [chunk, lowBits, show 8 * (k + 1) - 8 * k - 8 = 0 by omega]

/-- Whole chunks tell their value. -/
theorem eq_of_chunksFrom_eq (hv : v < 2 ^ (8 * k)) (hv' : v' < 2 ^ (8 * k))
    (h : chunksFrom v k (8 * k) = chunksFrom v' k (8 * k)) : v = v' := by
  induction k generalizing v v' with
  | zero => exact (Nat.lt_one_iff.1 hv).trans (Nat.lt_one_iff.1 hv').symm
  | succ k ih =>
    rw [chunksFrom_snoc, chunksFrom_snoc] at h
    obtain ⟨hhigh, hlow⟩ := List.append_inj' h rfl
    have hpow : 2 ^ (8 * (k + 1)) = 2 ^ (8 * k) * 256 := by rw [Nat.mul_succ, pow_add]; rfl
    have hhigh := ih (by rw [Nat.shiftRight_eq_div_pow]; omega) (by rw [Nat.shiftRight_eq_div_pow]; omega) hhigh
    rw [Nat.shiftRight_eq_div_pow, Nat.shiftRight_eq_div_pow] at hhigh
    simp only [List.cons.injEq, and_true] at hlow
    omega

/-- The first chunks of a code are the chunks of its first bits. -/
theorem codeChunks_take_eq_chunksFrom (hk : k ≤ chunksBefore c.len.toNat) :
    (codeChunks c).take k = chunksFrom (c.value.toNat >>> (c.len.toNat - 8 * k)) k (8 * k) := by
  rw [codeChunks, ← List.map_take, List.take_range, min_eq_left hk, chunksFrom]
  refine List.map_congr_left fun j hj => ?_
  have hj := List.mem_range.1 hj
  have hlen : 8 * k ≤ c.len.toNat := by unfold chunksBefore at hk; omega
  rw [chunk, chunk, ← Nat.shiftRight_add]
  congr 2; omega

/-- A code that goes through the chunks of a value has that value as its first bits. -/
theorem shiftRight_of_chunks_prefix (hc : codeEntryLegal c) (hv : v < 2 ^ (8 * k))
    (hpre : chunksFrom v k (8 * k) <+: codeChunks c) :
    k ≤ chunksBefore c.len.toNat ∧ c.value.toNat >>> (c.len.toNat - 8 * k) = v := by
  have hk : k ≤ chunksBefore c.len.toNat := by simpa [chunksFrom, codeChunks] using hpre.length_le
  refine ⟨hk, eq_of_chunksFrom_eq ?_ hv ?_⟩
  · have hlen : 8 * k ≤ c.len.toNat := by unfold chunksBefore at hk; omega
    rw [Nat.shiftRight_eq_div_pow, Nat.div_lt_iff_lt_mul (by positivity), ← pow_add, Nat.add_sub_cancel' hlen]
    exact hc.2
  · rw [← codeChunks_take_eq_chunksFrom hk]
    conv_rhs => rw [List.prefix_iff_eq_take.1 hpre, chunksFrom_length]

end

/-! ### The value at a slot -/

/-- The value of the bits walked to a table, `w`, and the first `j` bits that index its slot `i`
(spec/30_encoding.md R118). -/
def slotValue (w i j : Nat) : Nat := w * 2 ^ j + i >>> (8 - j)

section

variable {code : Nat → CodeEntry} {nsym w k h i j r x : Nat} {t : Memory Entry}

theorem slotValue_zero (hi : i < tableSize) : slotValue w i 0 = w := by
  rw [slotValue, Nat.shiftRight_eq_div_pow, Nat.div_eq_of_lt hi]; simp

theorem slotValue_shiftRight (hjr : j ≤ r) (hr : r ≤ 8) : slotValue w i r >>> (r - j) = slotValue w i j := by
  have hpow : 2 ^ r = 2 ^ j * 2 ^ (r - j) := by rw [← pow_add, Nat.add_sub_cancel' hjr]
  rw [slotValue, slotValue, hpow, ← Nat.mul_assoc, Nat.shiftRight_eq_div_pow, Nat.add_comm,
    Nat.add_mul_div_right _ _ (by positivity), Nat.add_comm, ← Nat.shiftRight_eq_div_pow, ← Nat.shiftRight_add]
  congr 2; omega

theorem slotValue_high (hi : i < tableSize) (hj : j ≤ 8) : slotValue w i j >>> j = w :=
  (slotValue_shiftRight (Nat.zero_le j) hj).trans (slotValue_zero hi)

theorem slotValue_lowBits (hi : i < tableSize) (hj : j ≤ 8) : lowBits j (slotValue w i j) = i >>> (8 - j) := by
  have hlt : i >>> (8 - j) < 2 ^ j := by
    rw [Nat.shiftRight_eq_div_pow, Nat.div_lt_iff_lt_mul (by positivity), ← pow_add, Nat.add_sub_cancel' hj]
    exact hi
  rw [lowBits, slotValue, Nat.mul_add_mod', Nat.mod_eq_of_lt hlt]

theorem chunksFrom_slotValue (hi : i < tableSize) :
    chunksFrom (slotValue w i 8) (k + 1) (8 * (k + 1)) = chunksFrom w k (8 * k) ++ [i] := by
  have hlow : slotValue w i 8 % 256 = i := slotValue_lowBits hi le_rfl
  rw [chunksFrom_snoc, hlow, slotValue_high hi le_rfl]

theorem slotValue_lt (hw : w < 2 ^ (8 * k)) (hi : i < tableSize) : slotValue w i 8 < 2 ^ (8 * (k + 1)) := by
  rw [slotValue, Nat.mul_succ, pow_add]
  simp only [tableSize] at hi
  simp
  omega

/-- A value that some code starts with stays one as bits are taken off its end. -/
theorem someCodeStarts_slotValue (hjr : j ≤ r) (hr : r ≤ 8)
    (hs : someCodeStarts code nsym (slotValue w i r) (8 * k + r) = true) :
    someCodeStarts code nsym (slotValue w i j) (8 * k + j) = true := by
  obtain ⟨x, hx, hlen, hvalue⟩ := someCodeStarts_iff.1 hs
  refine someCodeStarts_iff.2 ⟨x, hx, by omega, ?_⟩
  rw [← slotValue_shiftRight hjr hr, ← hvalue, ← Nat.shiftRight_add]
  congr 1; omega

/-! ### The entry at a slot -/

/-- Where a code ends within the bits of the slot, the entry is its SYMBOL entry. -/
theorem entry_of_symbolWith (ht : TableOfCode code nsym t) (hp : tableAt t (chunksFrom w k (8 * k)) = some h)
    (hi : i < tableSize) (h1 : 1 ≤ j) (h8 : j ≤ 8) (hs : symbolWith code nsym (slotValue w i j) (8 * k + j) = some x) :
    x < nsym ∧ tableRead t h i = symbolEntry j x := by
  obtain ⟨hx, hlen, hvalue⟩ := symbolWith_some hs
  have hk : chunksBefore (code x).len.toNat = k := by rw [hlen]; unfold chunksBefore; omega
  have hlast : lastBits (code x) = j := by rw [lastBits, hk, hlen]; omega
  have hused : (code x).len ≠ 0 := fun h0 => by rw [h0] at hlen; simp at hlen; omega
  have hchunks : codeChunks (code x) = chunksFrom w k (8 * k) := by
    rw [← List.take_of_length_le (l := codeChunks (code x)) (i := k) (by simp [codeChunks, hk]),
      codeChunks_take_eq_chunksFrom hk.ge, hlen, hvalue, Nat.add_sub_cancel_left, slotValue_high hi h8]
  have hfill : fillsSlot (code x) i := by rw [fillsSlot, hlast, hvalue, slotValue_lowBits hi h8]
  have hentry := ht.resolves x i hx hused hi hfill
  rw [hchunks, hlast] at hentry
  obtain ⟨h', hp', hread⟩ := (entryAt_eq_some (tableAt_slots_lt hp)).1 hentry
  rw [hp, Option.some_inj] at hp'
  exact ⟨hx, hp' ▸ hread⟩

/-- A SYMBOL entry is of a code that ends within the bits of the slot. -/
theorem symbolWith_of_entry (ht : TableOfCode code nsym t) (hlegal : ∀ x, codeEntryLegal (code x))
    (hp : tableAt t (chunksFrom w k (8 * k)) = some h) (hw : w < 2 ^ (8 * k)) (hi : i < tableSize)
    (hk : (tableRead t h i).kind = .symbol) :
    ∃ r, 1 ≤ r ∧ r ≤ 8 ∧ symbolWith code nsym (slotValue w i r) (8 * k + r) ≠ none ∧
      someCodeStarts code nsym (slotValue w i r) (8 * k + r) = true := by
  have hslots := tableAt_slots_lt hp
  obtain ⟨x, hx, hused, hchunks, hfill, -⟩ :=
    ht.symbolOnly _ i _ hslots hi ((entryAt_eq_some hslots).2 ⟨h, hp, rfl⟩) hk
  obtain ⟨h1, h8⟩ := lastBits_range hused
  have hbefore : chunksBefore (code x).len.toNat = k := by
    simpa [chunksFrom, codeChunks] using congrArg List.length hchunks
  have hlen : (code x).len.toNat = 8 * k + lastBits (code x) := by rw [lastBits, hbefore] at h1 ⊢; omega
  have hhigh := (shiftRight_of_chunks_prefix (hlegal x) hw (hchunks ▸ List.prefix_rfl)).2
  have hvalue : (code x).value.toNat = slotValue w i (lastBits (code x)) := by
    rw [hlen, Nat.add_sub_cancel_left, Nat.shiftRight_eq_div_pow] at hhigh
    rw [slotValue, hfill, lowBits, ← hhigh, Nat.div_add_mod']
  exact ⟨lastBits (code x), h1, h8, symbolWith_ne_none hx hlen hvalue,
    someCodeStarts_iff.2 ⟨x, hx, hlen.ge, by rw [hlen, Nat.sub_self]; exact hvalue⟩⟩

/-- Where no code ends with the last bit of the slot but one goes on past it, the entry is a CONT entry. -/
theorem cont_of_someCodeStarts (ht : TableOfCode code nsym t) (hp : tableAt t (chunksFrom w k (8 * k)) = some h)
    (hi : i < tableSize) (hnone : symbolWith code nsym (slotValue w i 8) (8 * k + 8) = none)
    (hs : someCodeStarts code nsym (slotValue w i 8) (8 * k + 8) = true) : (tableRead t h i).kind = .cont := by
  obtain ⟨x, hx, hlen, hvalue⟩ := someCodeStarts_iff.1 hs
  have hlonger : (code x).len.toNat ≠ 8 * k + 8 := fun heq =>
    symbolWith_ne_none hx heq (by rwa [heq, Nat.sub_self] at hvalue) hnone
  have hbefore : k + 1 ≤ chunksBefore (code x).len.toNat := by unfold chunksBefore; omega
  have hused : (code x).len ≠ 0 := fun h0 => by rw [h0] at hlen; simp at hlen
  have htake := codeChunks_take_eq_chunksFrom hbefore
  rw [Nat.mul_succ, hvalue, ← Nat.mul_succ, chunksFrom_slotValue hi] at htake
  obtain ⟨e, hentry, hk⟩ := ht.contMade x _ hx hused (by simp) (htake ▸ List.take_prefix _ _)
  obtain ⟨h', hp', rfl⟩ := (entryAt_eq_some (tableAt_slots_lt hp)).1 hentry
  rw [hp, Option.some_inj] at hp'
  exact hp' ▸ hk

/-- A CONT entry is of a code that goes on past the bits of the slot. -/
theorem someCodeStarts_of_cont (ht : TableOfCode code nsym t) (hlegal : ∀ x, codeEntryLegal (code x))
    (hp : tableAt t (chunksFrom w k (8 * k)) = some h) (hw : w < 2 ^ (8 * k)) (hi : i < tableSize)
    (hk : (tableRead t h i).kind = .cont) : someCodeStarts code nsym (slotValue w i 8) (8 * k + 8) = true := by
  have hslots := tableAt_slots_lt hp
  obtain ⟨x, hx, -, hpre⟩ := ht.contOnly _ i _ hslots hi ((entryAt_eq_some hslots).2 ⟨h, hp, rfl⟩) hk
  rw [← chunksFrom_slotValue hi] at hpre
  obtain ⟨hbefore, hvalue⟩ := shiftRight_of_chunks_prefix (hlegal x) (slotValue_lt hw hi) hpre
  exact someCodeStarts_iff.2 ⟨x, hx, by unfold chunksBefore at hbefore; omega, hvalue⟩

/-- Where no code ends or goes on at some bit of the slot, the entry is EMPTY. -/
theorem empty_of_dead_end (ht : TableOfCode code nsym t) (hlegal : ∀ x, codeEntryLegal (code x))
    (hp : tableAt t (chunksFrom w k (8 * k)) = some h) (hw : w < 2 ^ (8 * k)) (hi : i < tableSize) (h8 : j ≤ 8)
    (hnone : ∀ r, 1 ≤ r → r ≤ j → symbolWith code nsym (slotValue w i r) (8 * k + r) = none)
    (hdead : someCodeStarts code nsym (slotValue w i j) (8 * k + j) = false) : (tableRead t h i).kind = .empty := by
  cases hk : (tableRead t h i).kind with
  | empty => rfl
  | cont =>
    rw [someCodeStarts_slotValue h8 le_rfl (someCodeStarts_of_cont ht hlegal hp hw hi hk)] at hdead
    cases hdead
  | symbol =>
    obtain ⟨r, h1, hr8, hends, hstarts⟩ := symbolWith_of_entry ht hlegal hp hw hi hk
    obtain hrj | hjr := Nat.le_total r j
    · exact absurd (hnone r h1 hrj) hends
    · rw [someCodeStarts_slotValue hjr hr8 hstarts] at hdead
      cases hdead

/-- One probe of 8 bits is the walk over them: the SYMBOL entry of the code that ends in them, a CONT entry where the
walk goes on past them, and EMPTY where it meets its dead end in them (spec/42_decode.md R203, R211). -/
theorem probe_cases (ht : TableOfCode code nsym t) (hlegal : ∀ x, codeEntryLegal (code x))
    (hp : tableAt t (chunksFrom w k (8 * k)) = some h) (hw : w < 2 ^ (8 * k)) (hi : i < tableSize)
    {bs : List Bool} (hlen : bs.length = 8) (hbits : ∀ j, j ≤ 8 → afterBits w (bs.take j) = slotValue w i j)
    (rest : List Bool) :
    ((tableRead t h i).kind = .cont ∧
      walkFrom code nsym (bs ++ rest) w (8 * k) = walkFrom code nsym rest (slotValue w i 8) (8 * (k + 1))) ∨
    (∃ j x, 1 ≤ j ∧ j ≤ 8 ∧ x < nsym ∧ tableRead t h i = symbolEntry j x ∧
      walkFrom code nsym (bs ++ rest) w (8 * k) = .sym x (8 * k + j)) ∨
    ((tableRead t h i).kind = .empty ∧
      ∃ j, 1 ≤ j ∧ j ≤ 8 ∧ walkFrom code nsym (bs ++ rest) w (8 * k) = .invalidCode (8 * k + j)) := by
  have hall : afterBits w bs = slotValue w i 8 := by rw [← hbits 8 le_rfl, List.take_of_length_le hlen.le]
  obtain ⟨hnone, hgo, hwalk⟩ | ⟨j, x, h1, hj, hsym, hwalk⟩ | ⟨j, h1, hj, hnone, hdead, hwalk⟩ :=
    walkFrom_append_cases code nsym w (8 * k) bs rest
  · have hlast := hnone 8 (by decide) hlen.ge
    have hgo := hgo (by rintro rfl; cases hlen)
    rw [hbits 8 le_rfl] at hlast
    rw [hall, hlen] at hgo hwalk
    exact .inl ⟨cont_of_someCodeStarts ht hp hi hlast hgo, hwalk⟩
  · rw [hlen] at hj
    rw [hbits j hj] at hsym
    obtain ⟨hx, hentry⟩ := entry_of_symbolWith ht hp hi h1 hj hsym
    exact .inr (.inl ⟨j, x, h1, hj, hx, hentry, hwalk⟩)
  · rw [hlen] at hj
    rw [hbits j hj] at hdead
    refine .inr (.inr ⟨empty_of_dead_end ht hlegal hp hw hi hj (fun r hr1 hrj => ?_) hdead, j, h1, hj, hwalk⟩)
    have hr := hnone r hr1 (by rw [List.length_take, hlen]; omega)
    rwa [List.take_take, min_eq_left hrj, hbits r (hrj.trans hj)] at hr

end

end Sys2Proof.Machine
end

section
/-! SUPPORT, and the proof of O56. The loop of DecodeOne, probe by probe, against the bit-by-bit walk over the stream
(spec/42_decode.md R203, R211), on a source shorter than its budget. -/

namespace Sys2Proof.Machine

open Sys2Proof.Config

/-! ### The slot of a probe -/

section

variable {bytes : List Byte} {pos avail w i j : Nat} {p : BitVec 8}

theorem rev8_bit (p : BitVec 8) (hj : j < 8) : (rev8 p).getLsbD (7 - j) = p.getLsbD j := by
  interval_cases j <;> simp only [rev8, BitVec.getLsbD_append, BitVec.getLsbD_extractLsb'] <;> simp

theorem slotValue_succ (hj : j < 8) : slotValue w i (j + 1) = 2 * slotValue w i j + (i.testBit (7 - j)).toNat := by
  have hbit : i >>> (7 - j) = 2 * i >>> (8 - j) + (i.testBit (7 - j)).toNat := by
    rw [Nat.toNat_testBit, show 8 - j = 7 - j + 1 by omega, Nat.shiftRight_succ, ← Nat.shiftRight_eq_div_pow,
      Nat.div_add_mod]
  rw [slotValue, slotValue, show 8 - (j + 1) = 7 - j by omega, hbit]
  ring

theorem streamBits_take (h : j ≤ avail) : (streamBits bytes pos avail).take j = streamBits bytes pos j := by
  rw [streamBits, ← List.map_take, List.take_range, min_eq_left h, streamBits]

/-- The stream bits of a probe, taken one by one, are the bits of its slot from the top (spec/30_encoding.md R118). -/
theorem afterBits_streamBits (h8 : avail ≤ 8) (hp : ∀ i, i < avail → p.getLsbD i = streamBit bytes (pos + i))
    (hj : j ≤ avail) : afterBits w (streamBits bytes pos j) = slotValue w (rev8 p).toNat j := by
  induction j with
  | zero => rw [slotValue_zero (rev8 p).isLt]; rfl
  | succ j ih =>
    have hbit : (rev8 p).toNat.testBit (7 - j) = streamBit bytes (pos + j) := by
      rw [BitVec.testBit_toNat, rev8_bit p (by omega), hp j hj]
    rw [slotValue_succ (by omega), hbit, ← ih (by omega), streamBits_add, afterBits, List.foldl_append]
    rfl

end

/-! ### One probe of 8 bits -/

/-- The walk over the next `m` stream bits, from the `l` bits with value `w` already taken. -/
def walkAhead (s : State) (m w l : Nat) : Walked :=
  walkFrom (codeOf s) s.nsym.toNat (streamBits s.src.bytes (bitpos s) m) w l

/-- The decoder has come to the table CUR by `k` probes of 8 bits, whose bits have the value `w`. -/
structure Walking (s : State) (w k : Nat) : Prop where
  bound : Bound s
  onTable : OnItsTable s
  legal : ∀ x, codeEntryLegal (codeOf s x)
  reached : tableAt s.table (chunksFrom w k (8 * k)) = some s.cur.toNat
  value_lt : w < 2 ^ (8 * k)

section

variable {s t u : State} {n m w k l : Nat} {e : Entry}

theorem codeOf_legal (h : CodeInv s) (x : Nat) : codeEntryLegal (codeOf s x) := by
  obtain he | he := read_listed_or_default (d := CodeEntry.unused) s.code x
  · rw [codeOf, codeRead, he]; exact ⟨by decide, by decide⟩
  · exact h.legal _ he

theorem codeOf_kept (h : TablesKept s u) : codeOf u = codeOf s := by
  unfold codeOf; rw [h.code]

theorem walkAhead_same (h : SameButChunking s u) : walkAhead u m w l = walkAhead s m w l := by
  rw [walkAhead, walkAhead, codeOf_kept (tablesKept_same h), same_nsym h, same_bytes h, same_bitpos h]

theorem walking_start (hs : Inv s) (hvalid : s.tstate = .valid) (hmatch : TableMatchesCode s)
    (hact : s.rstate = .active) : Walking (startSymbol s) 0 0 where
  bound := startSymbol_bound (bound_of_inv hs hact)
  onTable := onItsTable_kept (tablesKept_reading (startSymbol_sameButReading s)) (onItsTable_of_inv hs hmatch hvalid)
  legal := (codeOf_legal hs.code :)
  reached := tableAt_nil _
  value_lt := by decide

theorem walking_same (h : SameButChunking s u) (hb : Bound u) (hs : Walking s w k) : Walking u w k where
  bound := hb
  onTable := onItsTable_kept (tablesKept_same h) hs.onTable
  legal := by rw [codeOf_kept (tablesKept_same h)]; exact hs.legal
  reached := by rw [same_table h, same_cur h]; exact hs.reached
  value_lt := hs.value_lt

/-- A continuation leads one probe further (spec/42_decode.md R204). -/
theorem walking_followCont {i : Nat} (hs : Walking s w k) (hacc : 8 ≤ s.nacc.toNat) (hrem : 8 ≤ s.remaining.toNat)
    (hi : i < tableSize) (hk : (tableRead s.table s.cur.toNat i).kind = .cont) :
    Walking (followCont (tableRead s.table s.cur.toNat i) s) (slotValue w i 8) (k + 1) where
  bound := followCont_bound hs.bound hacc hrem
  onTable := onItsTable_kept (tablesKept_reading (followCont_sameButReading _ s)) hs.onTable
  legal := hs.legal
  reached := by
    rw [chunksFrom_slotValue hi]
    exact followCont_reached hs.onTable hs.reached hi hk
  value_lt := slotValue_lt hs.value_lt hi

/-- One turn of the loop with a lookahead of 8 bits acts on the kind of the entry alone (spec/42_decode.md R203,
R207). -/
theorem decodeLoop_of_refilled (hbudget : 8 ≤ s.remaining.toNat) (hr : refill 8 s = .done () u) (n : Nat) :
    ((probe 8 u).kind = .cont → decodeLoop (n + 1) s = decodeLoop n (followCont (probe 8 u) u)) ∧
    ((probe 8 u).kind = .symbol →
      decodeLoop (n + 1) s = .done (.sym (probe 8 u).payload) (consume (probe 8 u).len.toNat u)) ∧
    ((probe 8 u).kind = .empty → decodeLoop (n + 1) s = .raised .invalidCode u) := by
  have hne : s.remaining ≠ 0 := fun h0 => by rw [h0] at hbudget; cases hbudget
  have havail : availBits s = 8 := min_eq_left hbudget
  rw [decodeLoop, if_neg hne, havail, hr]
  refine ⟨fun hk => ?_, fun hk => ?_, fun hk => ?_⟩ <;> simp [shortProbeFails, hk]

/-- One turn of the loop with 8 bits that exist is the walk over them: a continuation where the walk goes on past them,
the symbol whose code ends in them, and InvalidCode where the walk meets its dead end in them. -/
theorem decodeLoop_full_probe (hs : Walking s w k) (hbudget : 8 ≤ s.remaining.toNat)
    (hsource : bitpos s + 8 ≤ 8 * s.src.bytes.length) (n m : Nat) :
    (∃ u w', Walking u w' (k + 1) ∧ u.remaining.toNat + 8 = s.remaining.toNat ∧ bitpos u = bitpos s + 8 ∧
      u.src.bytes = s.src.bytes ∧ u.src.ending = s.src.ending ∧ u.nsym = s.nsym ∧
      decodeLoop (n + 1) s = decodeLoop n u ∧ walkAhead s (8 + m) w (8 * k) = walkAhead u m w' (8 * (k + 1))) ∨
    (∃ u j x, j ≤ 8 ∧ x < s.nsym.toNat ∧ u.remaining.toNat + j = s.remaining.toNat ∧
      decodeLoop (n + 1) s = .done (.sym (BitVec.ofNat 20 x)) u ∧
      walkAhead s (8 + m) w (8 * k) = .sym x (8 * k + j)) ∨
    (∃ u j, 1 ≤ j ∧ j ≤ 8 ∧ u.remaining = s.remaining ∧ decodeLoop (n + 1) s = .raised .invalidCode u ∧
      walkAhead s (8 + m) w (8 * k) = .invalidCode (8 * k + j)) := by
  obtain ⟨u, hr, hsame, hb, hacc⟩ := refill_of_source hs.bound hbudget le_rfl hsource
  have hu := walking_same hsame hb hs
  have hrem : u.remaining = s.remaining := same_remaining hsame
  have hbudget' : 8 ≤ u.remaining.toNat := hrem ▸ hbudget
  obtain ⟨hcont, hsymbol, hempty⟩ := decodeLoop_of_refilled hbudget hr n
  have hslot : (rev8 (lookahead 8 u)).toNat < tableSize := BitVec.isLt _
  have hbits : ∀ j, j ≤ 8 → afterBits w ((streamBits u.src.bytes (bitpos u) 8).take j)
      = slotValue w (rev8 (lookahead 8 u)).toNat j := fun j hj => by
    rw [streamBits_take hj]
    exact afterBits_streamBits le_rfl (fun i hi => by rw [lookahead_bit hb hacc le_rfl]; simp [hi]) hj
  rw [← walkAhead_same hsame, walkAhead, streamBits_add]
  obtain ⟨hk, hwalk⟩ | ⟨j, x, h1, h8, hx, hentry, hwalk⟩ | ⟨hk, j, h1, h8, hwalk⟩ :=
    probe_cases hu.onTable.ofCode hu.legal hu.reached hu.value_lt hslot (streamBits_length _ _ 8) hbits
      (streamBits u.src.bytes (bitpos u + 8) m)
  · have hpos : bitpos (followCont (probe 8 u) u) = bitpos u + 8 := bitpos_consume hb.1 hbudget'
    have hleft : (followCont (probe 8 u) u).remaining.toNat + 8 = s.remaining.toNat := by
      rw [followCont_remaining_toNat hbudget', hrem, Nat.sub_add_cancel hbudget]
    refine .inl ⟨_, _, walking_followCont hu hacc hbudget' hslot hk, hleft, hpos.trans (by rw [same_bitpos hsame]),
      (same_bytes hsame :), (same_ending hsame :), (same_nsym hsame :), hcont hk, ?_⟩
    rw [hwalk, ← hpos]; rfl
  · have hlen : (BitVec.ofNat 4 j).toNat = j := Nat.mod_eq_of_lt (by omega)
    have hprobe : probe 8 u = symbolEntry j x := hentry
    rw [hprobe, symbolEntry, hlen] at hsymbol
    refine .inr (.inl ⟨_, j, x, h8, by rwa [same_nsym hsame] at hx, ?_, hsymbol rfl, hwalk⟩)
    rw [consume_remaining_toNat (h8.trans hbudget'), hrem, Nat.sub_add_cancel (h8.trans hbudget)]
  · exact .inr (.inr ⟨u, j, h1, h8, hrem, hempty hk, hwalk⟩)

/-! ### The loop on a short source -/

/-- What DecodeOne from state `s` makes of the walk over the `whole` probes of 8 bits that a source shorter than the
budget has (spec/60_exceptions.md R252 (b), R255). -/
def EndsAsWalked (s : State) (whole : Nat) (r : Run Decoded) : Walked → Prop
  | .sym x used => x < s.nsym.toNat ∧
      ∃ t, r = .done (.sym (BitVec.ofNat 20 x)) t ∧ t.remaining.toNat + used = s.remaining.toNat
  | .invalidCode used =>
      ∃ t, r = .raised .invalidCode t ∧ t.remaining.toNat + 8 * ((used - 1) / 8) = s.remaining.toNat
  | .ended | .unexpectedEOF _ =>
      ∃ t, r = .raised (endFault s.src.ending) t ∧ t.remaining.toNat + 8 * whole = s.remaining.toNat

/-- The loop on a source shorter than the budget, `k` probes after the symbol's start in `s`: the `left` whole probes
that the source still has walk on, and the one after them raises the fault of its end. -/
theorem decodeLoop_endsAsWalked {left : Nat} (hu : Walking u w k)
    (hshort : 8 * u.src.bytes.length < bitpos u + u.remaining.toNat)
    (hleft : left = (8 * u.src.bytes.length - bitpos u) / 8) (hn : left < n)
    (hnsym : u.nsym = s.nsym) (hending : u.src.ending = s.src.ending)
    (hrem : u.remaining.toNat + 8 * k = s.remaining.toNat) :
    EndsAsWalked s (k + left) (decodeLoop n u) (walkAhead u (8 * left) w (8 * k)) := by
  have hpending := bitpos_add_nacc_le hu.bound
  induction left generalizing u w k n with
  | zero =>
    obtain ⟨n, rfl⟩ := Nat.exists_eq_succ_of_ne_zero (Nat.ne_of_gt hn)
    have hne : u.remaining ≠ 0 := fun h0 => by
      have hzero : u.remaining.toNat = 0 := by rw [h0]; rfl
      omega
    have hloop : decodeLoop (n + 1) u = .raised (endFault u.src.ending) u :=
      decodeLoop_of_raised hne (refill_of_short_source hu.bound (availBits_le u) (availBits_le_eight u)
        (by unfold availBits; omega))
    have hwalk : walkAhead u (8 * 0) w (8 * k) = if 8 * k = 0 then .ended else .unexpectedEOF (8 * k) := rfl
    rw [hwalk, hloop, hending]
    split <;> exact ⟨u, rfl, hrem⟩
  | succ left ih =>
    obtain ⟨n, rfl⟩ := Nat.exists_eq_succ_of_ne_zero (Nat.ne_of_gt (Nat.zero_lt_of_lt hn))
    rw [Nat.mul_succ, Nat.add_comm (8 * left) 8]
    obtain ⟨v, w', hv, hvrem, hpos, hbytes, hvending, hvnsym, hloop, hwalk⟩ | ⟨v, j, x, h8, hx, hvrem, hloop, hwalk⟩ |
        ⟨v, j, h1, h8, hvrem, hloop, hwalk⟩ := decodeLoop_full_probe hu (by omega) (by omega) n (8 * left) <;>
      rw [hloop, hwalk]
    · rw [Nat.add_comm left 1, ← Nat.add_assoc]
      exact ih hv (by rw [hbytes]; omega) (by rw [hbytes]; omega) (by omega) (hvnsym.trans hnsym)
        (hvending.trans hending) (by omega) (bitpos_add_nacc_le hv.bound)
    · exact ⟨hnsym ▸ hx, v, rfl, by omega⟩
    · exact ⟨v, rfl, by rw [hvrem]; omega⟩

/-- The walk ends cleanly only where there is no bit to take at all (spec/42_decode.md R211). -/
theorem walkFrom_ne_ended {code : Nat → CodeEntry} {nsym : Nat} {bs : List Bool} (h : bs ≠ [] ∨ l ≠ 0) :
    walkFrom code nsym bs w l ≠ .ended := by
  induction bs generalizing w l with
  | nil => rw [walkFrom, if_neg (h.resolve_left (by simp))]; simp
  | cons b bs ih =>
    have hrest := ih (w := 2 * w + b.toNat) (l := l + 1) (.inr (by simp))
    rw [walkFrom]
    split
    next => simp
    next =>
      split
      next => exact hrest
      next => simp

/-! ### The commands -/

/-- A fault that DecodeOne raises with nothing latched is latched and answered, and nothing is emitted
(spec/60_exceptions.md R254, R255). -/
theorem decodesFault_of_raised {f : ReaderFault} {consumed : Nat} (hready : decoderReady s = none)
    (hfree : s.rerr = 0) (hd : decodeOne s = .raised f u)
    (hrem : u.remaining.toNat + consumed = s.remaining.toNat) : DecodesFault s (readerFaultCode f) consumed := by
  have hread : SameButReading s u := by simpa [hd, Run.state] using decodeOne_sameButReading s
  obtain ⟨hsym, hrun⟩ := exec_decodes_of_raised hready hd
  rw [raiseReader_of_unlatched ((reading_rerr hread).trans hfree)] at hsym hrun
  exact ⟨_, hsym, hrun, rfl, rfl, hrem, (reading_out hread :), (reading_outcnt hread :)⟩

/-- A symbol that DecodeOne resolves is emitted, counted and answered (spec/42_decode.md R208). -/
theorem decSym_of_sym {x used : Nat} (hready : decoderReady s = none) (hx : x < 2 ^ 20)
    (hd : decodeOne s = .done (.sym (BitVec.ofNat 20 x)) u) (hrem : u.remaining.toNat + used = s.remaining.toNat) :
    ∃ t, exec .decSym s = .next t ∧ t.out = s.out ++ [BitVec.ofNat 20 x] ∧ t.outcnt = s.outcnt + 1 ∧
      t.rerr = s.rerr ∧ t.remaining.toNat + used = s.remaining.toNat ∧
      t.response = some (responseWord 0x00 (BitVec.ofNat 56 x)) := by
  have hread : SameButReading s u := by simpa [hd, Run.state] using decodeOne_sameButReading s
  have hresult : (BitVec.ofNat 20 x).setWidth 56 = BitVec.ofNat 56 x := BitVec.eq_of_toNat_eq (by simp; omega)
  refine ⟨_, exec_decSym_of_sym hready hd, ?_, ?_, (reading_rerr hread :), hrem, by rw [hresult]; rfl⟩
  · rw [← reading_out hread]; rfl
  · rw [← reading_outcnt hread]; rfl

end

/-- Settles O56: the loop from the root goes as the walk goes over the whole probes of the source. -/
theorem decodesOnAShortSource : Obligations.DecodesOnAShortSource := by
  intro s whole hs hvalid hmatch hact hfree hshort hwhole
  have hready : decoderReady s = none := (decoderReady_of_valid hvalid).trans (readerReady_of_unlatched hact hfree)
  have hends : EndsAsWalked s whole (decodeOne s)
      (walkOne (codeOf s) s.nsym.toNat (streamBits s.src.bytes (bitpos s) (8 * whole))) := by
    have hloop := decodeLoop_endsAsWalked (n := s.remaining.toNat / 8 + 1) (walking_start hs hvalid hmatch hact)
      hshort hwhole (by omega) rfl rfl rfl
    rwa [Nat.zero_add] at hloop
  cases hw : walkOne (codeOf s) s.nsym.toNat (streamBits s.src.bytes (bitpos s) (8 * whole)) <;> rw [hw] at hends
  case sym x used =>
    obtain ⟨hx, u, hd, hrem⟩ := hends
    have hsym := decSym_of_sym hready (hx.trans_le hs.code.nsym_le) hd hrem
    rwa [hfree] at hsym
  case invalidCode used =>
    obtain ⟨u, hd, hrem⟩ := hends
    exact decodesFault_of_raised hready hfree hd hrem
  case ended =>
    obtain ⟨u, hd, hrem⟩ := hends
    have hnone : whole = 0 := by
      have hbits : streamBits s.src.bytes (bitpos s) (8 * whole) = [] :=
        not_not.1 fun hne => walkFrom_ne_ended (.inl hne) hw
      simpa [streamBits] using hbits
    have hfault := decodesFault_of_raised (consumed := 0) hready hfree hd (by rw [hnone] at hrem; exact hrem)
    cases hending : s.src.ending <;> rw [hending] at hfault <;> exact hfault
  case unexpectedEOF used =>
    obtain ⟨u, hd, hrem⟩ := hends
    have hfault := decodesFault_of_raised hready hfree hd hrem
    cases hending : s.src.ending <;> rw [hending] at hfault <;> exact hfault

end Sys2Proof.Machine
end

section
/-! SUPPORT, and the proofs of O12, O13, O14, O20, O21 and O47. Each way the commands that load the Code and build and
read its table can go, as an equation (spec/41_table_build.md R170, R171, R173, R178, R180). -/

namespace Sys2Proof.Machine

open Sys2Proof.Config

section

variable {s t : State} {a : Arena} {f : BuildFault} {x : Nat}

/-! ### The commands -/

theorem exec_codeClr_of_gt {nsym : BitVec 21} (h : maxSym < nsym.toNat) :
    exec (.codeClr nsym) s = refuse .tooManySymbols s := by
  rw [exec, execCodeClr, if_pos h]

theorem exec_codeClr_of_le {nsym : BitVec 21} (h : nsym.toNat ≤ maxSym) :
    exec (.codeClr nsym) s = respond okCode 0 (leaveBuild { s with nsym := nsym, code := [] }) := by
  rw [exec, execCodeClr, if_neg (not_lt.2 h)]

theorem exec_codeWr_of_built {sym : Sym} {len : BitVec 5} {value : BitVec 20} (h : s.tstate ≠ .notBuilt) :
    exec (.codeWr sym len value) s = refuse .badState s := by
  rw [exec, execCodeWr, if_pos h]

theorem exec_codeWr_of_bad {sym : Sym} {len : BitVec 5} {value : BitVec 20} (hnot : s.tstate = .notBuilt)
    (hbad : s.nsym.toNat ≤ sym.toNat ∨ maxLen < len.toNat ∨ 2 ^ len.toNat ≤ value.toNat) :
    exec (.codeWr sym len value) s = refuse .badOperand s := by
  have hbad : codeWrBad sym len value s = true := by simpa [codeWrBad, or_assoc] using hbad
  rw [exec, execCodeWr, if_neg (not_not.2 hnot), if_pos hbad]

theorem exec_tblRd_of_not_valid {handle : Handle} {idx : BitVec 8} (h : s.tstate ≠ .valid) :
    exec (.tblRd handle idx) s = refuse .badState s := by
  rw [exec, execTblRd, if_pos h]

theorem exec_tblRd_of_ge {handle : Handle} {idx : BitVec 8} (hvalid : s.tstate = .valid)
    (h : s.ntab.toNat ≤ handle.toNat) : exec (.tblRd handle idx) s = refuse .badOperand s := by
  rw [exec, execTblRd, if_neg (not_not.2 hvalid), if_pos h]

theorem exec_tblRd_of_lt {handle : Handle} {idx : BitVec 8} (hvalid : s.tstate = .valid)
    (h : handle.toNat < s.ntab.toNat) :
    exec (.tblRd handle idx) s
      = respond okCode ((entryWord (tableRead s.table handle.toNat idx.toNat)).setWidth 56) s := by
  rw [exec, execTblRd, if_neg (not_not.2 hvalid), if_neg (not_le.2 h)]

theorem exec_tblBuild_of_built (h : s.tstate ≠ .notBuilt) : exec .tblBuild s = refuse .badState s := by
  rw [exec, execTblBuild, if_pos h]

theorem exec_tblBuild_of_ok (hnot : s.tstate = .notBuilt)
    (hb : buildTables (ntabMax s) s.nsym.toNat s.code = .ok a) :
    exec .tblBuild s = respond okCode (BitVec.ofNat 56 a.ntab)
      { s with table := a.table, ntab := BitVec.ofNat 18 a.ntab, tstate := .valid } := by
  rw [exec, execTblBuild, if_neg (not_not.2 hnot), hb]

theorem exec_tblBuild_of_error (hnot : s.tstate = .notBuilt)
    (hb : buildTables (ntabMax s) s.nsym.toNat s.code = .error (f, x)) :
    exec .tblBuild s = raiseBuild f (BitVec.ofNat 20 x) s := by
  rw [exec, execTblBuild, if_neg (not_not.2 hnot), hb]

/-- A TBL_BUILD that leaves a VALID table was a build that succeeded. -/
theorem buildTables_ok_of_valid (hnot : s.tstate = .notBuilt) (h : exec .tblBuild s = .next t)
    (hvalid : t.tstate = .valid) :
    ∃ a, buildTables (ntabMax s) s.nsym.toNat s.code = .ok a ∧
      respond okCode (BitVec.ofNat 56 a.ntab)
        { s with table := a.table, ntab := BitVec.ofNat 18 a.ntab, tstate := .valid } = .next t := by
  cases hb : buildTables (ntabMax s) s.nsym.toNat s.code with
  | ok a => exact ⟨a, rfl, exec_tblBuild_of_ok hnot hb ▸ h⟩
  | error r =>
    rw [exec_tblBuild_of_error hnot hb] at h
    cases h; cases hvalid

/-- A TBL_BUILD that leaves no VALID table was a build that failed. -/
theorem buildTables_error_of_not_valid (hnot : s.tstate = .notBuilt) (h : exec .tblBuild s = .next t)
    (hvalid : t.tstate ≠ .valid) :
    ∃ f x, buildTables (ntabMax s) s.nsym.toNat s.code = .error (f, x) ∧
      raiseBuild f (BitVec.ofNat 20 x) s = .next t := by
  cases hb : buildTables (ntabMax s) s.nsym.toNat s.code with
  | ok a =>
    rw [exec_tblBuild_of_ok hnot hb] at h
    cases h; exact absurd rfl hvalid
  | error r => exact ⟨r.1, r.2, rfl, exec_tblBuild_of_error hnot hb ▸ h⟩

/-- Without a VALID table the decode commands answer BadState (spec/42_decode.md R201). -/
theorem exec_decodes_of_not_valid (h : s.tstate ≠ .valid) :
    exec .decSym s = refuse .badState s ∧ ∀ quota, exec (.decRun quota) s = refuse .badState s :=
  have hready : decoderReady s = some (refusalCode .badState) := if_pos h
  ⟨exec_decSym_of_not_ready hready, fun _ => exec_decRun_of_not_ready hready⟩

/-! ### Entry words -/

/-- The fields of an entry word as one number (spec/30_encoding.md R114). -/
theorem entryWord_toNat (e : Entry) :
    (entryWord e).toNat = (kindBits e.kind).toNat + 4 * e.len.toNat + 64 * e.payload.toNat := by
  have hkind := (kindBits e.kind).isLt
  have hlen := e.len.isLt
  simp only [entryWord, BitVec.toNat_append]
  rw [← Nat.shiftLeft_add_eq_or_of_lt hkind, ← Nat.shiftLeft_add_eq_or_of_lt hlen]
  simp [Nat.shiftLeft_eq]
  omega

end

/-- Settles O12: CODE_CLR leaves nothing listed in CODE, and no VALID table. -/
theorem codeClrStartsACode : Obligations.CodeClrStartsACode := by
  intro s nsym
  refine ⟨exec_codeClr_of_gt, fun h => ⟨_, exec_codeClr_of_le h, rfl, fun _ _ => rfl, rfl, rfl, rfl, rfl, rfl, ?_⟩⟩
  exact exec_decodes_of_not_valid nofun

/-- Settles O13: one equation for each of the three ways CODE_WR goes, and the read after a write. -/
theorem codeWrWritesOneElement : Obligations.CodeWrWritesOneElement := by
  intro s sym len value hwf
  refine ⟨exec_codeWr_of_built, exec_codeWr_of_bad, fun hnot hsym hlen hvalue => ?_⟩
  have hread := codeRead_codeWrite hwf sym.toNat (e := ⟨value, len⟩)
  exact ⟨_, exec_codeWr_of_legal (e := ⟨value, len⟩) hnot hsym ⟨hlen, hvalue⟩, (hread _).trans (if_pos rfl),
    fun b hb => (hread b).trans (if_neg hb), rfl, rfl⟩

/-- Settles O14: no turn of the loop over the symbols inserts anything, so the root stays as it was allocated. -/
theorem emptyCodeBuildsAnEmptyRoot : Obligations.EmptyCodeBuildsAnEmptyRoot := by
  intro s hcode hnot hunused
  have hb : buildTables (ntabMax s) s.nsym.toNat s.code = .ok rootArena := by
    rw [build_eq_all_symbols _ _ hcode.wf, insertAll_skip_unused, List.filter_eq_nil_iff.2 ?_]
    · rfl
    · simpa [codeOf] using hunused
  exact ⟨_, exec_tblBuild_of_ok hnot hb, rfl, rfl, fun _ _ => rfl, rfl, rfl⟩

/-- Settles O20: the failed build has gone through BuildFail, and its state refuses what needs a table. -/
theorem failedBuildIsContained : Obligations.FailedBuildIsContained := by
  intro s t hnot h hvalid
  obtain ⟨f, x, -, ht⟩ := buildTables_error_of_not_valid hnot h hvalid
  obtain ⟨h1, hle⟩ := failedNtab_range s
  obtain rfl := eq_of_respond ht
  obtain ⟨hsym, hrun⟩ := exec_decodes_of_not_valid hvalid
  refine ⟨rfl, ?_, ⟨_, rfl⟩, h1, hle, rfl, fun _ _ => exec_tblRd_of_not_valid hvalid, hsym, hrun, fun _ hnsym => ?_⟩
  · cases f
    · exact .inl rfl
    · exact .inr rfl
  · exact ⟨_, exec_codeClr_of_le hnsym, rfl, rfl⟩

/-- Settles O21: one equation for each of the three ways TBL_RD goes, and the entry word as a number. -/
theorem tblRdReadsOneEntry : Obligations.TblRdReadsOneEntry := by
  intro s handle idx
  refine ⟨exec_tblRd_of_not_valid, exec_tblRd_of_ge, fun hvalid h => ⟨_, exec_tblRd_of_lt hvalid h, ?_⟩⟩
  have hword := (entryWord (tableRead s.table handle.toNat idx.toNat)).isLt
  rw [BitVec.toNat_setWidth, Nat.mod_eq_of_lt (by omega), entryWord_toNat]
  cases (tableRead s.table handle.toNat idx.toNat).kind <;> rfl

/-- Settles O47: each command goes one of the ways above, and each of them names the fields it writes. -/
theorem loadingAndBuildingLeaveTheReader : Obligations.LoadingAndBuildingLeaveTheReader := by
  intro s t nsym sym len value
  refine ⟨fun h => ?_, fun h => ?_, fun h => ?_⟩
  · obtain hle | hgt := le_or_gt nsym.toNat maxSym
    · rw [exec_codeClr_of_le hle] at h; cases h; rfl
    · rw [exec_codeClr_of_gt hgt] at h; cases h; rfl
  · simp only [exec, execCodeWr] at h
    split at h
    · cases h; exact ⟨rfl, fun _ _ => rfl⟩
    · split at h <;> cases h <;> exact ⟨rfl, fun _ _ => rfl⟩
  · by_cases hnot : s.tstate = .notBuilt
    · cases hb : buildTables (ntabMax s) s.nsym.toNat s.code with
      | ok a => rw [exec_tblBuild_of_ok hnot hb] at h; cases h; exact ⟨rfl, fun _ => rfl⟩
      | error r => rw [exec_tblBuild_of_error hnot hb] at h; cases h; exact ⟨rfl, fun _ => rfl⟩
    · rw [exec_tblBuild_of_built hnot] at h; cases h; exact ⟨rfl, fun _ => rfl⟩

end Sys2Proof.Machine
end

section
/-! SUPPORT, and the proofs of O16 and O18. The table a build leaves, and how deep the table of a Code is
(spec/41_table_build.md R179). -/

namespace Sys2Proof.Machine

open Sys2Proof.Config

/-- Settles O16: a build that succeeds has inserted the code of every symbol below NSYM, and no other. -/
theorem builtTableIsTheTableOfTheCode : Obligations.BuiltTableIsTheTableOfTheCode := by
  intro s t hcode hnot h hvalid
  obtain ⟨a, hb, ht⟩ := buildTables_ok_of_valid hnot h hvalid
  have hmax := s.tablesBeyondRoot.isLt
  obtain ⟨-, htable⟩ := buildTables_tableOfCode hcode.wf (by unfold ntabMax; omega) (by unfold ntabMax; omega)
    hcode.nsym_le hb
  rw [eq_of_respond ht]
  exact htable

section

variable {code : Nat → CodeEntry} {n : Nat} {t : Memory Entry} {p : List Nat} {i : Nat} {e : Entry} {c : CodeEntry}

/-- A legal code follows at most two continuations (spec/41_table_build.md R174). -/
theorem codeChunks_length_le (hc : codeEntryLegal c) : (codeChunks c).length ≤ 2 := by
  have hlen : c.len.toNat ≤ 20 := hc.1
  simp only [codeChunks, List.length_map, List.length_range, chunksBefore]
  omega

/-- A legal code that follows two continuations has at most 4 bits left (spec/41_table_build.md R179 (e)). -/
theorem lastBits_le_four (hc : codeEntryLegal c) (h : (codeChunks c).length = 2) : lastBits c ≤ 4 := by
  have hlen : c.len.toNat ≤ 20 := hc.1
  simp only [codeChunks, List.length_map, List.length_range] at h
  unfold lastBits
  omega

/-- A path to an entry of the table of a Code is the first chunks of some code, so it is no longer than they are. -/
theorem length_le_of_entryAt (ht : TableOfCode code n t) (hlegal : ∀ x, codeEntryLegal (code x))
    (hp : ∀ j ∈ p, j < tableSize) (he : entryAt t 0 (p ++ [i]) = some e) : p.length ≤ 2 := by
  obtain rfl | ⟨q, j, rfl⟩ := List.eq_nil_or_concat' p
  · exact Nat.zero_le 2
  obtain ⟨h, hpath, -⟩ := (entryAt_eq_some hp).1 he
  obtain ⟨h', hq, hchild⟩ := tableAt_snoc_eq_some hpath
  obtain ⟨hj, hkind, -⟩ := childOf_eq_some.1 hchild
  obtain ⟨x, -, -, hpre⟩ := ht.contOnly q j _ (tableAt_slots_lt hq) hj
    ((entryAt_eq_some (tableAt_slots_lt hq)).2 ⟨h', hq, rfl⟩) hkind
  exact hpre.length_le.trans (codeChunks_length_le (hlegal x))

end

/-- Settles O18: every entry comes from a code, and a code of at most 20 bits has at most two whole chunks before its
last bits. -/
theorem tablesHaveAtMostThreeLevels : Obligations.TablesHaveAtMostThreeLevels := by
  intro s hcode hvalid hmatch path i e hpath hi he
  have ht := hmatch hvalid
  have hlegal := codeOf_legal hcode
  refine ⟨length_le_of_entryAt ht hlegal hpath he, fun hlen => ⟨fun hcont => ?_, fun hsymbol => ?_⟩⟩
  · obtain ⟨x, -, -, hpre⟩ := ht.contOnly path i e hpath hi he hcont
    have hle := hpre.length_le.trans (codeChunks_length_le (hlegal x))
    rw [List.length_append, hlen, List.length_singleton] at hle
    omega
  · obtain ⟨x, -, hused, hchunks, -, rfl⟩ := ht.symbolOnly path i e hpath hi he hsymbol
    have h4 := lastBits_le_four (hlegal x) (hchunks ▸ hlen)
    rw [symbolEntry, BitVec.toNat_ofNat, Nat.mod_eq_of_lt (by omega)]
    exact h4

end Sys2Proof.Machine
end

section
/-! SUPPORT, and the proof of O19. Where a build stops, and that it goes alike whatever NTABMAX is until its tables run
out (spec/41_table_build.md R173, R176). -/

namespace Sys2Proof.Machine

open Sys2Proof.Config

section

variable {m m' n x : Nat} {a a2 : Arena} {code : Nat → CodeEntry} {f : BuildFault}

/-! ### Where a build stops -/

theorem insertAll_append (l l' : List (Nat × CodeEntry)) (a : Arena) :
    insertAll m (l ++ l') a = (insertAll m l a).bind (insertAll m l') := by
  induction l generalizing a with
  | nil => rfl
  | cons p l ih =>
    rw [List.cons_append, insertAll, insertAll]
    cases insertCode m p.1 p.2 a with
    | error f => rfl
    | ok a1 => exact ih a1

theorem insertAll_range_succ (code : Nat → CodeEntry) (a : Arena) :
    insertAll m ((List.range (n + 1)).map fun sym => (sym, code sym)) a
      = (insertAll m ((List.range n).map fun sym => (sym, code sym)) a).bind (insertAll m [(n, code n)]) := by
  rw [List.range_succ, List.map_append, insertAll_append]; rfl

theorem insertAll_singleton_error {c : CodeEntry} :
    insertAll m [(n, c)] a = .error (f, x) ↔ x = n ∧ insertCode m n c a = .error f := by
  rw [insertAll]
  cases insertCode m n c a <;> simp [insertAll, and_comm, eq_comm]

/-- A build that fails has inserted the symbols below the one it reports, and fails at that one
(spec/60_exceptions.md R259). -/
theorem insertAll_range_error
    (h : insertAll m ((List.range n).map fun sym => (sym, code sym)) a = .error (f, x)) :
    x < n ∧ ∃ a1, insertAll m ((List.range x).map fun sym => (sym, code sym)) a = .ok a1 ∧
      insertCode m x (code x) a1 = .error f := by
  induction n with
  | zero => cases h
  | succ n ih =>
    rw [insertAll_range_succ] at h
    cases hn : insertAll m ((List.range n).map fun sym => (sym, code sym)) a with
    | error r =>
      rw [hn] at h ih
      obtain ⟨hlt, hat⟩ := ih h
      exact ⟨hlt.trans (Nat.lt_succ_self n), hat⟩
    | ok a1 =>
      rw [hn] at h
      obtain ⟨rfl, hone⟩ := insertAll_singleton_error.1 h
      exact ⟨Nat.lt_succ_self x, a1, hn, hone⟩

/-- The symbols below the one a failed build reports build alone, and those up to it fail alike. -/
theorem buildTables_error_stops {nsym : Nat} {c : Memory CodeEntry} (hc : Memory.wf CodeEntry.unused c)
    (hb : buildTables m nsym c = .error (f, x)) :
    x < nsym ∧ (∃ a1, buildTables m x c = .ok a1) ∧ buildTables m (x + 1) c = .error (f, x) := by
  rw [build_eq_all_symbols m _ hc] at hb
  obtain ⟨hx, a1, hok, hfail⟩ := insertAll_range_error hb
  refine ⟨hx, ⟨a1, by rw [build_eq_all_symbols m x hc, hok]⟩, ?_⟩
  rw [build_eq_all_symbols m _ hc, insertAll_range_succ, hok]
  exact insertAll_singleton_error.2 ⟨rfl, hfail⟩

/-! ### The same operation with room for another number of tables

Each operation that succeeds with room for `m'` tables succeeds with room for `m` just when the tables it ends with are
at most `m`, with the same result, and is a TableOverflow when they are more. -/

theorem descendOnce_with_room {h b h2 : Nat} (ha : a.ntab ≤ m) (hd : descendOnce m' h b a = .ok (h2, a2)) :
    a.ntab ≤ a2.ntab ∧
      descendOnce m h b a = if a2.ntab ≤ m then .ok (h2, a2) else .error .tableOverflow := by
  obtain ⟨-, h1⟩ | ⟨hk, h1⟩ | ⟨-, -, h1⟩ | ⟨hk, -, h1⟩ := descendOnce_cases m' h b a <;> rw [h1] at hd <;> cases hd
  case inr.inl =>
    refine ⟨le_rfl, ?_⟩
    rw [if_pos ha, descendOnce]
    simp only [hk]
  case inr.inr.inr =>
    refine ⟨Nat.le_succ _, ?_⟩
    obtain hfull | hroom := ha.eq_or_lt
    · rw [if_neg (by simp [hfull]), descendOnce, alloc, if_pos hfull]
      simp only [hk]
    · rw [if_pos (Nat.succ_le_of_lt hroom), descendOnce, alloc, if_neg hroom.ne]
      simp only [hk]

theorem descend_with_room {value k rem h h2 : Nat} (ha : a.ntab ≤ m)
    (hd : descend m' value k rem h a = .ok (h2, a2)) :
    a.ntab ≤ a2.ntab ∧
      descend m value k rem h a = if a2.ntab ≤ m then .ok (h2, a2) else .error .tableOverflow := by
  induction k generalizing m rem h a with
  | zero => cases hd; exact ⟨le_rfl, (if_pos ha).symm⟩
  | succ k ih =>
    rw [descend] at hd
    split at hd
    next => cases hd
    next h1 a1 honce =>
      obtain ⟨hle, hsame⟩ := descendOnce_with_room ha honce
      rw [descend, hsame]
      by_cases hroom : a1.ntab ≤ m
      · obtain ⟨hle2, hrest⟩ := ih hroom hd
        exact ⟨hle.trans hle2, by rw [if_pos hroom]; exact hrest⟩
      · have hle2 := (ih (le_refl a1.ntab) hd).1
        exact ⟨hle.trans hle2, by rw [if_neg hroom, if_neg (by omega)]⟩

theorem fillSlots_ntab {h n i : Nat} {e : Entry} (hf : fillSlots h e n i a = .ok a2) : a2.ntab = a.ntab := by
  induction n generalizing i a with
  | zero => cases hf; rfl
  | succ n ih =>
    rw [fillSlots] at hf
    split at hf
    next => cases hf
    next => exact (ih hf :)

/-- Inserting a used code is its descent and the fill of its last level (spec/41_table_build.md R173). -/
theorem insertCode_of_used {c : CodeEntry} (sym : Nat) (hused : c.len ≠ 0) (a : Arena) :
    insertCode m sym c a = (descend m c.value.toNat (chunksBefore c.len.toNat) c.len.toNat 0 a).bind fun r =>
      fillSlots r.1 (symbolEntry (lastBits c) sym) (fillCount (lastBits c)) (fillBase c.value.toNat (lastBits c))
        r.2 := by
  rw [insertCode, if_neg hused]
  simp only
  cases descend m c.value.toNat (chunksBefore c.len.toNat) c.len.toNat 0 a <;> rfl

theorem insertCode_with_room {sym : Nat} {c : CodeEntry} (ha : a.ntab ≤ m) (hi : insertCode m' sym c a = .ok a2) :
    a.ntab ≤ a2.ntab ∧ insertCode m sym c a = if a2.ntab ≤ m then .ok a2 else .error .tableOverflow := by
  by_cases hused : c.len = 0
  · rw [insertCode_unused m' sym hused] at hi
    cases hi
    exact ⟨le_rfl, by rw [insertCode_unused m sym hused, if_pos ha]⟩
  rw [insertCode_of_used sym hused] at hi ⊢
  cases hd : descend m' c.value.toNat (chunksBefore c.len.toNat) c.len.toNat 0 a with
  | error f => rw [hd] at hi; cases hi
  | ok r =>
    rw [hd] at hi
    obtain ⟨hle, hsame⟩ := descend_with_room ha hd
    rw [hsame, fillSlots_ntab hi]
    refine ⟨hle, ?_⟩
    split
    · exact hi
    · rfl

theorem insertAll_with_room {l : List (Nat × CodeEntry)} (ha : a.ntab ≤ m) (hi : insertAll m' l a = .ok a2) :
    a.ntab ≤ a2.ntab ∧ (a2.ntab ≤ m → insertAll m l a = .ok a2) ∧
      (m < a2.ntab → ∃ x, insertAll m l a = .error (.tableOverflow, x)) := by
  induction l generalizing m a with
  | nil => cases hi; exact ⟨le_rfl, fun _ => rfl, fun hlt => absurd ha (not_le.2 hlt)⟩
  | cons p l ih =>
    rw [insertAll] at hi
    split at hi
    next => cases hi
    next a1 hone =>
      obtain ⟨hle, hsame⟩ := insertCode_with_room ha hone
      rw [insertAll, hsame]
      by_cases hroom : a1.ntab ≤ m
      · obtain ⟨hle2, hrest⟩ := ih hroom hi
        exact ⟨hle.trans hle2, by rw [if_pos hroom]; exact hrest⟩
      · have hle2 := (ih (le_refl a1.ntab) hi).1
        refine ⟨hle.trans hle2, fun hfit => absurd (hle2.trans hfit) hroom, fun _ => ?_⟩
        rw [if_neg hroom]
        exact ⟨p.1, rfl⟩

/-! ### TBL_BUILD -/

/-- A build that succeeds leaves NTAB in its register, within its range (spec/10_state.md R35). -/
theorem builtNtab_toNat {s : State} (hcode : CodeInv s)
    (hb : buildTables (ntabMax s) s.nsym.toNat s.code = .ok a) :
    (BitVec.ofNat 18 a.ntab).toNat = a.ntab := by
  have hmax := s.tablesBeyondRoot.isLt
  have hle := (buildTables_legal (by unfold ntabMax; omega) (by unfold ntabMax; omega) hcode.nsym_le hb).ntab_le
  exact Nat.mod_eq_of_lt (by unfold ntabMax at hle; omega)

/-- A symbol below 2^20 keeps its number in the response (spec/30_encoding.md R107). -/
theorem setWidth_sym (hx : x < 2 ^ 20) : (BitVec.ofNat 20 x).setWidth 56 = BitVec.ofNat 56 x := by
  apply BitVec.eq_of_toNat_eq
  rw [BitVec.toNat_setWidth, BitVec.toNat_ofNat, BitVec.toNat_ofNat, Nat.mod_eq_of_lt hx]

end

/-- Settles O19: the build with NTABMAX changed goes alike until its tables run out, and where they do it has inserted
the symbols below the one it reports. -/
theorem overflowExactlyWhenTablesRunOut : Obligations.OverflowExactlyWhenTablesRunOut := by
  intro s t hcode hnot h hvalid m
  obtain ⟨a, hb, ht⟩ := buildTables_ok_of_valid hnot h hvalid
  obtain rfl := eq_of_respond ht
  simp only [builtNtab_toNat hcode hb]
  obtain ⟨-, hfits, hfull⟩ := insertAll_with_room (m := m.val + 1) (Nat.le_add_left 1 _) hb
  refine ⟨fun hle => ?_, fun hlt => ?_⟩
  · exact ⟨_, exec_tblBuild_of_ok (s := { s with tablesBeyondRoot := m }) hnot (hfits hle), rfl, rfl, rfl⟩
  · obtain ⟨x, hover⟩ := hfull hlt
    obtain ⟨hx, ⟨a1, hbelow⟩, hupTo⟩ := buildTables_error_stops hcode.wf hover
    have hx20 : x < 2 ^ 20 := hx.trans_le hcode.nsym_le
    have hx21 : (BitVec.ofNat 21 x).toNat = x := Nat.mod_eq_of_lt (by omega)
    have hsucc21 : (BitVec.ofNat 21 (x + 1)).toNat = x + 1 := Nat.mod_eq_of_lt (by omega)
    refine ⟨_, x, exec_tblBuild_of_error (s := { s with tablesBeyondRoot := m }) hnot hover, rfl, rfl, hx,
      by rw [← setWidth_sym hx20]; rfl, ⟨_, exec_tblBuild_of_ok (a := a1) hnot ?_, rfl⟩,
      ⟨_, exec_tblBuild_of_error (f := .tableOverflow) (x := x) hnot ?_, rfl, rfl⟩⟩
    · rw [hx21]; exact hbelow
    · rw [hsucc21]; exact hupTo

end Sys2Proof.Machine
end

section
/-! SUPPORT, and the proof of O15. A build fails with BadCode where two codes collide (spec/41_table_build.md R177), and
65793 tables hold every path a code can take (spec/00_scope.md R8). -/

namespace Sys2Proof.Machine

open Sys2Proof.Config

/-! ### Codes that meet in a slot collide -/

section

variable {a b : CodeEntry} {i : Nat}

theorem len_eq_chunks_add_lastBits (a : CodeEntry) : a.len.toNat = 8 * chunksBefore a.len.toNat + lastBits a := by
  unfold lastBits chunksBefore; omega

/-- The value of a code is that of its chunks and its last bits, which index every slot it fills. -/
theorem value_eq_slotValue (hfill : fillsSlot a i) :
    a.value.toNat = slotValue (a.value.toNat >>> lastBits a) i (lastBits a) := by
  rw [slotValue, hfill, lowBits, Nat.shiftRight_eq_div_pow, Nat.div_add_mod']

theorem codeChunks_eq_chunksFrom (a : CodeEntry) :
    codeChunks a
      = chunksFrom (a.value.toNat >>> lastBits a) (chunksBefore a.len.toNat) (8 * chunksBefore a.len.toNat) := by
  have htake := codeChunks_take_eq_chunksFrom (le_refl (chunksBefore a.len.toNat))
  rwa [List.take_of_length_le (by simp [codeChunks])] at htake

theorem value_shiftRight_lt (ha : codeEntryLegal a) :
    a.value.toNat >>> lastBits a < 2 ^ (8 * chunksBefore a.len.toNat) := by
  rw [Nat.shiftRight_eq_div_pow, Nat.div_lt_iff_lt_mul (by positivity), ← pow_add, ← len_eq_chunks_add_lastBits]
  exact ha.2

/-- A code whose path goes on through a slot that another fills starts with that other. -/
theorem startsWith_of_prefix (ha : codeEntryLegal a) (hb : codeEntryLegal b) (hused : a.len ≠ 0) (hi : i < tableSize)
    (hfill : fillsSlot a i) (hpre : codeChunks a ++ [i] <+: codeChunks b) : StartsWith b a := by
  have h8 := (lastBits_range hused).2
  have hlena := len_eq_chunks_add_lastBits a
  have hlenb := len_eq_chunks_add_lastBits b
  rw [codeChunks_eq_chunksFrom, ← chunksFrom_slotValue hi] at hpre
  obtain ⟨hle, hvalue⟩ := shiftRight_of_chunks_prefix hb (slotValue_lt (value_shiftRight_lt ha) hi) hpre
  refine ⟨by omega, ?_⟩
  calc b.value.toNat >>> (b.len.toNat - a.len.toNat)
      = b.value.toNat >>> (b.len.toNat - 8 * (chunksBefore a.len.toNat + 1)) >>> (8 - lastBits a) := by
        rw [← Nat.shiftRight_add]; congr 1; omega
    _ = slotValue (a.value.toNat >>> lastBits a) i (lastBits a) := by rw [hvalue, slotValue_shiftRight h8 le_rfl]
    _ = a.value.toNat := (value_eq_slotValue hfill).symm

/-- Of two codes that fill one slot of one table, the one with more last bits starts with the other. -/
theorem startsWith_of_same_chunks (ha : codeEntryLegal a) (hb : codeEntryLegal b) (hused : b.len ≠ 0)
    (hchunks : codeChunks a = codeChunks b) (hfill : fillsSlot a i) (hfill' : fillsSlot b i)
    (hle : lastBits a ≤ lastBits b) : StartsWith b a := by
  have h8 := (lastBits_range hused).2
  have hbefore : chunksBefore a.len.toNat = chunksBefore b.len.toNat := by
    simpa [codeChunks] using congrArg List.length hchunks
  have hwa := value_shiftRight_lt ha
  rw [codeChunks_eq_chunksFrom, codeChunks_eq_chunksFrom b, hbefore] at hchunks
  rw [hbefore] at hwa
  have hhigh := eq_of_chunksFrom_eq hwa (value_shiftRight_lt hb) hchunks
  have hlena := len_eq_chunks_add_lastBits a
  have hlenb := len_eq_chunks_add_lastBits b
  refine ⟨by omega, ?_⟩
  rw [value_eq_slotValue hfill', ← hhigh, show b.len.toNat - a.len.toNat = lastBits b - lastBits a by omega,
    slotValue_shiftRight hle h8, ← value_eq_slotValue hfill]

end

/-! ### BadCode -/

section

variable {nsym m n x : Nat} {a : Arena} {p : List Nat} {h : Nat} {c : CodeEntry} {code : Nat → CodeEntry}

/-- A turn of the descent that is a BadCode met a SYMBOL entry. -/
theorem descendOnce_badCode {b : Nat} (hd : descendOnce m h b a = .error .badCode) :
    (tableRead a.table h b).kind = .symbol := by
  obtain ⟨hk, -⟩ | ⟨-, h1⟩ | ⟨-, -, h1⟩ | ⟨-, -, h1⟩ := descendOnce_cases m h b a
  · exact hk
  all_goals rw [h1] at hd; cases hd

/-- A descent that is a BadCode met a slot on its way that resolves to an earlier symbol. -/
theorem descend_badCode {value k rem : Nat} (ha : ArenaTree nsym m a) (hm : m < 2 ^ 20)
    (hp : tableAt a.table p = some h) (hd : descend m value k rem h a = .error .badCode) :
    ∃ q i e, ResolvesTo a.table q i e ∧ q ++ [i] <+: p ++ chunksFrom value k rem := by
  induction k generalizing rem h a p with
  | zero => cases hd
  | succ k ih =>
    have hsplit : p ++ chunksFrom value (k + 1) rem = p ++ [chunk value rem] ++ chunksFrom value k (rem - 8) := by
      rw [chunksFrom_succ, List.append_assoc, List.singleton_append]
    rw [hsplit]
    rw [descend] at hd
    split at hd
    next f honce =>
      cases hd
      exact ⟨p, chunk value rem, _, ⟨h, hp, chunk_lt _ _, rfl, descendOnce_badCode honce⟩, List.prefix_append _ _⟩
    next h' a' honce =>
      obtain ⟨ha', hpaths, hres⟩ := descendOnce_adds ha hm (chunk_lt value rem) hp honce
      obtain ⟨q, i, e, hresolves, hpre⟩ := ih ha' ((hpaths _).trans (if_pos rfl)) hd
      exact ⟨q, i, e, (hres q i e).1 hresolves, hpre⟩

/-- What a code that is a BadCode met: a slot on its way, or one it fills, that resolves to an earlier symbol, or a slot
it fills that an earlier code goes on through (the three detections of spec/41_table_build.md R177). -/
theorem insertCode_badCode {sym : Nat} (ha : ArenaTree nsym m a) (hm : m < 2 ^ 20) (hused : c.len ≠ 0)
    (hi : insertCode m sym c a = .error .badCode) :
    (∃ q i e, ResolvesTo a.table q i e ∧ q ++ [i] <+: codeChunks c) ∨
      ∃ i, i < tableSize ∧ fillsSlot c i ∧
        ((∃ e, ResolvesTo a.table (codeChunks c) i e) ∨ (tableAt a.table (codeChunks c ++ [i])).isSome) := by
  rw [insertCode_of_used sym hused] at hi
  cases hd : descend m c.value.toNat (chunksBefore c.len.toNat) c.len.toNat 0 a with
  | error f =>
    rw [hd] at hi
    cases hi
    exact .inl (descend_badCode ha hm (tableAt_nil a.table) hd)
  | ok r =>
    rw [hd] at hi
    obtain ⟨h1, h8⟩ := lastBits_range hused
    obtain ⟨ha', hend, hpaths, hres⟩ := descend_adds ha hm (tableAt_nil a.table) hd
    have hend : tableAt r.2.table (codeChunks c) = some r.1 := hend
    obtain ⟨-, i, hlo, hhi, hk⟩ := fillSlots_error ha'.tables.wf (fill_below h1 h8) hi
    have hslot : i < tableSize := hhi.trans_le (fill_below h1 h8)
    refine .inr ⟨i, hslot, fill_range.1 ⟨hlo, hhi⟩, ?_⟩
    cases hkind : (tableRead r.2.table r.1 i).kind with
    | empty => exact absurd hkind hk
    | symbol => exact .inl ⟨_, (hres _ i _).1 ⟨r.1, hend, hslot, rfl, hkind⟩⟩
    | cont =>
      have hnext : (tableAt r.2.table (codeChunks c ++ [i])).isSome := by
        rw [tableAt_snoc_of hend, childOf_eq_some.2 ⟨hslot, hkind, rfl⟩]; rfl
      refine .inr (((hpaths _).1 hnext).resolve_right fun hpre => ?_)
      have hlen : (codeChunks c ++ [i]).length ≤ (codeChunks c).length := hpre.length_le
      simp at hlen

theorem slot_lt_of_resolvesTo {t : Memory Entry} {i : Nat} {e : Entry} (hr : ResolvesTo t p i e) : i < tableSize := by
  obtain ⟨-, -, hslot, -⟩ := hr
  exact hslot

/-- A code that is a BadCode collides with an earlier one (spec/41_table_build.md R177). -/
theorem collide_of_badCode (ha : ArenaTree nsym m a) (hm : m < 2 ^ 20) (ht : PathsOfCode code n a.table)
    (hlegal : ∀ y, codeEntryLegal (code y)) (hused : (code n).len ≠ 0)
    (hi : insertCode m n (code n) a = .error .badCode) :
    ∃ y, y < n ∧ (code y).len ≠ 0 ∧ collide (code y) (code n) := by
  obtain ⟨q, i, e, hresolves, hpre⟩ | ⟨i, hslot, hfill, ⟨e, hresolves⟩ | hnext⟩ := insertCode_badCode ha hm hused hi
  · have hslot := slot_lt_of_resolvesTo hresolves
    obtain ⟨y, hy, hyused, rfl, hyfill, -⟩ := (ht.resolved q i e).1 hresolves
    exact ⟨y, hy, hyused, .inl (startsWith_of_prefix (hlegal y) (hlegal n) hyused hslot hyfill hpre)⟩
  · obtain ⟨y, hy, hyused, hchunks, hyfill, -⟩ := (ht.resolved _ i e).1 hresolves
    refine ⟨y, hy, hyused, ?_⟩
    obtain hle | hle := Nat.le_total (lastBits (code y)) (lastBits (code n))
    · exact .inl (startsWith_of_same_chunks (hlegal y) (hlegal n) hused hchunks.symm hyfill hfill hle)
    · exact .inr (startsWith_of_same_chunks (hlegal n) (hlegal y) hyused hchunks hfill hyfill hle)
  · obtain ⟨y, hy, hyused, hpre⟩ := ((ht.reached _).1 hnext).resolve_left (by simp)
    exact ⟨y, hy, hyused, .inr (startsWith_of_prefix (hlegal n) (hlegal y) hused hslot hfill hpre)⟩

/-! ### Tables enough -/

/-- The paths of at most two slots, each below `n`. -/
def shortPaths (n : Nat) : Finset (List Nat) :=
  {[]} ∪ (Finset.range n).image (fun i => [i]) ∪ (Finset.range n ×ˢ Finset.range n).image fun ij => [ij.1, ij.2]

theorem mem_shortPaths (hlen : p.length ≤ 2) (hslots : ∀ j ∈ p, j < n) : p ∈ shortPaths n := by
  match p with
  | [] => simp [shortPaths]
  | [i] => simpa [shortPaths] using hslots
  | [i, j] => simpa [shortPaths] using hslots
  | _ :: _ :: _ :: _ => simp at hlen

theorem shortPaths_card_le (n : Nat) : (shortPaths n).card ≤ 1 + n + n * n := by
  have hone : ((Finset.range n).image fun i => [i]).card ≤ n :=
    Finset.card_image_le.trans (Finset.card_range n).le
  have htwo : ((Finset.range n ×ˢ Finset.range n).image fun ij => [ij.1, ij.2]).card ≤ n * n :=
    Finset.card_image_le.trans (by simp)
  exact (Finset.card_union_le _ _).trans
    (Nat.add_le_add ((Finset.card_union_le _ _).trans (Nat.add_le_add_left hone 1)) htwo)

/-- No table lies deeper than level 2. -/
def AtMostThreeLevels (a : Arena) : Prop := ∀ p h, tableAt a.table p = some h → p.length ≤ 2

/-- Where every table is reached by a path of at most two slots, there are no more tables than such paths. -/
theorem ntab_le_of_slots_lt (hall : AllReached a) (hdeep : AtMostThreeLevels a)
    (hslots : ∀ p h, tableAt a.table p = some h → ∀ j ∈ p, j < n) : a.ntab ≤ 1 + n + n * n := by
  have hsub : Finset.range a.ntab ⊆ (shortPaths n).image fun p => (tableAt a.table p).getD 0 := fun h hh => by
    obtain ⟨p, hp⟩ := hall h (Finset.mem_range.1 hh)
    exact Finset.mem_image.2 ⟨p, mem_shortPaths (hdeep p h hp) (hslots p h hp), by rw [hp]; rfl⟩
  calc a.ntab = (Finset.range a.ntab).card := (Finset.card_range _).symm
    _ ≤ ((shortPaths n).image fun p => (tableAt a.table p).getD 0).card := Finset.card_le_card hsub
    _ ≤ (shortPaths n).card := Finset.card_image_le
    _ ≤ 1 + n + n * n := shortPaths_card_le n

/-- An arena of at most three levels, all reached, has at most 65793 tables (spec/00_scope.md R8). -/
theorem ntab_le_enough (hall : AllReached a) (hdeep : AtMostThreeLevels a) : a.ntab ≤ ntabmaxEnough :=
  ntab_le_of_slots_lt (n := tableSize) hall hdeep fun _ _ => tableAt_slots_lt

/-- A turn of the descent adds a level only below the table it is at. -/
theorem descendOnce_levels {b h2 : Nat} {a2 : Arena} (ha : ArenaTree nsym m a) (hm : m < 2 ^ 20) (hb : b < tableSize)
    (hp : tableAt a.table p = some h) (hlen : p.length < 2) (hd : descendOnce m h b a = .ok (h2, a2))
    (hdeep : AtMostThreeLevels a) : AtMostThreeLevels a2 := by
  intro q h' hq
  rw [(descendOnce_adds ha hm hb hp hd).2.1] at hq
  split at hq
  next hnew => rw [hnew, List.length_append, List.length_singleton]; omega
  next => exact hdeep q h' hq

theorem arenaTree_succ (ha : ArenaTree nsym m a) : ArenaTree nsym (m + 1) a :=
  { ha with ntab_le := Nat.le_succ_of_le ha.ntab_le }

/-- A turn of the descent that is a TableOverflow had fewer than 65793 tables to use: with room for one more it would
have allocated it. -/
theorem descendOnce_overflow {b : Nat} (ha : ArenaTree nsym m a) (hm : m + 1 < 2 ^ 20) (hb : b < tableSize)
    (hp : tableAt a.table p = some h) (hlen : p.length < 2) (hall : AllReached a) (hdeep : AtMostThreeLevels a)
    (hd : descendOnce m h b a = .error .tableOverflow) : m < ntabmaxEnough := by
  obtain ⟨-, h1⟩ | ⟨-, h1⟩ | ⟨hk, hfull, -⟩ | ⟨-, -, h1⟩ := descendOnce_cases m h b a
  case inr.inr.inl =>
    have hroom : descendOnce (m + 1) h b a = .ok (a.ntab, growAt h b a) := by
      rw [descendOnce, alloc, if_neg (by omega)]
      simp only [hk]
      rfl
    have hle := ntab_le_enough (descendOnce_allReached (arenaTree_succ ha) hm hb hp hroom hall)
      (descendOnce_levels (arenaTree_succ ha) hm hb hp hlen hroom hdeep)
    rw [growAt, hfull] at hle
    exact hle
  all_goals rw [h1] at hd; cases hd

theorem descend_overflow {value k rem : Nat} (ha : ArenaTree nsym m a) (hm : m + 1 < 2 ^ 20)
    (hp : tableAt a.table p = some h) (hlen : p.length + k ≤ 2) (hall : AllReached a) (hdeep : AtMostThreeLevels a)
    (hd : descend m value k rem h a = .error .tableOverflow) : m < ntabmaxEnough := by
  induction k generalizing rem h a p with
  | zero => cases hd
  | succ k ih =>
    have hlt : m < 2 ^ 20 := (Nat.lt_succ_self m).trans hm
    have hb := chunk_lt value rem
    rw [descend] at hd
    split at hd
    next f honce =>
      cases hd
      exact descendOnce_overflow ha hm hb hp (by omega) hall hdeep honce
    next h' a' honce =>
      obtain ⟨ha', hpaths, -⟩ := descendOnce_adds ha hlt hb hp honce
      refine ih ha' ((hpaths _).trans (if_pos rfl)) ?_ (descendOnce_allReached ha hlt hb hp honce hall)
        (descendOnce_levels ha hlt hb hp (by omega) honce hdeep) hd
      rw [List.length_append, List.length_singleton]; omega

theorem insertCode_overflow {sym : Nat} (ha : ArenaTree nsym m a) (hm : m + 1 < 2 ^ 20) (hc : codeEntryLegal c)
    (hall : AllReached a) (hdeep : AtMostThreeLevels a) (hi : insertCode m sym c a = .error .tableOverflow) :
    m < ntabmaxEnough := by
  by_cases hused : c.len = 0
  · rw [insertCode_unused m sym hused] at hi; cases hi
  rw [insertCode_of_used sym hused] at hi
  cases hd : descend m c.value.toNat (chunksBefore c.len.toNat) c.len.toNat 0 a with
  | error f =>
    rw [hd] at hi
    cases hi
    have hlen := codeChunks_length_le hc
    rw [codeChunks, List.length_map, List.length_range] at hlen
    exact descend_overflow ha hm (tableAt_nil a.table) (by simpa using hlen) hall hdeep hd
  | ok r =>
    rw [hd] at hi
    obtain ⟨h1, h8⟩ := lastBits_range hused
    obtain ⟨ha', -⟩ := descend_adds ha ((Nat.lt_succ_self m).trans hm) (tableAt_nil a.table) hd
    obtain ⟨hf, -⟩ := fillSlots_error ha'.tables.wf (fill_below h1 h8) hi
    cases hf

/-! ### The whole build -/

theorem levels_of_paths (ht : PathsOfCode code n a.table) (hlegal : ∀ y, codeEntryLegal (code y)) :
    AtMostThreeLevels a := by
  intro p h hp
  obtain rfl | ⟨y, -, -, hpre⟩ := (ht.reached p).1 (by rw [hp]; rfl)
  · exact Nat.zero_le 2
  · exact hpre.length_le.trans (codeChunks_length_le (hlegal y))

/-- A build that is a BadCode reports the first symbol that collides with an earlier one
(spec/41_table_build.md R177). -/
theorem buildTables_badCode {c : Memory CodeEntry} (hc : Memory.wf CodeEntry.unused c)
    (hlegal : ∀ y, codeEntryLegal (codeRead c y)) (h1 : 1 ≤ m) (hm : m < 2 ^ 20) (hnsym : nsym ≤ maxSym)
    (hb : buildTables m nsym c = .error (.badCode, x)) :
    x < nsym ∧ PrefixFreeBelow (codeRead c) x ∧ ¬ PrefixFreeBelow (codeRead c) (x + 1) := by
  rw [build_eq_all_symbols m nsym hc] at hb
  obtain ⟨hx, a1, hok, hfail⟩ := insertAll_range_error hb
  obtain ⟨ha1, ht⟩ := insertAll_range_paths h1 hm hnsym hx.le hok
  refine ⟨hx, prefixFreeBelow_of_tableOfCode (tableOfCode_of_paths ht) (hx.le.trans hnsym), fun hfree => ?_⟩
  have hused : (codeRead c x).len ≠ 0 := fun h0 => by rw [insertCode_unused m x h0] at hfail; cases hfail
  obtain ⟨y, hy, hyused, hcollide⟩ := collide_of_badCode ha1 hm ht hlegal hused hfail
  exact hfree y x hy (Nat.lt_succ_self x) hyused hused hcollide

/-- With 65793 tables a build fails only with BadCode (spec/00_scope.md R8, spec/41_table_build.md R176). -/
theorem badCode_of_enough {c : Memory CodeEntry} {f : BuildFault} (hc : Memory.wf CodeEntry.unused c)
    (hlegal : ∀ y, codeEntryLegal (codeRead c y)) (hm : m + 1 < 2 ^ 20) (hnsym : nsym ≤ maxSym)
    (henough : ntabmaxEnough ≤ m) (hb : buildTables m nsym c = .error (f, x)) : f = .badCode := by
  cases f with
  | badCode => rfl
  | tableOverflow =>
    have h1 : 1 ≤ m := le_trans (by decide) henough
    have hlt : m < 2 ^ 20 := (Nat.lt_succ_self m).trans hm
    rw [build_eq_all_symbols m nsym hc] at hb
    obtain ⟨hx, a1, hok, hfail⟩ := insertAll_range_error hb
    obtain ⟨ha1, ht⟩ := insertAll_range_paths h1 hlt hnsym hx.le hok
    rw [← build_eq_all_symbols m x hc] at hok
    obtain ⟨-, hall⟩ := buildTables_allReached h1 hlt (hx.le.trans hnsym) hok
    exact absurd henough (not_le.2 (insertCode_overflow ha1 hm (hlegal x) hall (levels_of_paths ht hlegal) hfail))

end

/-- Settles O15: a build that succeeds leaves a table of its Code, and in such a Code no code starts another; one that is
a BadCode met an earlier code; and with tables enough there is no third outcome. -/
theorem buildSucceedsIffPrefixFree : Obligations.BuildSucceedsIffPrefixFree := by
  intro s hcode hnot
  have hmax := s.tablesBeyondRoot.isLt
  have h1 : 1 ≤ ntabMax s := Nat.le_add_left 1 _
  have hm : ntabMax s + 1 < 2 ^ 20 := by unfold ntabMax; omega
  have hlegal : ∀ y, codeEntryLegal (codeRead s.code y) := codeOf_legal hcode
  have hsound : ∀ a, buildTables (ntabMax s) s.nsym.toNat s.code = .ok a →
      PrefixFreeBelow (codeOf s) s.nsym.toNat := fun a hb =>
    prefixFreeBelow_of_tableOfCode (buildTables_tableOfCode hcode.wf h1 (by omega) hcode.nsym_le hb).2 hcode.nsym_le
  refine ⟨fun t h hvalid => ?_, fun t h hterr hfailed => ?_, fun henough hfree => ?_, fun henough hcollide => ?_⟩
  · obtain ⟨a, hb, -⟩ := buildTables_ok_of_valid hnot h hvalid
    exact hsound a hb
  · obtain ⟨f, x, hb, ht⟩ := buildTables_error_of_not_valid hnot h (by rw [hfailed]; nofun)
    obtain rfl := eq_of_respond ht
    have hterr : buildFaultCode f = 0x50 := hterr
    cases f with
    | tableOverflow => exact absurd hterr (by decide)
    | badCode =>
      obtain ⟨hx, hbelow, hupTo⟩ := buildTables_badCode hcode.wf hlegal h1 (by omega) hcode.nsym_le hb
      exact ⟨x, hx, by rw [← setWidth_sym (hx.trans_le hcode.nsym_le)]; rfl, hbelow, hupTo⟩
  · cases hb : buildTables (ntabMax s) s.nsym.toNat s.code with
    | ok a =>
      have hntab : (BitVec.ofNat 18 a.ntab).setWidth 56 = BitVec.ofNat 56 a.ntab := by
        apply BitVec.eq_of_toNat_eq
        rw [BitVec.toNat_setWidth, builtNtab_toNat hcode hb, BitVec.toNat_ofNat]
      exact ⟨_, exec_tblBuild_of_ok hnot hb, rfl, rfl, by rw [hntab]; rfl⟩
    | error r =>
      obtain ⟨f, x⟩ := r
      obtain rfl := badCode_of_enough hcode.wf hlegal hm hcode.nsym_le henough hb
      obtain ⟨hx, -, hupTo⟩ := buildTables_badCode hcode.wf hlegal h1 (by omega) hcode.nsym_le hb
      exact absurd (fun y z hyz hz => hfree y z hyz (by omega)) hupTo
  · cases hb : buildTables (ntabMax s) s.nsym.toNat s.code with
    | ok a => exact absurd (hsound a hb) hcollide
    | error r =>
      have hf : r.1 = .badCode := badCode_of_enough hcode.wf hlegal hm hcode.nsym_le henough hb
      exact ⟨_, exec_tblBuild_of_error hnot hb, rfl, congrArg buildFaultCode hf⟩

end Sys2Proof.Machine
end

section
/-! SUPPORT, and the proofs of O32, O33 and O55. DecodeOne on a source that has the budget goes as the bit-by-bit walk goes
over all the bits that are left: probes of 8 bits, and a last one of fewer (spec/42_decode.md R203, R207, R211). -/

namespace Sys2Proof.Machine

open Sys2Proof.Config

/-! ### One probe of fewer than 8 bits -/

section

variable {code : Nat → CodeEntry} {nsym w k l h i avail x used : Nat} {t : Memory Entry} {bs : List Bool}

/-- A walk that finds a symbol has taken no more than the bits it was given, and bits that follow do not change it. -/
theorem walkFrom_sym (h : walkFrom code nsym bs w l = .sym x used) :
    used ≤ l + bs.length ∧ ∀ rest, walkFrom code nsym (bs ++ rest) w l = .sym x used := by
  induction bs generalizing w l with
  | nil => rw [walkFrom] at h; split at h <;> cases h
  | cons b bs ih =>
    rw [walkFrom] at h
    simp only [List.cons_append, List.length_cons, walkFrom]
    cases hsym : symbolWith code nsym (2 * w + b.toNat) (l + 1) with
    | some y =>
      simp only [hsym] at h ⊢
      cases h
      exact ⟨by omega, fun _ => rfl⟩
    | none =>
      simp only [hsym] at h ⊢
      split at h
      next hgo =>
        obtain ⟨hle, hrest⟩ := ih h
        exact ⟨by omega, fun rest => by rw [if_pos hgo, hrest]⟩
      next => cases h

/-- When a lookahead of fewer than 8 bits does not resolve (spec/42_decode.md R207). -/
theorem shortProbeFails_iff {e : Entry} :
    shortProbeFails avail e = true ↔ avail < 8 ∧ ¬ (e.kind = .symbol ∧ e.len.toNat ≤ avail) := by
  simp [shortProbeFails, imp_iff_not_or]

/-- A SYMBOL entry of the table of a Code is that of a code that ends within the bits of the slot, after the entry's
length. -/
theorem symbolWith_entry_len (ht : TableOfCode code nsym t) (hlegal : ∀ x, codeEntryLegal (code x))
    (hp : tableAt t (chunksFrom w k (8 * k)) = some h) (hw : w < 2 ^ (8 * k)) (hi : i < tableSize)
    (hk : (tableRead t h i).kind = .symbol) :
    1 ≤ (tableRead t h i).len.toNat ∧
      symbolWith code nsym (slotValue w i (tableRead t h i).len.toNat) (8 * k + (tableRead t h i).len.toNat) ≠ none := by
  obtain ⟨r, h1, h8, hends, -⟩ := symbolWith_of_entry ht hlegal hp hw hi hk
  obtain ⟨x, hx⟩ := Option.ne_none_iff_exists'.1 hends
  obtain ⟨-, hentry⟩ := entry_of_symbolWith ht hp hi h1 h8 hx
  have hlen : (tableRead t h i).len.toNat = r := by
    rw [hentry, symbolEntry, BitVec.toNat_ofNat, Nat.mod_eq_of_lt (by omega)]
  rw [hlen]
  exact ⟨h1, hends⟩

/-- One probe of fewer than 8 bits is the walk over them: the SYMBOL entry of the code that ends in them; else the probe
is too short, and the walk runs out of bits or meets its dead end in them (spec/42_decode.md R207, R211). -/
theorem short_probe_cases (ht : TableOfCode code nsym t) (hlegal : ∀ x, codeEntryLegal (code x))
    (hp : tableAt t (chunksFrom w k (8 * k)) = some h) (hw : w < 2 ^ (8 * k)) (hi : i < tableSize)
    (hlen : bs.length = avail) (h1 : 1 ≤ avail) (h8 : avail < 8)
    (hbits : ∀ j, j ≤ avail → afterBits w (bs.take j) = slotValue w i j) :
    (∃ j x, j ≤ avail ∧ x < nsym ∧ tableRead t h i = symbolEntry j x ∧
      walkFrom code nsym bs w (8 * k) = .sym x (8 * k + j)) ∨
    (shortProbeFails avail (tableRead t h i) = true ∧
      (walkFrom code nsym bs w (8 * k) = .unexpectedEOF (8 * k + avail) ∨
        ∃ j, 1 ≤ j ∧ j ≤ avail ∧ walkFrom code nsym bs w (8 * k) = .invalidCode (8 * k + j))) := by
  have hcases := walkFrom_append_cases code nsym w (8 * k) bs []
  rw [List.append_nil, hlen] at hcases
  obtain ⟨hnone, -, hwalk⟩ | ⟨j, x, hj1, hj, hsym, hwalk⟩ | ⟨j, hj1, hj, hnone, hdead, hwalk⟩ := hcases
  · rw [walkFrom, if_neg (by omega)] at hwalk
    refine .inr ⟨shortProbeFails_iff.2 ⟨h8, ?_⟩, .inl hwalk⟩
    rintro ⟨hk, hle⟩
    obtain ⟨hr1, hends⟩ := symbolWith_entry_len ht hlegal hp hw hi hk
    rw [← hbits _ hle] at hends
    exact hends (hnone _ hr1 (hlen ▸ hle))
  · rw [hbits j hj] at hsym
    obtain ⟨hx, hentry⟩ := entry_of_symbolWith ht hp hi hj1 (by omega) hsym
    exact .inl ⟨j, x, hj, hx, hentry, hwalk⟩
  · rw [hbits j hj] at hdead
    have hempty : (tableRead t h i).kind = .empty :=
      empty_of_dead_end ht hlegal hp hw hi (by omega) (fun r hr1 hrj => by
        have hr := hnone r hr1 (by rw [List.length_take, hlen]; omega)
        rwa [List.take_take, min_eq_left hrj, hbits r (hrj.trans hj)] at hr) hdead
    exact .inr ⟨shortProbeFails_iff.2 ⟨h8, by simp [hempty]⟩, .inr ⟨j, hj1, hj, hwalk⟩⟩

end

section

variable {s t u : State} {n w k : Nat}

/-- One turn of the loop with fewer than 8 bits of lookahead, which exist, is the walk over them. -/
theorem decodeLoop_short_probe (hs : Walking s w k) (hne : s.remaining ≠ 0) (h8 : s.remaining.toNat < 8)
    (hsource : bitpos s + s.remaining.toNat ≤ 8 * s.src.bytes.length) (n : Nat) :
    (∃ u j x, x < s.nsym.toNat ∧ u.remaining.toNat + j = s.remaining.toNat ∧
      decodeLoop (n + 1) s = .done (.sym (BitVec.ofNat 20 x)) u ∧
      walkAhead s s.remaining.toNat w (8 * k) = .sym x (8 * k + j)) ∨
    (∃ u, u.remaining = s.remaining ∧ decodeLoop (n + 1) s = .raised .unexpectedEOF u ∧
      ((∃ used, walkAhead s s.remaining.toNat w (8 * k) = .unexpectedEOF used) ∨
        ∃ j, 1 ≤ j ∧ j ≤ 8 ∧ walkAhead s s.remaining.toNat w (8 * k) = .invalidCode (8 * k + j))) := by
  have havail : availBits s = s.remaining.toNat := min_eq_right h8.le
  obtain ⟨u, hr, hsame, hb, hacc⟩ := refill_of_source hs.bound le_rfl h8.le hsource
  have hu := walking_same hsame hb hs
  have hrem : u.remaining = s.remaining := same_remaining hsame
  have hslot : (rev8 (lookahead s.remaining.toNat u)).toNat < tableSize := BitVec.isLt _
  have hbits : ∀ j, j ≤ s.remaining.toNat →
      afterBits w ((streamBits u.src.bytes (bitpos u) s.remaining.toNat).take j)
        = slotValue w (rev8 (lookahead s.remaining.toNat u)).toNat j := fun j hj => by
    rw [streamBits_take hj]
    exact afterBits_streamBits h8.le (fun i hi => by rw [lookahead_bit hb hacc h8.le]; simp [hi]) hj
  rw [decodeLoop, if_neg hne, havail, hr, ← walkAhead_same hsame, walkAhead, ← same_nsym hsame]
  obtain ⟨j, x, hj, hx, hentry, hwalk⟩ | ⟨hshort, hwalk⟩ :=
    short_probe_cases hu.onTable.ofCode hu.legal hu.reached hu.value_lt hslot (streamBits_length _ _ _)
      (Nat.pos_of_ne_zero (toNat_ne_zero hne)) h8 hbits
  · have hlen : (BitVec.ofNat 4 j).toNat = j := Nat.mod_eq_of_lt (by omega)
    have hprobe : probe s.remaining.toNat u = symbolEntry j x := hentry
    refine .inl ⟨consume j u, j, x, hx, ?_, ?_, hwalk⟩
    · rw [consume_remaining_toNat (hrem ▸ hj), hrem, Nat.sub_add_cancel hj]
    · simp [hprobe, symbolEntry, shortProbeFails, hlen, hj]
  · refine .inr ⟨u, hrem, if_pos hshort, ?_⟩
    obtain hwalk | ⟨j, hj1, hj, hwalk⟩ := hwalk
    · exact .inl ⟨_, hwalk⟩
    · exact .inr ⟨j, hj1, by omega, hwalk⟩

/-- The loop ends cleanly only at the root: after a number of continuations that LEVEL counts as 0
(spec/42_decode.md R203). -/
theorem decodeLoop_ended (hd : decodeLoop n s = .done .ended t) :
    ∃ j, s.remaining.toNat = 8 * j ∧ s.level + BitVec.ofNat 2 j = 0 := by
  induction n generalizing s with
  | zero => cases hd
  | succ n ih =>
    by_cases h0 : s.remaining = 0
    · rw [decodeLoop_exhausted h0] at hd
      split at hd
      next hroot => exact ⟨0, by rw [h0]; rfl, by rw [hroot]; rfl⟩
      next => cases hd
    obtain ⟨f, u, -, hturn⟩ | ⟨u, hr, hturn⟩ := decodeLoop_turn h0 n
    · rw [hturn] at hd; cases hd
    obtain ⟨-, hturn⟩ | ⟨hshort, ⟨-, hturn⟩ | ⟨hk, hturn⟩ | ⟨-, hturn⟩⟩ := hturn <;> rw [hturn] at hd
    · cases hd
    · cases hd
    · have hfull := (cont_probe_full hshort hk).trans (availBits_le s)
      rw [← same_remaining (refill_same hr)] at hfull ⊢
      obtain ⟨j, hrem, hlevel⟩ := ih hd
      rw [followCont_remaining_toNat hfull] at hrem
      refine ⟨j + 1, by omega, ?_⟩
      rw [followCont_level, same_level (refill_same hr)] at hlevel
      rw [← hlevel, BitVec.ofNat_add]
      ac_rfl
    · cases hd

/-- The decoder follows at most two continuations (spec/41_table_build.md R179 (e)). -/
theorem walking_depth (hs : Walking s w k) : k ≤ 2 := by
  have hslots := tableAt_slots_lt hs.reached
  have hentry := (entryAt_eq_some (i := 0) hslots).2 ⟨_, hs.reached, rfl⟩
  simpa [chunksFrom_length] using length_le_of_entryAt hs.onTable.ofCode hs.legal hslots hentry

/-! ### The loop on a source that has the budget -/

/-- The fault DecodeOne raises where the walk meets no code after `used` bits (spec/42_decode.md R207, R211). -/
def deadEndFault (s : State) (used : Nat) : ReaderFault :=
  if s.remaining.toNat - 8 * ((used - 1) / 8) < 8 then .unexpectedEOF else .invalidCode

/-- What DecodeOne from state `s` makes of the walk over the bits of a budget that the source has
(spec/42_decode.md R211). -/
def DecodesAsWalked (s : State) (r : Run Decoded) : Walked → Prop
  | .sym x used => x < s.nsym.toNat ∧
      ∃ t, r = .done (.sym (BitVec.ofNat 20 x)) t ∧ t.remaining.toNat + used = s.remaining.toNat
  | .ended => ∃ t, r = .done .ended t ∧ t.remaining = s.remaining
  | .unexpectedEOF _ =>
      ∃ t, r = .raised .unexpectedEOF t ∧ t.remaining.toNat + 8 * (s.remaining.toNat / 8) = s.remaining.toNat
  | .invalidCode used =>
      ∃ t, r = .raised (deadEndFault s used) t ∧ t.remaining.toNat + 8 * ((used - 1) / 8) = s.remaining.toNat

/-- DecodeOne from `s` has come to `u` in the table CUR, by `k` probes of 8 bits whose bits have the value `w`; the
loop goes on from there with enough turns `n`. -/
structure HasCome (s u : State) (w k n : Nat) : Prop where
  walking : Walking u w k
  goesOn : decodeOne s = decodeLoop n u
  enough : u.remaining.toNat / 8 < n
  remaining : u.remaining.toNat + 8 * k = s.remaining.toNat
  source : bitpos u + u.remaining.toNat ≤ 8 * u.src.bytes.length
  nsym : u.nsym = s.nsym

theorem walkAhead_zero (u : State) : walkAhead u 0 w k = if k = 0 then .ended else .unexpectedEOF k := rfl

/-- With no bit left: the clean end at the root, UnexpectedEOF below it, which LEVEL tells apart as no more than two
continuations were followed (spec/42_decode.md R203). -/
theorem decodesAsWalked_exhausted (h : HasCome s u w k n) (h0 : u.remaining.toNat = 0) :
    DecodesAsWalked s (decodeOne s) (walkAhead u u.remaining.toNat w (8 * k)) := by
  obtain ⟨n, rfl⟩ := Nat.exists_eq_succ_of_ne_zero (Nat.ne_of_gt (Nat.zero_lt_of_lt h.enough))
  have hzero : u.remaining = 0 := BitVec.eq_of_toNat_eq h0
  have hrem := h.remaining
  have hgo := h.goesOn
  rw [Nat.succ_eq_add_one, decodeLoop_exhausted hzero] at hgo
  rw [h0, walkAhead_zero]
  by_cases hk : k = 0
  · subst hk
    have hnone : s.remaining = 0 := BitVec.eq_of_toNat_eq (by simpa [h0] using hrem.symm)
    exact ⟨_, decodeOne_exhausted hnone, rfl⟩
  · have hbelow : u.level ≠ 0 := fun hroot => by
      rw [if_pos hroot] at hgo
      obtain ⟨j, hj, hlevel⟩ := decodeLoop_ended (s := startSymbol s) hgo
      have hjk : j = k := by
        rw [startSymbol_remaining] at hj
        omega
      have hdepth := walking_depth h.walking
      have hwrap : k % 4 = 0 := by simpa [hjk] using congrArg BitVec.toNat hlevel
      omega
    rw [if_neg hbelow] at hgo
    rw [if_neg (by omega), hgo]
    exact ⟨u, rfl, by omega⟩

/-- With fewer than 8 bits left, which the source has. -/
theorem decodesAsWalked_short (h : HasCome s u w k n) (h0 : u.remaining.toNat ≠ 0) (h8 : u.remaining.toNat < 8) :
    DecodesAsWalked s (decodeOne s) (walkAhead u u.remaining.toNat w (8 * k)) := by
  obtain ⟨n, rfl⟩ := Nat.exists_eq_succ_of_ne_zero (Nat.ne_of_gt (Nat.zero_lt_of_lt h.enough))
  have hrem := h.remaining
  rw [h.goesOn]
  obtain ⟨v, j, x, hx, hv, hloop, hwalk⟩ | ⟨v, hv, hloop, ⟨used, hwalk⟩ | ⟨j, h1, hj, hwalk⟩⟩ :=
    decodeLoop_short_probe h.walking (fun hz => h0 (by rw [hz]; rfl)) h8 h.source n <;>
    rw [hloop, hwalk]
  · exact ⟨h.nsym ▸ hx, v, rfl, by omega⟩
  · exact ⟨v, rfl, by rw [hv]; omega⟩
  · have hlevels : (8 * k + j - 1) / 8 = k := by omega
    have hfault : deadEndFault s (8 * k + j) = .unexpectedEOF := if_pos (by omega)
    exact ⟨v, by rw [hfault], by rw [hv, hlevels, hrem]⟩

/-- The loop goes as the walk goes over the bits that are left. -/
theorem decodesAsWalked_of_hasCome (h : HasCome s u w k n) :
    DecodesAsWalked s (decodeOne s) (walkAhead u u.remaining.toNat w (8 * k)) := by
  induction n generalizing u w k with
  | zero => exact absurd h.enough (Nat.not_lt_zero _)
  | succ n ih =>
    by_cases h0 : u.remaining.toNat = 0
    · exact decodesAsWalked_exhausted h h0
    by_cases h8 : u.remaining.toNat < 8
    · exact decodesAsWalked_short h h0 h8
    have hrem := h.remaining
    have hsource := h.source
    have henough := h.enough
    obtain ⟨m, hm⟩ := Nat.exists_eq_add_of_le (Nat.not_lt.1 h8)
    rw [hm]
    obtain ⟨v, w', hv, hvrem, hpos, hbytes, -, hvnsym, hloop, hwalk⟩ | ⟨v, j, x, -, hx, hvrem, hloop, hwalk⟩ |
        ⟨v, j, h1, hj, hvrem, hloop, hwalk⟩ := decodeLoop_full_probe h.walking (by omega) (by omega) n m
    · have hvm : v.remaining.toNat = m := by omega
      rw [hwalk, ← hvm]
      exact ih ⟨hv, h.goesOn.trans hloop, by omega, by omega, by rw [hpos, hbytes]; omega, hvnsym.trans h.nsym⟩
    · rw [hwalk, h.goesOn, hloop]
      exact ⟨h.nsym ▸ hx, v, rfl, by omega⟩
    · have hlevels : (8 * k + j - 1) / 8 = k := by omega
      have hfault : deadEndFault s (8 * k + j) = .invalidCode := if_neg (by omega)
      rw [hwalk, h.goesOn, hloop]
      exact ⟨v, by rw [hfault], by rw [hvrem, hlevels, hrem]⟩

theorem decodeOne_decodesAsWalked (hs : Inv s) (hvalid : s.tstate = .valid) (hmatch : TableMatchesCode s)
    (hact : s.rstate = .active) (hsource : bitpos s + s.remaining.toNat ≤ 8 * s.src.bytes.length) :
    DecodesAsWalked s (decodeOne s) (walkOne (codeOf s) s.nsym.toNat (budgetedBits s)) :=
  decodesAsWalked_of_hasCome (s := s) (u := startSymbol s)
    ⟨walking_start hs hvalid hmatch hact, rfl, Nat.lt_succ_self _, rfl, hsource, rfl⟩

/-- On a source shorter than the budget: as the walk goes over the whole probes of 8 bits that the source has. -/
theorem decodeOne_endsAsWalked (hs : Inv s) (hvalid : s.tstate = .valid) (hmatch : TableMatchesCode s)
    (hact : s.rstate = .active) (hshort : 8 * s.src.bytes.length < bitpos s + s.remaining.toNat) :
    EndsAsWalked s ((8 * s.src.bytes.length - bitpos s) / 8) (decodeOne s) (walkOne (codeOf s) s.nsym.toNat
      (streamBits s.src.bytes (bitpos s) (8 * ((8 * s.src.bytes.length - bitpos s) / 8)))) := by
  have hloop := decodeLoop_endsAsWalked (n := s.remaining.toNat / 8 + 1) (walking_start hs hvalid hmatch hact)
    hshort rfl (Nat.lt_succ_of_le (Nat.div_le_div_right (Nat.sub_le_iff_le_add'.2 hshort.le))) rfl rfl rfl
  rwa [Nat.zero_add] at hloop

/-- A source that has the whole budget has what is left of it. -/
theorem rest_in_source (hs : Inv s) (hact : s.rstate = .active) (hsource : s.budget0.toNat ≤ 8 * s.src.bytes.length) :
    bitpos s + s.remaining.toNat ≤ 8 * s.src.bytes.length := by
  have hle := (hs.reader.bounds hact).remaining_le
  unfold bitpos
  omega

theorem toNat_sym {y : Nat} (hn : s.nsym.toNat ≤ maxSym) (hy : y < s.nsym.toNat) : (BitVec.ofNat 20 y).toNat = y :=
  Nat.mod_eq_of_lt (hy.trans_le hn)

/-- Only where the walk finds a symbol is one resolved. -/
theorem sym_of_walked {x : Sym} {walked : Walked} {whole : Nat} (hn : s.nsym.toNat ≤ maxSym)
    (h : DecodesAsWalked s (.done (.sym x) t) walked ∨ EndsAsWalked s whole (.done (.sym x) t) walked) :
    ∃ used, walked = .sym x.toNat used ∧ t.remaining.toNat + used = s.remaining.toNat := by
  cases walked
  case sym y used =>
    obtain ⟨hy, u, hu, hrem⟩ : DecodesAsWalked s (.done (.sym x) t) (.sym y used) := h.elim id id
    cases hu
    exact ⟨used, by rw [toNat_sym hn hy], hrem⟩
  all_goals obtain ⟨u, ⟨⟩, -⟩ | ⟨u, ⟨⟩, -⟩ := h

/-- Whatever the source, a symbol that DecodeOne resolves is the walk's, and its bits are the source's. -/
theorem walkOne_of_decodeOne_sym {x : Sym} (hs : Inv s) (hvalid : s.tstate = .valid) (hmatch : TableMatchesCode s)
    (hact : s.rstate = .active) (hd : decodeOne s = .done (.sym x) t) :
    ∃ used, walkOne (codeOf s) s.nsym.toNat (budgetedBits s) = .sym x.toNat used ∧
      t.remaining.toNat + used = s.remaining.toNat ∧ bitpos s + used ≤ 8 * s.src.bytes.length := by
  by_cases hsource : bitpos s + s.remaining.toNat ≤ 8 * s.src.bytes.length
  · have hends := decodeOne_decodesAsWalked hs hvalid hmatch hact hsource
    rw [hd] at hends
    obtain ⟨used, hwalk, hrem⟩ := sym_of_walked (whole := 0) hs.code.nsym_le (.inl hends)
    exact ⟨used, hwalk, hrem, by omega⟩
  · have hends := decodeOne_endsAsWalked hs hvalid hmatch hact (Nat.not_le.1 hsource)
    rw [hd] at hends
    obtain ⟨used, hwalk, hrem⟩ := sym_of_walked hs.code.nsym_le (.inr hends)
    obtain ⟨hle, hrest⟩ := walkFrom_sym hwalk
    rw [streamBits_length] at hle
    have hpending := bitpos_add_nacc_le (bound_of_inv hs hact)
    refine ⟨used, ?_, hrem, by omega⟩
    obtain ⟨m, hm⟩ := Nat.exists_eq_add_of_le
      (show 8 * ((8 * s.src.bytes.length - bitpos s) / 8) ≤ s.remaining.toNat by omega)
    rw [budgetedBits, hm, streamBits_add]
    exact hrest _

end

/-- Settles O32: the loop goes as the walk goes, probe by probe. -/
theorem decodeOneIsThePrefixWalk : Obligations.DecodeOneIsThePrefixWalk := by
  intro s hs hvalid hmatch hact
  refine ⟨fun hsource => ?_, fun x t hd => walkOne_of_decodeOne_sym hs hvalid hmatch hact hd⟩
  have hends := decodeOne_decodesAsWalked hs hvalid hmatch hact (rest_in_source hs hact hsource)
  have hout : ∀ f t, decodeOne s = .raised f t → t.out = s.out := fun f t hd => by
    simpa [hd, Run.state] using reading_out (decodeOne_sameButReading s)
  cases hw : walkOne (codeOf s) s.nsym.toNat (budgetedBits s) <;> rw [hw] at hends
  case sym x used => exact hends.2
  case ended => exact hends
  case unexpectedEOF used =>
    obtain ⟨t, hd, hrem⟩ := hends
    exact ⟨t, hd, hout _ t hd, hrem⟩
  case invalidCode used =>
    obtain ⟨t, hd, hrem⟩ := hends
    exact ⟨t, hd, hout _ t hd, hrem⟩

/-- Settles O33: DecodeOne resolves the walk's symbol. -/
theorem decSymEmitsTheNextSymbol : Obligations.DecSymEmitsTheNextSymbol := by
  intro s x used hs hvalid hmatch hact hfree hsource hw
  have hends := decodeOne_decodesAsWalked hs hvalid hmatch hact (rest_in_source hs hact hsource)
  rw [hw] at hends
  obtain ⟨hx, t, hd, hrem⟩ := hends
  have hsym := decSym_of_sym ((decoderReady_of_valid hvalid).trans (readerReady_of_unlatched hact hfree))
    (hx.trans_le hs.code.nsym_le) hd hrem
  obtain ⟨t', hexec, hout, hcnt, hrerr, hrem', hresp⟩ := hsym
  exact ⟨t', hexec, hout, hcnt, hrem', hrerr.trans hfree, hresp⟩

/-- Settles O55: DecodeOne raises the fault of the walk, and both commands latch it. -/
theorem failedDecodesKeepContinuationsConsumed : Obligations.FailedDecodesKeepContinuationsConsumed := by
  intro s hs hvalid hmatch hact hfree hsource
  have hready := (decoderReady_of_valid hvalid).trans (readerReady_of_unlatched hact hfree)
  have hends := decodeOne_decodesAsWalked hs hvalid hmatch hact (rest_in_source hs hact hsource)
  refine ⟨fun used hw => ?_, fun used hw => ?_⟩ <;> rw [hw] at hends <;> obtain ⟨t, hd, hrem⟩ := hends
  · exact decodesFault_of_raised hready hfree hd hrem
  · have hfault := decodesFault_of_raised hready hfree hd hrem
    rwa [deadEndFault, apply_ite readerFaultCode] at hfault

end Sys2Proof.Machine
end

section
/-! SUPPORT, and the proof of O34. The walk over a codeword of a Code that has a table finds its symbol, so DEC_RUN over
the codewords of a sequence emits the sequence (spec/20_memory.md R64, spec/42_decode.md R209, R212). -/

namespace Sys2Proof.Machine

open Sys2Proof.Config

/-! ### The walk over a codeword -/

section

variable {c : CodeEntry} {code : Nat → CodeEntry} {n x j : Nat} {t : Memory Entry}

theorem codewordBits_length (c : CodeEntry) : (codewordBits c).length = c.len.toNat := by simp [codewordBits]

/-- The first bits of a codeword are the high bits of its value (spec/20_memory.md R64). -/
theorem afterBits_codewordBits (hc : codeEntryLegal c) (hj : j ≤ c.len.toNat) :
    afterBits 0 ((codewordBits c).take j) = c.value.toNat >>> (c.len.toNat - j) := by
  rw [codewordBits, ← List.map_take, List.take_range, min_eq_left hj]
  induction j with
  | zero => rw [Nat.shiftRight_eq_div_pow, Nat.sub_zero, Nat.div_eq_of_lt hc.2]; rfl
  | succ j ih =>
    have hbit : c.value.getLsbD (c.len.toNat - 1 - j) = c.value.toNat.testBit (c.len.toNat - (j + 1)) := by
      rw [BitVec.testBit_toNat, Nat.sub_sub, Nat.add_comm 1 j]
    have hnext : c.value.toNat >>> (c.len.toNat - j) = c.value.toNat >>> (c.len.toNat - (j + 1)) / 2 := by
      rw [← Nat.shiftRight_succ]
      congr 1; omega
    rw [List.range_succ, List.map_append, afterBits, List.foldl_append]
    change 2 * afterBits 0 _ + (c.value.getLsbD (c.len.toNat - 1 - j)).toNat = _
    rw [ih (by omega), hbit, hnext, Nat.toNat_testBit, ← Nat.shiftRight_eq_div_pow, Nat.div_add_mod]

/-- The walk over a codeword finds its symbol, and no other sooner, as no code starts another (spec/42_decode.md R211,
R212). -/
theorem walkOne_codeword (ht : TableOfCode code n t) (hn : n ≤ maxSym) (hlegal : ∀ y, codeEntryLegal (code y))
    (hx : x < n) (hused : (code x).len ≠ 0) (rest : List Bool) :
    walkOne code n (codewordBits (code x) ++ rest) = .sym x (code x).len.toNat := by
  have hpos := Nat.pos_of_ne_zero (toNat_ne_zero hused)
  have hbits := fun j => afterBits_codewordBits (j := j) (hlegal x)
  have hcases := walkFrom_append_cases code n 0 0 (codewordBits (code x)) rest
  simp only [codewordBits_length, Nat.zero_add] at hcases
  obtain ⟨hnone, -⟩ | ⟨j, y, hj1, hj, hsym, hwalk⟩ | ⟨j, -, hj, -, hdead, -⟩ := hcases
  · have hend := hnone _ hpos (codewordBits_length _).ge
    rw [Nat.zero_add, hbits _ le_rfl, Nat.sub_self] at hend
    exact absurd hend (symbolWith_ne_none hx rfl rfl)
  · rw [hbits j hj] at hsym
    obtain ⟨hy, hlen, hvalue⟩ := symbolWith_some hsym
    have hyused : (code y).len ≠ 0 := fun h0 => by rw [h0] at hlen; exact absurd hlen.symm (Nat.ne_of_gt hj1)
    have hstarts : StartsWith (code x) (code y) := ⟨hlen ▸ hj, by rw [hlen, hvalue]⟩
    have hsame : y = x := not_not.1 fun hne => not_startsWith_of_tableOfCode ht hn hy hx hne hyused hused hstarts
    rw [walkOne, hwalk, ← hlen, hsame]
  · rw [hbits j hj, someCodeStarts_iff.2 ⟨x, hx, hj, rfl⟩] at hdead
    cases hdead

end

/-! ### DEC_RUN over codewords -/

/-- The decoder has a table of its Code, and its source the budget: what O34 rests on, and every symbol keeps. -/
structure CanDecode (s : State) : Prop where
  inv : Inv s
  valid : s.tstate = .valid
  tables : TableMatchesCode s
  active : s.rstate = .active
  unlatched : s.rerr = 0
  source : s.budget0.toNat ≤ 8 * s.src.bytes.length

section

variable {s u : State} {x : Sym} {bits : List Bool}

theorem canDecode_emit (hs : CanDecode s) (hd : decodeOne s = .done (.sym x) u) : CanDecode (emit x u) := by
  have hread : SameButReading s u := by simpa [hd, Run.state] using decodeOne_sameButReading s
  have hadv := emit_decoded_advances hs.active hd
  have hkept := tablesKept_trans (decodeOne_tablesKept hd) (tablesKept_emit x u)
  refine ⟨hadv.inv hs.inv, hkept.tstate.trans hs.valid, tableMatchesCode_kept hkept hs.tables,
    (reading_rstate hread).trans hs.active, hadv.rerr.trans hs.unlatched, ?_⟩
  rw [emit_budget0, emit_src, reading_budget0 hread, reading_bytes hread]
  exact hs.source

/-- What is left of the budget after the symbol is what follows its bits. -/
theorem budgetedBits_emit {used : Nat} (hs : CanDecode s) (hd : decodeOne s = .done (.sym x) u)
    (hrem : u.remaining.toNat + used = s.remaining.toNat) : budgetedBits (emit x u) = (budgetedBits s).drop used := by
  have hread : SameButReading s u := by simpa [hd, Run.state] using decodeOne_sameButReading s
  have hle := (hs.inv.reader.bounds hs.active).remaining_le
  have hpos : bitpos (emit x u) = bitpos s + used := by
    rw [bitpos, bitpos, emit_budget0, emit_remaining, reading_budget0 hread]
    omega
  rw [budgetedBits, budgetedBits, hpos, ← hrem, Nat.add_comm u.remaining.toNat used, streamBits_add, emit_src, emit_remaining,
    reading_bytes hread, List.drop_left' (streamBits_length _ _ _)]

/-- DecodeOne where a codeword comes next resolves its symbol and takes its bits (spec/42_decode.md R212). -/
theorem decodeOne_of_codeword (hs : CanDecode s) (hused : UsedSymbol s x)
    (hbits : budgetedBits s = codewordBits (codeOf s x.toNat) ++ bits) :
    ∃ u, decodeOne s = .done (.sym x) u ∧ CanDecode (emit x u) ∧ codeOf (emit x u) = codeOf s ∧
      (emit x u).nsym = s.nsym ∧ (emit x u).out = s.out ++ [x] ∧ budgetedBits (emit x u) = bits := by
  have hends := decodeOne_decodesAsWalked hs.inv hs.valid hs.tables hs.active
    (rest_in_source hs.inv hs.active hs.source)
  rw [hbits, walkOne_codeword (hs.tables hs.valid) hs.inv.code.nsym_le (codeOf_legal hs.inv.code) hused.1 hused.2] at hends
  obtain ⟨-, u, hd, hrem⟩ := hends
  rw [BitVec.ofNat_toNat, BitVec.setWidth_eq] at hd
  have hkept := tablesKept_trans (decodeOne_tablesKept hd) (tablesKept_emit x u)
  refine ⟨u, hd, canDecode_emit hs hd, codeOf_kept hkept, hkept.nsym, (emit_decoded_advances hs.active hd).out, ?_⟩
  rw [budgetedBits_emit hs hd hrem, hbits, List.drop_left' (codewordBits_length _)]

theorem remaining_of_no_bits (h : budgetedBits s = []) : s.remaining = 0 := by
  have hlen := congrArg List.length h
  rw [budgetedBits, streamBits_length] at hlen
  exact BitVec.eq_of_toNat_eq hlen

/-- The loop of DEC_RUN emits a sequence from its codewords; with more quota than symbols it then meets the end. -/
theorem decodeRun_of_codewords {syms : List Sym} {left cnt : Nat} (hs : CanDecode s)
    (hused : ∀ x ∈ syms, UsedSymbol s x)
    (hbits : budgetedBits s = (syms.map fun x => codewordBits (codeOf s x.toNat)).flatten) (hle : syms.length ≤ left) :
    ∃ t, decodeRun left cnt s = .next t ∧ t.out = s.out ++ syms ∧ t.remaining = 0 ∧ t.rerr = 0 ∧
      t.response = some (responseWord (if syms.length = left then 0x00 else 0x01)
        (BitVec.ofNat 56 (cnt + syms.length))) := by
  induction syms generalizing s left cnt with
  | nil =>
    have hrem := remaining_of_no_bits hbits
    cases left with
    | zero => exact ⟨_, rfl, (List.append_nil _).symm, hrem, hs.unlatched, rfl⟩
    | succ left =>
      rw [decodeRun, decodeOne_exhausted hrem]
      exact ⟨_, rfl, (List.append_nil _).symm, hrem, hs.unlatched, rfl⟩
  | cons x syms ih =>
    obtain ⟨left, rfl⟩ := Nat.exists_eq_succ_of_ne_zero (Nat.ne_of_gt (Nat.zero_lt_of_lt hle))
    obtain ⟨u, hd, hu, hcode, hnsym, hout, hrest⟩ := decodeOne_of_codeword hs (hused x List.mem_cons_self) hbits
    obtain ⟨t, hrun, htout, hrem, hrerr, hresp⟩ := ih (left := left) (cnt := cnt + 1) hu
      (fun y hy => by rw [UsedSymbol, hcode, hnsym]; exact hused y (List.mem_cons_of_mem x hy))
      (by rw [hcode]; exact hrest) (Nat.le_of_succ_le_succ hle)
    refine ⟨t, ?_, by rw [htout, hout, List.append_assoc, List.singleton_append], hrem, hrerr, ?_⟩
    · rw [Nat.succ_eq_add_one, decodeRun, hd]
      exact hrun
    · rw [hresp, Nat.add_assoc]
      simp only [List.length_cons, Nat.succ_eq_add_one, Nat.add_right_cancel_iff, Nat.add_comm 1]

end

/-- Settles O34: DecodeOne resolves one codeword after the other, up to the quota or the end of the budget. -/
theorem encodedSequenceDecodesBack : Obligations.EncodedSequenceDecodesBack := by
  intro s syms quota hs hvalid hmatch hact hfree hsource hused hbits hle
  obtain ⟨t, hrun, hout, hrem, hrerr, hresp⟩ := decodeRun_of_codewords (cnt := 0)
    ⟨hs, hvalid, hmatch, hact, hfree, hsource⟩ hused hbits hle
  rw [Nat.zero_add] at hresp
  have hready := (decoderReady_of_valid hvalid).trans (readerReady_of_unlatched hact hfree)
  exact ⟨t, (exec_decRun_of_ready hready).trans hrun, hout, hrem, hrerr, hresp⟩

end Sys2Proof.Machine
end

section
/-! SUPPORT, and the proofs of O36 and O46. What the loop of DEC_RUN adds to OUT and how it counts it, and what the decode
commands leave (spec/42_decode.md R203, R208, R209). -/

namespace Sys2Proof.Machine

open Sys2Proof.Config

/-! ### What DEC_RUN emits -/

/-- From `s` to `t` the symbols `l` were emitted, each of which consumed a bit, and counted. -/
structure EmitsCounted (s t : State) (l : List Sym) : Prop where
  out : t.out = s.out ++ l
  consumed : l.length + t.remaining.toNat ≤ s.remaining.toNat
  counted : t.outcnt.toNat = s.outcnt.toNat + l.length

section

variable {s t u : State} {code : BitVec 8} {result : Word56} {f : ReaderFault} {x : Sym}

theorem emitsCounted_trans {l l' : List Sym} (h1 : EmitsCounted s u l) (h2 : EmitsCounted u t l') :
    EmitsCounted s t (l ++ l') where
  out := by rw [h2.out, h1.out, List.append_assoc]
  consumed := by
    have hfirst := h1.consumed
    have hnext := h2.consumed
    rw [List.length_append]; omega
  counted := by rw [h2.counted, h1.counted, List.length_append, Nat.add_assoc]

theorem emitsCounted_respond (h : respond code result s = .next t) : EmitsCounted s t [] := by
  rw [eq_of_respond h]
  exact ⟨(List.append_nil _).symm, (Nat.zero_add _).le, rfl⟩

theorem emitsCounted_raise (h : raiseReader f result s = .next t) : EmitsCounted s t [] := by
  rw [eq_of_respond h]
  exact ⟨by simp, by simp, by simp⟩

/-- DecodeOne emits nothing itself, and gives no bit back. -/
theorem emitsCounted_decodeOne {r : Run Decoded} (hs : Inv s) (hact : s.rstate = .active) (hd : decodeOne s = r) :
    EmitsCounted s r.state [] := by
  subst hd
  have hread := decodeOne_sameButReading s
  obtain ⟨-, hle, -⟩ := decodeOne_bound (bound_of_inv hs hact) (tableInv_tablesLegal hs.tables)
  exact ⟨by rw [reading_out hread, List.append_nil], by simpa using hle, by rw [reading_outcnt hread]; rfl⟩

/-- A symbol consumes at least one bit, so OUTCNT counts it without wrapping (spec/10_state.md R24 (e)). -/
theorem emitsCounted_emit (hs : Inv s) (hact : s.rstate = .active) (hd : decodeOne s = .done (.sym x) u) :
    EmitsCounted s (emit x u) [x] := by
  have hread : SameButReading s u := by simpa [hd, Run.state] using decodeOne_sameButReading s
  have hlt := (decodeOne_bound (bound_of_inv hs hact) (tableInv_tablesLegal hs.tables)).2.2 x u hd
  have hcnt := (hs.reader.bounds hact).outcnt_le
  have hmax := s.budget0.isLt
  refine ⟨by rw [emit_out, reading_out hread], by rw [emit_remaining, List.length_singleton]; omega, ?_⟩
  rw [emit_outcnt, reading_outcnt hread]
  exact BitVec.toNat_add_of_lt (by simp; omega)

theorem responseResult_of_count {cnt : Nat} (hcnt : cnt < 2 ^ 56) (h : respond code (BitVec.ofNat 56 cnt) s = .next t) :
    (responseResult t).toNat = cnt := by
  rw [responseResult_of_respond h]
  exact Nat.mod_eq_of_lt hcnt

/-- The result of the loop of DEC_RUN is how many symbols it had emitted and now emits. -/
theorem decodeRun_emitsCounted {left cnt : Nat} (hs : Inv s) (hact : s.rstate = .active) (hfits : cnt + left < 2 ^ 56)
    (h : decodeRun left cnt s = .next t) :
    ∃ l, EmitsCounted s t l ∧ (responseResult t).toNat = cnt + l.length ∧ l.length ≤ left := by
  have hcnt : cnt < 2 ^ 56 := (Nat.le_add_right _ _).trans_lt hfits
  induction left generalizing cnt s with
  | zero => exact ⟨[], emitsCounted_respond h, responseResult_of_count hcnt h, le_rfl⟩
  | succ left ih =>
    obtain ⟨f, u, hd, hrun⟩ | ⟨u, hd, hrun⟩ | ⟨x, u, hd, hrun⟩ := decodeRun_succ left cnt s <;> rw [hrun] at h
    · exact ⟨[], emitsCounted_trans (emitsCounted_decodeOne hs hact hd) (emitsCounted_raise h),
        responseResult_of_count hcnt h, Nat.zero_le _⟩
    · exact ⟨[], emitsCounted_trans (emitsCounted_decodeOne hs hact hd) (emitsCounted_respond h),
        responseResult_of_count hcnt h, Nat.zero_le _⟩
    · have hread : SameButReading s u := by simpa [hd, Run.state] using decodeOne_sameButReading s
      obtain ⟨l, hl, hresult, hleft⟩ := ih ((emit_decoded_advances hact hd).inv hs) ((reading_rstate hread).trans hact)
        (by omega) h (by omega)
      exact ⟨x :: l, emitsCounted_trans (emitsCounted_emit hs hact hd) hl, by rw [hresult, List.length_cons]; omega,
        Nat.succ_le_succ hleft⟩

end

/-- Settles O36: each turn that goes on has emitted one symbol, consumed a bit and counted one. -/
theorem decRunResultIsTheNumberEmitted : Obligations.DecRunResultIsTheNumberEmitted := by
  intro s t quota hs h
  cases hready : decoderReady s with
  | some code =>
    rw [exec_decRun_of_not_ready hready] at h
    have hnone := emitsCounted_respond h
    exact ⟨[], hnone.out, by rw [responseResult_of_respond h]; rfl, Nat.zero_le _, fun _ => ⟨hnone.consumed, hnone.counted⟩⟩
  | none =>
    rw [exec_decRun_of_ready hready] at h
    obtain ⟨l, hl, hresult, hquota⟩ := decodeRun_emitsCounted hs (active_of_decoderReady hready)
      (by rw [Nat.zero_add]; exact quota.isLt) h
    exact ⟨l, hl.out, by rw [hresult, Nat.zero_add], hquota, fun _ => ⟨hl.consumed, hl.counted⟩⟩

/-! ### The frame of DEC_SYM and DEC_RUN -/

/-- Two states that agree in everything but the registers of the reader and decoder, RERR, OUT, the source's choices and
the response. -/
def SameButDecoder (s t : State) : Prop :=
  t = { s with acc := t.acc, nacc := t.nacc, remaining := t.remaining, srcpos := t.srcpos,
               outcnt := t.outcnt, cur := t.cur, level := t.level, rerr := t.rerr, out := t.out,
               src := { s.src with chunks := t.src.chunks }, draws := t.draws, response := t.response }

section

variable {s t u : State} {code : BitVec 8} {result : Word56} {f : ReaderFault} {x : Sym}

theorem sameButDecoder_trans (h1 : SameButDecoder s u) (h2 : SameButDecoder u t) : SameButDecoder s t := by
  unfold SameButDecoder at h1 h2
  rw [h1] at h2
  exact h2

theorem sameButDecoder_reading (h : SameButReading s u) : SameButDecoder s u := by
  obtain ⟨_, _, _, _, _, _, _, _, rfl⟩ := h
  rfl

theorem sameButDecoder_decodeOne {r : Run Decoded} (hd : decodeOne s = r) : SameButDecoder s r.state :=
  hd ▸ sameButDecoder_reading (decodeOne_sameButReading s)

theorem sameButDecoder_emit (x : Sym) (s : State) : SameButDecoder s (emit x s) := rfl

theorem sameButDecoder_respond (h : respond code result s = .next t) : SameButDecoder s t := by
  rw [eq_of_respond h]; rfl

theorem sameButDecoder_raise (h : raiseReader f result s = .next t) : SameButDecoder s t := by
  refine sameButDecoder_trans (u := latch f s) ?_ (sameButDecoder_respond h)
  unfold latch
  split <;> rfl

theorem decodeRun_sameButDecoder {left cnt : Nat} (h : decodeRun left cnt s = .next t) : SameButDecoder s t := by
  induction left generalizing cnt s with
  | zero => exact sameButDecoder_respond h
  | succ left ih =>
    obtain ⟨f, u, hd, hrun⟩ | ⟨u, hd, hrun⟩ | ⟨x, u, hd, hrun⟩ := decodeRun_succ left cnt s <;> rw [hrun] at h
    · exact sameButDecoder_trans (sameButDecoder_decodeOne hd) (sameButDecoder_raise h)
    · exact sameButDecoder_trans (sameButDecoder_decodeOne hd) (sameButDecoder_respond h)
    · exact sameButDecoder_trans (sameButDecoder_decodeOne hd) (sameButDecoder_trans (sameButDecoder_emit x u) (ih h))

theorem decRun_sameButDecoder {quota : Word56} (h : exec (.decRun quota) s = .next t) : SameButDecoder s t := by
  simp only [exec, execDecRun] at h
  split at h
  next => exact sameButDecoder_respond h
  next => exact decodeRun_sameButDecoder h

theorem decSym_sameButDecoder (h : exec .decSym s = .next t) : SameButDecoder s t := by
  simp only [exec, execDecSym] at h
  split at h
  next => exact sameButDecoder_respond h
  next =>
    split at h
    next hd => exact sameButDecoder_trans (sameButDecoder_decodeOne hd) (sameButDecoder_raise h)
    next hd => exact sameButDecoder_trans (sameButDecoder_decodeOne hd) (sameButDecoder_respond h)
    next hd =>
      exact sameButDecoder_trans (sameButDecoder_decodeOne hd)
        (sameButDecoder_trans (sameButDecoder_emit _ _) (sameButDecoder_respond h))

end

/-- Settles O46: CODE and TABLE are among what the decoder leaves. -/
theorem decodesChangeOnlyReaderAndOut : Obligations.DecodesChangeOnlyReaderAndOut := by
  intro s t quota h
  have hframe : SameButDecoder s t := h.elim decSym_sameButDecoder decRun_sameButDecoder
  have hkept : TablesKept s t := h.elim decSym_tablesKept decRun_tablesKept
  exact ⟨hframe, fun sym => by rw [codeOf_kept hkept], fun h i => by rw [hkept.table]⟩

end Sys2Proof.Machine
end

section
/-! SUPPORT, and the proof of O37. The index of a probe is the next stream bits from the top (spec/30_encoding.md R118), so
the entry they select decides what the first probe of a symbol does (spec/42_decode.md R202, R205 to R207). -/

namespace Sys2Proof.Machine

open Sys2Proof.Config

section

variable {bytes : List Byte} {pos avail : Nat} {p : BitVec 8} {s u : State}

/-- The index is the value of the bits, moved up to the top of 8. -/
theorem streamIndex_eq (h8 : avail ≤ 8) :
    streamIndex bytes pos avail = afterBits 0 (streamBits bytes pos avail) * 2 ^ (8 - avail) := by
  induction avail with
  | zero => simp [streamIndex, streamBits, afterBits]
  | succ n ih =>
    have hpow : 2 ^ (8 - n) = 2 * 2 ^ (7 - n) := by rw [show 8 - n = 7 - n + 1 by omega, pow_succ, Nat.mul_comm]
    have hnext : streamIndex bytes pos (n + 1)
        = streamIndex bytes pos n + (streamBit bytes (pos + n)).toNat * 2 ^ (7 - n) := by
      simp [streamIndex, List.range_succ]
    have hbits : afterBits 0 (streamBits bytes pos (n + 1))
        = 2 * afterBits 0 (streamBits bytes pos n) + (streamBit bytes (pos + n)).toNat := by
      rw [streamBits_add, afterBits, List.foldl_append]; rfl
    rw [hnext, ih (by omega), hbits, hpow, show 8 - (n + 1) = 7 - n by omega]
    ring

/-- A lookahead of stream bits, 0 above them, selects the slot of their index (spec/42_decode.md R202). -/
theorem rev8_eq_streamIndex (h8 : avail ≤ 8)
    (hp : ∀ i, p.getLsbD i = (decide (i < avail) && streamBit bytes (pos + i))) :
    (rev8 p).toNat = streamIndex bytes pos avail := by
  have hlow : (rev8 p).toNat % 2 ^ (8 - avail) = 0 := by
    refine Nat.eq_of_testBit_eq fun i => ?_
    rw [Nat.testBit_mod_two_pow, Nat.zero_testBit, Bool.and_eq_false_imp]
    intro hi
    have hi : i < 8 - avail := of_decide_eq_true hi
    have hbit := rev8_bit p (j := 7 - i) (by omega)
    rw [show 7 - (7 - i) = i by omega, hp, decide_eq_false (by omega), Bool.false_and] at hbit
    exact hbit
  rw [streamIndex_eq h8, afterBits_streamBits h8 (fun i hi => by rw [hp]; simp [hi]) le_rfl, slotValue, Nat.zero_mul,
    Nat.zero_add, Nat.shiftRight_eq_div_pow, Nat.div_mul_cancel (Nat.dvd_of_mod_eq_zero hlow)]

/-- The first probe of a symbol on a source that has its bits finds the entry they select in the root. -/
theorem first_probe (hs : Inv s) (hact : s.rstate = .active)
    (hsource : bitpos s + availBits s ≤ 8 * s.src.bytes.length) :
    ∃ u, refill (availBits s) (startSymbol s) = .done () u ∧ SameButChunking (startSymbol s) u ∧
      probe (availBits s) u = tableRead s.table 0 (streamIndex s.src.bytes (bitpos s) (availBits s)) := by
  have h8 := availBits_le_eight s
  obtain ⟨u, hr, hsame, hb, hacc⟩ :=
    refill_of_source (startSymbol_bound (bound_of_inv hs hact)) (availBits_le s) h8 hsource
  refine ⟨u, hr, hsame, ?_⟩
  have hslot := rev8_eq_streamIndex h8 (lookahead_bit hb hacc h8)
  rw [probe, hslot, same_table hsame, same_cur hsame, same_bytes hsame, same_bitpos hsame]
  rfl

/-- DecodeOne, whose first probe meets the entry of `u` (spec/42_decode.md R203). -/
theorem decodeOne_of_first_probe (hrem : s.remaining ≠ 0)
    (hr : refill (availBits s) (startSymbol s) = .done () u) :
    (shortProbeFails (availBits s) (probe (availBits s) u) = true → decodeOne s = .raised .unexpectedEOF u) ∧
    (shortProbeFails (availBits s) (probe (availBits s) u) = false →
      ((probe (availBits s) u).kind = .empty → decodeOne s = .raised .invalidCode u) ∧
      ((probe (availBits s) u).kind = .symbol → decodeOne s =
        .done (.sym (probe (availBits s) u).payload) (consume (probe (availBits s) u).len.toNat u))) := by
  have havail : availBits (startSymbol s) = availBits s := rfl
  rw [decodeOne, decodeLoop, if_neg (show (startSymbol s).remaining ≠ 0 from hrem), havail, hr]
  refine ⟨fun hshort => if_pos hshort, fun hfull => ⟨fun hk => ?_, fun hk => ?_⟩⟩ <;> simp [hfull, hk]

end

/-- Settles O37: the first probe meets the entry that the next stream bits select, and acts on it. -/
theorem firstProbeOutcomes : Obligations.FirstProbeOutcomes := by
  intro s e hs hvalid hact hfree hrem hsource he
  have hready := (decoderReady_of_valid hvalid).trans (readerReady_of_unlatched hact hfree)
  obtain ⟨u, hr, hsame, hprobe⟩ := first_probe hs hact hsource
  obtain ⟨hshort, hfull⟩ := decodeOne_of_first_probe hrem hr
  have hentry : probe (availBits s) u = e := hprobe.trans he.symm
  rw [hentry] at hshort hfull
  have hu : u.remaining = s.remaining := (same_remaining hsame :)
  have hout : u.out = s.out := (same_out hsame :)
  have hrerr : u.rerr = 0 := (same_rerr hsame).trans hfree
  have hraised : ∀ f, decodeOne s = .raised f u →
      ∃ t, exec .decSym s = .next t ∧ t.rerr = readerFaultCode f ∧
        t.response = some (responseWord (readerFaultCode f) 0) ∧ t.remaining = s.remaining ∧ t.out = s.out :=
    fun f hd => ⟨_, (exec_decodes_of_raised hready hd).1.trans (raiseReader_of_unlatched hrerr 0), rfl, rfl, hu, hout⟩
  have hfails := shortProbeFails_iff (avail := availBits s) (e := e)
  refine ⟨fun h8 hk => ?_, fun h8 hlong => ?_, fun hk hfits => ?_⟩
  · have havail : availBits s = 8 := min_eq_left h8
    refine hraised _ ((hfull ?_).1 hk)
    rw [← Bool.not_eq_true, hfails, havail]
    exact fun h => absurd h.1 (lt_irrefl 8)
  · have havail : availBits s = s.remaining.toNat := min_eq_right h8.le
    refine hraised _ (hshort ?_)
    rw [hfails, havail]
    exact ⟨h8, hlong⟩
  · have hd := (hfull ?_).2 hk
    · refine ⟨_, exec_decSym_of_sym hready hd, hrerr, rfl, ?_, by rw [emit_out, consume_out, hout]⟩
      exact (consume_remaining_toNat (hu ▸ hfits)).trans (by rw [hu])
    · rw [← Bool.not_eq_true, hfails]
      rintro ⟨h8, hlong⟩
      exact hlong ⟨hk, by unfold availBits at h8 ⊢; omega⟩

end Sys2Proof.Machine
end

section
/-! SUPPORT, and the proof of O35. Decoding does not look at the response of the command before, so DEC_RUN after a DEC_SYM
goes on as the loop of DEC_RUN does after its first symbol (spec/42_decode.md R208, R209, spec/60_exceptions.md R271). -/

namespace Sys2Proof.Machine

open Sys2Proof.Config

/-! ### Decoding and the response before it -/

/-- The same machine with another response standing in the response register. -/
def withResponse (r : Option Word) (s : State) : State := { s with response := r }

/-- A procedure that ends alike, in a state changed by `f`. -/
def Run.onState {α : Type} (f : State → State) : Run α → Run α
  | .done a s => .done a (f s)
  | .raised e s => .raised e (f s)

section

variable {code : BitVec 8} {result : Word56} {f : ReaderFault}

theorem nextChunk_withResponse (r : Option Word) (k : Nat) (s : State) :
    nextChunk k (withResponse r s) = ((nextChunk k s).1, withResponse r (nextChunk k s).2) := by
  unfold nextChunk
  simp only [withResponse]
  cases s.src.chunks <;> rfl

theorem appendBytes_withResponse (r : Option Word) (bs : List Byte) (s : State) :
    appendBytes bs (withResponse r s) = withResponse r (appendBytes bs s) := by
  induction bs generalizing s with
  | nil => rfl
  | cons b bs ih => exact ih (appendByte b s)

theorem srcRead_withResponse (r : Option Word) (k : Nat) (s : State) :
    srcRead k (withResponse r s) = ((srcRead k s).1, withResponse r (srcRead k s).2) := by
  unfold srcRead
  rw [nextChunk_withResponse]
  simp only [withResponse]
  cases s.src.bytes.drop s.srcpos.toNat with
  | nil => cases s.src.ending <;> rfl
  | cons b bs => rfl

theorem refill_withResponse (r : Option Word) (want : Nat) (s : State) :
    refill want (withResponse r s) = (refill want s).onState (withResponse r) := by
  have hask : refillAsk (withResponse r s) = refillAsk s := rfl
  have hnacc : (withResponse r s).nacc = s.nacc := rfl
  rw [refill, refill, hask, hnacc, srcRead_withResponse]
  split
  next =>
    obtain ⟨answer, u⟩ := srcRead (refillAsk s) s
    cases answer with
    | bytes bs => exact congrArg (Run.done ()) (appendBytes_withResponse r bs u)
    | eos => rfl
    | err => rfl
  next => rfl

theorem decodeLoop_withResponse (r : Option Word) (n : Nat) (s : State) :
    decodeLoop n (withResponse r s) = (decodeLoop n s).onState (withResponse r) := by
  induction n generalizing s with
  | zero => rfl
  | succ n ih =>
    have havail : availBits (withResponse r s) = availBits s := rfl
    have hrem : (withResponse r s).remaining = s.remaining := rfl
    have hlevel : (withResponse r s).level = s.level := rfl
    rw [decodeLoop, decodeLoop, havail, hrem, hlevel, refill_withResponse]
    split
    next => split <;> rfl
    next =>
      cases refill (availBits s) s with
      | raised f u => rfl
      | done a u =>
        have hprobe : probe (availBits s) (withResponse r u) = probe (availBits s) u := rfl
        simp only [Run.onState, hprobe]
        split
        next => rfl
        next =>
          cases (probe (availBits s) u).kind with
          | symbol => rfl
          | empty => rfl
          | cont => exact ih (followCont (probe (availBits s) u) u)

theorem decodeOne_withResponse (r : Option Word) (s : State) :
    decodeOne (withResponse r s) = (decodeOne s).onState (withResponse r) :=
  decodeLoop_withResponse r _ (startSymbol s)

theorem raiseReader_withResponse (r : Option Word) (s : State) :
    raiseReader f result (withResponse r s) = raiseReader f result s := by
  have hrerr : (withResponse r s).rerr = s.rerr := rfl
  rw [raiseReader, raiseReader, latch, latch, hrerr]
  split <;> rfl

/-! ### One symbol more -/

theorem responseCode_of_respond {s t : State} (h : respond code result s = .next t) : responseCode t = code := by
  rw [eq_of_respond h]
  exact (Laws.EncodeFields.fields_of_append code result).1

/-- The outcome of a DEC_RUN, counting one symbol more. -/
def CountsOneMore (o o' : Host.Outcome State Fault Refusal) : Prop :=
  ∃ u, o = .next u ∧ o' = .next (withResponse (some (responseWord (responseCode u) (responseResult u + 1))) u)

theorem countsOneMore_respond (cnt : Nat) (s : State) :
    CountsOneMore (respond code (BitVec.ofNat 56 cnt) s) (respond code (BitVec.ofNat 56 (cnt + 1)) s) := by
  refine ⟨_, rfl, ?_⟩
  rw [responseCode_of_respond (s := s) (code := code) rfl, responseResult_of_respond (s := s) (code := code) rfl,
    BitVec.ofNat_add]
  rfl

/-- The loop of DEC_RUN from a count one higher, and with another response before it, ends alike but for the count. -/
theorem decodeRun_countsOneMore (r : Option Word) (left cnt : Nat) (s : State) :
    CountsOneMore (decodeRun left cnt (withResponse r s)) (decodeRun left (cnt + 1) s) := by
  induction left generalizing cnt s with
  | zero => exact countsOneMore_respond cnt s
  | succ left ih =>
    rw [decodeRun, decodeRun, decodeOne_withResponse]
    cases decodeOne s with
    | raised f u =>
      simp only [Run.onState, raiseReader_withResponse]
      exact countsOneMore_respond cnt (latch f u)
    | done d u =>
      cases d with
      | ended => exact countsOneMore_respond cnt u
      | sym x => exact ih (cnt + 1) (emit x u)

end

/-- Settles O35: DEC_SYM ends as the first turn of DEC_RUN's loop, and the rest of the loop is a DEC_RUN. -/
theorem decRunIsDecSymRepeated : Obligations.DecRunIsDecSymRepeated := by
  intro s t quota hvalid hact hfree
  have hready := (decoderReady_of_valid hvalid).trans (readerReady_of_unlatched hact hfree)
  refine ⟨exec_decRun_of_ready hready, fun hquota h => ?_⟩
  cases hd : decodeOne s with
  | raised f u =>
    obtain ⟨hsym, hrun⟩ := exec_decodes_of_raised hready hd
    rw [hsym] at h
    refine ⟨fun _ => (hrun quota hquota).trans h, fun hok => ?_⟩
    rw [responseCode_of_respond h] at hok
    cases f <;> cases hok
  | done d u =>
    cases d with
    | ended =>
      obtain ⟨hsym, hrun⟩ := exec_decodes_of_ended hready hd
      rw [hsym] at h
      refine ⟨fun _ => (hrun quota hquota).trans h, fun hok => ?_⟩
      rw [responseCode_of_respond h] at hok
      cases hok
    | sym x =>
      have hread : SameButReading s u := by simpa [hd, Run.state] using decodeOne_sameButReading s
      rw [exec_decSym_of_sym hready hd] at h
      refine ⟨fun hnot => absurd (responseCode_of_respond h) hnot, fun _ => ?_⟩
      have ht : t = withResponse (some (responseWord okCode (x.setWidth 56))) (emit x u) := eq_of_respond h
      have hready' : decoderReady t = none := by
        rw [ht]
        exact (decoderReady_of_valid ((reading_tstate hread).trans hvalid)).trans
          (readerReady_of_unlatched ((reading_rstate hread).trans hact) ((reading_rerr hread).trans hfree))
      obtain ⟨left, hleft⟩ := Nat.exists_eq_succ_of_ne_zero (toNat_ne_zero hquota)
      have hrest : (quota - 1).toNat = left := by
        rw [BitVec.toNat_sub_of_le (by simp [BitVec.le_def]; omega), hleft]; rfl
      rw [exec_decRun_of_ready hready', exec_decRun_of_ready hready, hrest, hleft, Nat.succ_eq_add_one, decodeRun, hd, ht]
      exact decodeRun_countsOneMore _ left 0 (emit x u)

end Sys2Proof.Machine
end

section
/-! SUPPORT, and the proofs of O8, O57, O9 and O44. The system commands: RESET leaves the state of power-on in front of its
own response, and RDREG, like TBL_RD, does nothing but respond (spec/43_system.md R230, R232). -/

namespace Sys2Proof.Machine

/-! ### RESET (O8, O57) -/

/-- RESET leaves the reset state in front of the environment it found, which now has its response (OK, 0). -/
theorem exec_reset (s : State) :
    exec .reset s = .next (resetKeepingEnvironment (withResponse (some (responseWord okCode 0)) s)) := rfl

/-- Settles O8: whatever environment the reset state stands in, its registers hold the reset values. -/
theorem resetCommandIsPowerOnReset : Obligations.ResetCommandIsPowerOnReset :=
  fun s => ⟨_, exec_reset s, resetKeepingEnvironment_resetValues _, rfl, rfl⟩

/-- Settles O57: the environment is what stood before RESET, but for the response. -/
theorem resetKeepsWhatIsNotItsOwn : Obligations.ResetKeepsWhatIsNotItsOwn := exec_reset

/-! ### RDREG and TBL_RD (O9, O44) -/

section

variable {s : State} {reg : BitVec 4}

theorem exec_rdreg_of_some {v : Word56} (h : readRegister reg s = some v) :
    exec (.rdreg reg) s = respond okCode v s := by
  rw [exec, execRdreg, h]

theorem exec_rdreg_of_none (h : readRegister reg s = none) : exec (.rdreg reg) s = refuse .illegalCommand s := by
  rw [exec, execRdreg, h]

theorem exec_rdreg_responds (reg : BitVec 4) (s : State) :
    ∃ code result, exec (.rdreg reg) s = respond code result s := by
  cases hread : readRegister reg s with
  | some v => exact ⟨_, _, exec_rdreg_of_some hread⟩
  | none => exact ⟨_, _, exec_rdreg_of_none hread⟩

theorem exec_tblRd_responds (handle : Handle) (idx : BitVec 8) (s : State) :
    ∃ code result, exec (.tblRd handle idx) s = respond code result s := by
  by_cases hvalid : s.tstate = .valid
  · obtain hge | hlt := le_or_gt s.ntab.toNat handle.toNat
    · exact ⟨_, _, exec_tblRd_of_ge hvalid hge⟩
    · exact ⟨_, _, exec_tblRd_of_lt hvalid hlt⟩
  · exact ⟨_, _, exec_tblRd_of_not_valid hvalid⟩

end

/-- Settles O9: each number of the list names its register. -/
theorem rdregReadsEveryRegister : Obligations.RdregReadsEveryRegister := by
  intro s reg v hlisted
  have hread : readRegister reg s = some v := by
    simp only [List.mem_cons, List.not_mem_nil, or_false, Prod.mk.injEq] at hlisted
    obtain ⟨rfl, rfl⟩ | ⟨rfl, rfl⟩ | ⟨rfl, rfl⟩ | ⟨rfl, rfl⟩ | ⟨rfl, rfl⟩ | ⟨rfl, rfl⟩ | ⟨rfl, rfl⟩ | ⟨rfl, rfl⟩ |
      ⟨rfl, rfl⟩ | ⟨rfl, rfl⟩ := hlisted <;> rfl
  exact exec_rdreg_of_some hread

/-- Settles O44: either command only responds, and a response is all that `respond` writes. -/
theorem inspectionChangesNothing : Obligations.InspectionChangesNothing := by
  intro s t reg handle idx h
  have hresponds : ∃ code result, respond code result s = .next t := by
    obtain h | h := h
    · obtain ⟨code, result, hexec⟩ := exec_rdreg_responds reg s
      exact ⟨code, result, hexec ▸ h⟩
    · obtain ⟨code, result, hexec⟩ := exec_tblRd_responds handle idx s
      exact ⟨code, result, hexec ▸ h⟩
  obtain ⟨code, result, ht⟩ := hresponds
  rw [eq_of_respond ht]
  exact ⟨rfl, fun _ => rfl, fun _ _ => rfl⟩

end Sys2Proof.Machine
end

section
/-! SUPPORT, and the proofs of O39, O40, O5 and O22. How every command ends: turned away at its entry checks with the
state as it was, or carried out and answered with a code below the refusals' (spec/60_exceptions.md R250, R251, R256,
R271). -/

namespace Sys2Proof.Machine

open Sys2Proof.Config

/-! ### The two ways a command ends -/

/-- The codes a command is turned away with: a refusal's, or the fault that is latched already. -/
def TurnsAway (s : State) (code : BitVec 8) : Prop :=
  (∃ x, code = refusalCode x) ∨ (s.rerr ≠ 0 ∧ code = s.rerr)

/-- The codes of a command that was carried out: OK, EOF, and the faults it can raise (spec/60_exceptions.md R251). -/
def carriedOutCodes : List (BitVec 8) := [0x00, 0x01, 0x40, 0x41, 0x42, 0x50, 0x51]

/-- A command issued in `s` is turned away, or carried out and answered with the coming commands as they were. -/
def Ends (s : State) (o : Host.Outcome State Fault Refusal) : Prop :=
  (∃ code, TurnsAway s code ∧ o = respond code 0 s) ∨
  (∃ code result u, code ∈ carriedOutCodes ∧ u.commands = s.commands ∧ o = respond code result u)

section

variable {s u : State} {result : Word56} {code : BitVec 8}

theorem ends_turnedAway (h : TurnsAway s code) : Ends s (respond code 0 s) := .inl ⟨code, h, rfl⟩

theorem ends_refuse (x : RefusalCode) (s : State) : Ends s (refuse x s) := ends_turnedAway (.inl ⟨x, rfl⟩)

theorem ends_ok (h : u.commands = s.commands) : Ends s (respond okCode result u) :=
  .inr ⟨_, _, u, by decide, h, rfl⟩

theorem ends_eof (h : u.commands = s.commands) : Ends s (respond eofCode result u) :=
  .inr ⟨_, _, u, by decide, h, rfl⟩

theorem ends_raiseReader {f : ReaderFault} (h : u.commands = s.commands) : Ends s (raiseReader f result u) :=
  .inr ⟨_, _, _, by cases f <;> decide, (latch_commands f u).trans h, rfl⟩

theorem ends_raiseBuild {f : BuildFault} {x : Sym} : Ends s (raiseBuild f x s) := by
  refine .inr ⟨buildFaultCode f, _, _, by cases f <;> decide, ?_, rfl⟩
  rfl

theorem turnsAway_of_readerReady (h : readerReady s = some code) : TurnsAway s code := by
  unfold readerReady at h
  split at h
  · cases h; exact .inl ⟨.badState, rfl⟩
  · split at h
    next hlatched => cases h; exact .inr ⟨hlatched, rfl⟩
    next => cases h

theorem turnsAway_of_decoderReady (h : decoderReady s = some code) : TurnsAway s code := by
  unfold decoderReady at h
  split at h
  · cases h; exact .inl ⟨.badState, rfl⟩
  · exact turnsAway_of_readerReady h

end

/-! ### The commands -/

theorem rdreg_ends (reg : BitVec 4) (s : State) : Ends s (exec (.rdreg reg) s) := by
  cases hread : readRegister reg s with
  | some v => rw [exec_rdreg_of_some hread]; exact ends_ok rfl
  | none => rw [exec_rdreg_of_none hread]; exact ends_refuse _ s

theorem codeClr_ends (nsym : BitVec 21) (s : State) : Ends s (exec (.codeClr nsym) s) := by
  obtain hle | hgt := le_or_gt nsym.toNat maxSym
  · rw [exec_codeClr_of_le hle]; exact ends_ok rfl
  · rw [exec_codeClr_of_gt hgt]; exact ends_refuse _ s

theorem codeWr_ends (sym : Sym) (len : BitVec 5) (value : BitVec 20) (s : State) :
    Ends s (exec (.codeWr sym len value) s) := by
  rw [exec, execCodeWr]
  split
  · exact ends_refuse _ s
  · split
    · exact ends_refuse _ s
    · exact ends_ok rfl

theorem tblBuild_ends (s : State) : Ends s (exec .tblBuild s) := by
  by_cases hnot : s.tstate = .notBuilt
  · cases hb : buildTables (ntabMax s) s.nsym.toNat s.code with
    | ok a => rw [exec_tblBuild_of_ok hnot hb]; exact ends_ok rfl
    | error r => rw [exec_tblBuild_of_error hnot hb]; exact ends_raiseBuild
  · rw [exec_tblBuild_of_built hnot]; exact ends_refuse _ s

theorem tblRd_ends (handle : Handle) (idx : BitVec 8) (s : State) : Ends s (exec (.tblRd handle idx) s) := by
  by_cases hvalid : s.tstate = .valid
  · obtain hge | hlt := le_or_gt s.ntab.toNat handle.toNat
    · rw [exec_tblRd_of_ge hvalid hge]; exact ends_refuse _ s
    · rw [exec_tblRd_of_lt hvalid hlt]; exact ends_ok rfl
  · rw [exec_tblRd_of_not_valid hvalid]; exact ends_refuse _ s

theorem brInit_ends (budget : Word56) (s : State) : Ends s (exec (.brInit budget) s) :=
  ends_ok (bindSource_commands s)

theorem readbits_ends (n : BitVec 4) (s : State) : Ends s (exec (.readbits n) s) := by
  cases hwidth : widthLegal n with
  | false => rw [exec_readbits_illegal hwidth]; exact ends_refuse _ s
  | true =>
    obtain ⟨h1, h8⟩ := range_of_widthLegal hwidth
    cases hready : readerReady s with
    | some code =>
      rw [exec_readbits_of_not_ready h1 h8 hready]
      exact ends_turnedAway (turnsAway_of_readerReady hready)
    | none =>
      obtain hbudget | hover := le_or_gt n.toNat s.remaining.toNat
      · cases hr : refill n.toNat s with
        | done _ u =>
          rw [exec_readbits_of_refilled h1 h8 hready hbudget hr]
          exact ends_ok ((consume_commands _ u).trans (same_commands (refill_same hr)))
        | raised f u =>
          rw [exec_readbits_of_raised h1 h8 hready hbudget hr]
          exact ends_raiseReader (same_commands (refill_raised_same hr))
      · rw [exec_readbits_over_budget h1 h8 hready hover]; exact ends_raiseReader rfl

theorem peek_ends (s : State) : Ends s (exec .peek s) := by
  cases hready : readerReady s with
  | some code => rw [exec_peek_of_not_ready hready]; exact ends_turnedAway (turnsAway_of_readerReady hready)
  | none =>
    by_cases hrem : s.remaining = 0
    · rw [exec_peek_exhausted hready hrem]; exact ends_eof rfl
    · cases hr : refill (availBits s) s with
      | done _ u => rw [exec_peek_of_refilled hready hrem hr]; exact ends_ok (same_commands (refill_same hr))
      | raised f u =>
        rw [exec_peek_of_raised hready hrem hr]
        exact ends_raiseReader (same_commands (refill_raised_same hr))

theorem decodeOne_commands {s : State} {r : Run Decoded} (h : decodeOne s = r) : r.state.commands = s.commands :=
  h ▸ reading_commands (decodeOne_sameButReading s)

theorem decSym_ends (s : State) : Ends s (exec .decSym s) := by
  cases hready : decoderReady s with
  | some code => rw [exec_decSym_of_not_ready hready]; exact ends_turnedAway (turnsAway_of_decoderReady hready)
  | none =>
    cases hd : decodeOne s with
    | raised f u => rw [(exec_decodes_of_raised hready hd).1]; exact ends_raiseReader (decodeOne_commands hd)
    | done d u =>
      cases d with
      | ended => rw [(exec_decodes_of_ended hready hd).1]; exact ends_eof (decodeOne_commands hd)
      | sym x => rw [exec_decSym_of_sym hready hd]; exact ends_ok (decodeOne_commands hd)

/-- However many symbols the loop of DEC_RUN has emitted since `s`, it ends as a command that was carried out. -/
theorem decodeRun_ends {s u : State} (left cnt : Nat) (h : u.commands = s.commands) : Ends s (decodeRun left cnt u) := by
  induction left generalizing cnt u with
  | zero => exact ends_ok h
  | succ left ih =>
    obtain ⟨f, v, hd, hrun⟩ | ⟨v, hd, hrun⟩ | ⟨x, v, hd, hrun⟩ := decodeRun_succ left cnt u <;>
      rw [hrun] <;> have hv : v.commands = s.commands := (decodeOne_commands hd).trans h
    · exact ends_raiseReader hv
    · exact ends_eof hv
    · exact ih (u := emit x v) _ hv

theorem decRun_ends (quota : Word56) (s : State) : Ends s (exec (.decRun quota) s) := by
  cases hready : decoderReady s with
  | some code => rw [exec_decRun_of_not_ready hready]; exact ends_turnedAway (turnsAway_of_decoderReady hready)
  | none => rw [exec_decRun_of_ready hready]; exact decodeRun_ends _ _ rfl

theorem exec_ends (i : Instr) (s : State) : Ends s (exec i s) := by
  cases i with
  | reset => exact ends_ok (resetKeepingEnvironment_commands s)
  | rdreg reg => exact rdreg_ends reg s
  | codeClr nsym => exact codeClr_ends nsym s
  | codeWr sym len value => exact codeWr_ends sym len value s
  | tblBuild => exact tblBuild_ends s
  | tblRd handle idx => exact tblRd_ends handle idx s
  | brInit budget => exact brInit_ends budget s
  | readbits n => exact readbits_ends n s
  | peek => exact peek_ends s
  | decSym => exact decSym_ends s
  | decRun quota => exact decRun_ends quota s

/-- A word that encodes no command is turned away (spec/30_encoding.md R108). -/
theorem answer_ends (w : Word) (s : State) : Ends s (answer w s) := by
  unfold answer
  split
  · exact exec_ends _ s
  · exact ends_refuse _ s

/-! ### Every command is answered (O39) -/

/-- The eleven codes of R251: those of a command carried out, and the refusals'. -/
theorem turnsAway_code_listed {s : State} {code : BitVec 8} (hlegal : rerrLegal s.rerr) (h : TurnsAway s code) :
    code ∈ carriedOutCodes ++ [0x7C, 0x7D, 0x7E, 0x7F] := by
  obtain ⟨x, rfl⟩ | ⟨-, rfl⟩ := h
  · cases x <;> decide
  · obtain h | h | h | h := hlegal <;> rw [h] <;> decide

/-- Settles O39: a command turned away answers a refusal or the latched fault, which is legal; one carried out answers
OK, EOF or a fault of its own; and neither touches the commands to come. -/
theorem everyCommandIsAnswered : Obligations.EveryCommandIsAnswered := by
  intro s w rest hlegal hw
  have hstep : step s = answer w { s with commands := rest } := by rw [step, hw]
  rw [hstep]
  obtain ⟨code, hcode, ho⟩ | ⟨code, result, u, hcode, hcommands, ho⟩ := answer_ends w { s with commands := rest }
  · exact ⟨_, code, 0, ho, rfl, rfl, turnsAway_code_listed (s := { s with commands := rest }) hlegal hcode⟩
  · exact ⟨_, code, result, ho, hcommands, rfl, List.mem_append_left _ hcode⟩

/-! ### Refusals (O40, O22) -/

/-- The code of a response word as a number. -/
theorem responseWord_code (code : BitVec 8) (result : Word56) :
    (responseWord code result).toNat / 2 ^ 56 = code.toNat := by
  rw [← toNat_opcode, responseWord, (Laws.EncodeFields.fields_of_append code result).1]

theorem carriedOut_code_lt {code : BitVec 8} (h : code ∈ carriedOutCodes) : code.toNat < 0x7C := by
  revert code; decide

/-- Settles O40: a command that was carried out answers a code below 0x7C, so this one was turned away. -/
theorem refusalsChangeNoState : Obligations.RefusalsChangeNoState := by
  intro i s t w h hresponse hrefusal
  obtain ⟨code, -, ho⟩ | ⟨code, result, u, hcode, -, ho⟩ := exec_ends i s <;>
    have ht := eq_of_respond (ho.symm.trans h) <;> subst ht <;> cases hresponse
  · rfl
  · rw [responseWord_code] at hrefusal
    exact absurd (carriedOut_code_lt hcode) (not_lt.2 hrefusal)

/-- Settles O22: each command's check of TSTATE, and then of the reader, comes before anything it does. -/
theorem badStateCauses : Obligations.BadStateCauses := by
  intro s
  refine ⟨fun hbuilt => ⟨fun _ _ _ => exec_codeWr_of_built hbuilt, exec_tblBuild_of_built hbuilt⟩,
    fun hvalid _ _ => exec_tblRd_of_not_valid hvalid, fun hunb => ?_, fun h => ?_⟩
  · have hready := readerReady_of_unbound hunb
    exact ⟨fun _ h1 h8 => exec_readbits_of_not_ready h1 h8 hready, exec_peek_of_not_ready hready⟩
  · obtain hvalid | hunb := h
    · exact exec_decodes_of_not_valid hvalid
    · have hready := decoderReady_of_unbound hunb
      exact ⟨exec_decSym_of_not_ready hready, fun _ => exec_decRun_of_not_ready hready⟩

/-! ### Idle (O5) -/

/-- Settles O5: the step takes a word only where the host's list has one. -/
theorem idleKeepsAllState : Obligations.IdleKeepsAllState := by
  intro s hidle
  rw [step, hidle]

end Sys2Proof.Machine
end

section
/-! SUPPORT, and the proofs of O42 and O48. Which commands can change the Code and its table (spec/20_memory.md R73), and
where the reader stands at the end of its budget (spec/70_reset_and_hazards.md R301, R302). -/

namespace Sys2Proof.Machine

/-! ### The Code and its table (O42) -/

section

variable {s t : State}

/-- After a build attempt CODE_WR and TBL_BUILD are refused (spec/41_table_build.md R171, R173). -/
theorem loading_tablesKept_of_built (hbuilt : s.tstate ≠ .notBuilt) :
    (∀ sym len value, exec (.codeWr sym len value) s = .next t → TablesKept s t) ∧
      (exec .tblBuild s = .next t → TablesKept s t) :=
  ⟨fun _ _ _ h => tablesKept_respond (exec_codeWr_of_built hbuilt ▸ h),
    fun h => tablesKept_respond (exec_tblBuild_of_built hbuilt ▸ h)⟩

/-- A command that is none of the four of the Code leaves it and its table (spec/70_reset_and_hazards.md R301). -/
theorem exec_tablesKept {i : Instr} (hreset : i ≠ .reset) (hclr : ∀ nsym, i ≠ .codeClr nsym)
    (hwr : ∀ sym len value, i ≠ .codeWr sym len value) (hbuild : i ≠ .tblBuild) (h : exec i s = .next t) :
    TablesKept s t := by
  cases i with
  | reset => exact absurd rfl hreset
  | codeClr nsym => exact absurd rfl (hclr nsym)
  | codeWr sym len value => exact absurd rfl (hwr sym len value)
  | tblBuild => exact absurd rfl hbuild
  | rdreg reg => exact tablesKept_answers (rdreg_answers h)
  | tblRd handle idx => exact tablesKept_answers (tblRd_answers h)
  | brInit budget => exact brInit_tablesKept h
  | readbits n => exact readbits_tablesKept h
  | peek => exact peek_tablesKept h
  | decSym => exact decSym_tablesKept h
  | decRun quota => exact decRun_tablesKept h

/-- A command other than RESET and CODE_CLR leaves the Code and its table once a build was attempted. -/
theorem exec_tablesKept_of_built {i : Instr} (hbuilt : s.tstate ≠ .notBuilt) (hreset : i ≠ .reset)
    (hclr : ∀ nsym, i ≠ .codeClr nsym) (h : exec i s = .next t) : TablesKept s t := by
  obtain ⟨hkeptWr, hkeptBuild⟩ := loading_tablesKept_of_built (t := t) hbuilt
  by_cases hwr : ∃ sym len value, i = .codeWr sym len value
  · obtain ⟨sym, len, value, rfl⟩ := hwr
    exact hkeptWr sym len value h
  by_cases hbuild : i = .tblBuild
  · subst hbuild
    exact hkeptBuild h
  · exact exec_tablesKept hreset hclr (fun sym len value hi => hwr ⟨sym, len, value, hi⟩) hbuild h

end

/-- Settles O42: after a build attempt CODE_WR and TBL_BUILD are refused, and the commands that are left do not touch
the Code. -/
theorem codeIsImmutableOnceBuilt : Obligations.CodeIsImmutableOnceBuilt := by
  intro i s t h hreset hclr hcause
  have hkept : TablesKept s t := by
    obtain hbuilt | ⟨hwr, hbuild⟩ := hcause
    · exact exec_tablesKept_of_built hbuilt hreset hclr h
    · exact exec_tablesKept hreset hclr hwr hbuild h
  exact ⟨hkept.code, hkept.nsym, hkept.table, hkept.ntab, hkept.tstate, hkept.terr⟩

/-! ### The end of the region (O48) -/

/-- Settles O48: with no budget left the bits fetched are the budget and what is pending, which is less than a byte. -/
theorem sourceStandsAfterTheRegion : Obligations.SourceStandsAfterTheRegion := by
  intro s hs hact hspent
  have hbounds := hs.reader.bounds hact
  have hfetched : 8 * s.srcpos.toNat = s.budget0.toNat + s.nacc.toNat := by simpa [hspent] using hbounds.fetched
  have hpending : s.nacc.toNat ≤ 7 := by simpa [hspent] using hbounds.pending_le
  exact ⟨by omega, hpending⟩

end Sys2Proof.Machine
end

section
/-! SUPPORT, and the proof of O6. A word of the spec's programs (spec/95_test_vectors.md) is decoded by way of the
encoding of the command listed beside it. -/

namespace Sys2Proof

/-- A word known to be the encoding of a legal command decodes to that command (spec/30_encoding.md R102, R108). -/
theorem decode_of_encode_eq {w : Word} {i : Instr} (hword : encode i = w) (hwf : i.wf = true) : decode w = .ok i :=
  hword ▸ decodeOfEncodeIsTheCommand i hwf

/-- Settles O6: each word is the encoding of its command, whose fields are legal. -/
theorem specWordsDecodeAsListed : Obligations.SpecWordsDecodeAsListed := by
  and_intros
  all_goals exact decode_of_encode_eq rfl rfl

end Sys2Proof
end
